-- ==== Sys2Proof/Word.lean ====
section
/-! DEFINITION. The words of the block: a register is 32 bits wide (spec/10_state.md R21), the
low half a write-masked register stores is 16 bits (spec/30_encoding.md R92), and the data
output register gives bytes (R40). -/

namespace Sys2Proof

/-- A 32-bit register value, header word or operand word (R21, R80). -/
abbrev Word := BitVec 32

/-- The low half of a write-masked register (R92). -/
abbrev Half := BitVec 16

/-- One byte: a fuse byte of variant A, a lane of a variant-B word, a byte of a host buffer. -/
abbrev Byte := BitVec 8

end Sys2Proof
end

