-- ==== Sys2Proof/Config.lean ====
section
/-! DEFINITION. What an implementation fixes: the constants of spec/00_scope.md R6, the
configuration record `Cfg` of R7, and the free values (constants without a body). -/

namespace Sys2Proof

/-- The two variants of the controller (R2). -/
inductive Variant where
  | A
  | B
  deriving DecidableEq, Repr, Inhabited

/-- The reset value of the defined status bits (R7 `STATUS_RESET`, R26). -/
inductive StatusReset where
  | zero
  | unknown
  deriving DecidableEq, Repr, Inhabited

/-- The two agents of the model (R9). -/
inductive Agent where
  | host
  | controller
  deriving DecidableEq, Repr, Inhabited

/-- The configuration record of R7: every number the source leaves open. Its constraints are
`Cfg.wf` (WellFormed.lean). Log entry 1. -/
structure Cfg where
  /-- `VARIANT`: the controller variant (R2). -/
  variant : Variant
  /-- `BASE`: register base address. -/
  base : Nat
  /-- `OFF[r]`: byte offset of each register, in the order of `Reg.slot` (R21, R24, R31). -/
  off : Vector Word 14
  /-- `ENC_DS`: MODE_CTRL code of deep-standby (R25). -/
  encDS : Word
  /-- `ENC_SB`: MODE_CTRL code of standby (R25). -/
  encSB : Word
  /-- `ENC_ACT`: MODE_CTRL code of active (R25). -/
  encACT : Word
  /-- `ENC_RA`: MODE_CTRL code of the read-access command (R25). -/
  encRA : Word
  /-- `BIT_RDM`: IRQ_ST position of "read-done" (R26). -/
  bitRdm : Fin 32
  /-- `BIT_DP2STB`: IRQ_ST position of "standby-reached" (R26). -/
  bitDp2stb : Fin 32
  /-- `BIT_STB2ACT`: IRQ_ST position of "active-reached" (R26). -/
  bitStb2act : Fin 32
  /-- `BIT_ACT2STB`: IRQ_ST position of "act2stb" (R26). -/
  bitAct2stb : Fin 32
  /-- `BIT_STB2DP`: IRQ_ST position of "stb2dp" (R26). -/
  bitStb2dp : Fin 32
  /-- `BIT_SBPI_DONE`: INT_STATUS position of "SBPI done" (R36). -/
  bitSbpiDone : Fin 32
  /-- `BIT_USER_DONE`: INT_STATUS position of "user done" (R36). -/
  bitUserDone : Fin 32
  /-- `TRANS_ONE`: the fixed transaction count (R29). -/
  transOne : Word
  /-- `ACCESS_ADDR_W`: width of the word-address field, 9 to 32 (R27). -/
  accessAddrW : Nat
  /-- `USER_ADDR_W`: width of the byte-address field, 1 to 16 (R38). -/
  userAddrW : Nat
  /-- `DAP_LO`: lowest bit of the DAP field of SBPI_CTRL (R32). -/
  dapLo : Nat
  /-- `DAP_W`: width of the DAP field of SBPI_CTRL (R32). -/
  dapW : Nat
  /-- `SBPI_EN_BIT`: the SBPI enable pulse (R32). -/
  sbpiEnBit : Fin 16
  /-- `USE_USER_BIT`: the user-mode bit (R37). -/
  useUserBit : Fin 16
  /-- `FSM_EN_BIT`: the FSM-enable pulse (R39). -/
  fsmEnBit : Fin 16
  /-- `DAP_ECC`: the DAP address the ECC command targets. -/
  dapEcc : Half
  /-- `CMD_WRF`: the write-register command code. -/
  cmdWrf : Byte
  /-- `REG_ECC`: the ECC-control sub-address. -/
  regEcc : Byte
  /-- `ECC_DISABLE`: the payload that disables ECC. -/
  eccDisable : Byte
  /-- `ECC_ENABLE`: the payload that enables ECC. -/
  eccEnable : Byte
  /-- `CMD_VALID_VALUE`: the command count of one command pair (R33). -/
  cmdValidValue : Half
  /-- `SIZE_A`: declared size of variant A, in bytes (R47). -/
  sizeA : Nat
  /-- `SIZE_B`: declared size of variant B, in bytes, a multiple of 4 (R47). -/
  sizeB : Nat
  /-- `OTP_WORDS`: size of the variant-B word array (R42). -/
  otpWords : Nat
  /-- `OTP_BYTES`: size of the variant-A byte array (R42). -/
  otpBytes : Nat
  /-- `STATUS_RESET`: reset value of the defined status bits (R26). -/
  statusReset : StatusReset
  /-- `COMPLETION_BOUND`: none means an operation may stay pending for ever (R135). -/
  completionBound : Option Nat
  deriving DecidableEq, Repr

/-- `POLL_INTERVAL`: delay between two status reads, in time-units (R6). -/
abbrev pollInterval : Nat := 1

/-- `POLL_TIMEOUT`: bound on the total wait of a poll, in time-units (R6). -/
abbrev pollTimeout : Nat := 10000

/-- `RESET_HOLD`: minimum PHY reset assertion, in time-units (R6). -/
abbrev resetHold : Nat := 2

/-- `USER_SETTLE`: wait after entering user mode, in time-units (R6). -/
abbrev userSettle : Nat := 5

/-- `WORD_BYTES`: bytes in a variant-B data word (R6). -/
abbrev wordBytes : Nat := 4

/-- `SECURE_WORD_OFFSET`: added to every variant-B word address (R6, R68). -/
abbrev secureWordOffset : Nat := 224

/-- FREE VALUE: the `n`-th unconstrained value drawn after the scripted ones are used up
(R12 `draw`). Log entry 3. -/
opaque Config.freeWord : Nat → BitVec 32

/-- FREE VALUE: which agent moves at the `n`-th scheduling choice after the scripted ones are
used up (R9, R73). Log entry 5. -/
opaque Config.freeAgent : Nat → Agent

/-- FREE VALUE: the chip's variant-A fuse byte at a user byte address the state does not list
(R8, R42). Log entry 2. -/
opaque Config.fuseA : Nat → BitVec 8

/-- FREE VALUE: the chip's variant-B fuse byte `4 * w + j`, lane `j` of word `w`, where the
state does not list it (R8, R42, R63). Log entry 2. -/
opaque Config.fuseB : Nat → BitVec 8

end Sys2Proof
end

