-- ==== Sys2Proof/Syntax.lean ====
section
/-! DEFINITION. The operations of the block: one constructor of `Instr` per row of
spec/opcode_table.json (spec/30_encoding.md R83), over the register names of R82. -/

namespace Sys2Proof

/-- The register names of R82 (spec/10_state.md R24, R31). -/
inductive Reg where
  | modeCtrl
  | irqSt
  | accessAddr
  | rdData
  | reprRdTransNum
  | sbpiCtrl
  | sbpiCmdValidPre
  | sbpiCmd0
  | sbpiCmd1
  | intStatus
  | userCtrl
  | userAddr
  | userEnable
  | userQ
  deriving DecidableEq, Repr, Inhabited

/-- The clock domains of R83: 0 = FUNC, 1 = BUS, 2 = PHY. -/
inductive Domain where
  | func
  | bus
  | phy
  deriving DecidableEq, Repr, Inhabited

/-- A host variable number, the DST field (R81). -/
abbrev Var := Fin 16

/-- The operations of spec/opcode_table.json. `d` is the operand word D, `n` the host variable
DST, `m` the target mask (R83). -/
inductive Instr where
  | w32ModeCtrl (d : Word)
  | w32IrqSt (d : Word)
  | w32AccessAddr (d : Word)
  | w32RdData (d : Word)
  | w32ReprRdTransNum (d : Word)
  | w32SbpiCtrl (d : Word)
  | w32SbpiCmdValidPre (d : Word)
  | w32SbpiCmd0 (d : Word)
  | w32SbpiCmd1 (d : Word)
  | w32IntStatus (d : Word)
  | w32UserCtrl (d : Word)
  | w32UserAddr (d : Word)
  | w32UserEnable (d : Word)
  | w32UserQ (d : Word)
  | r32ModeCtrl (n : Var)
  | r32IrqSt (n : Var)
  | r32AccessAddr (n : Var)
  | r32RdData (n : Var)
  | r32ReprRdTransNum (n : Var)
  | r32SbpiCtrl (n : Var)
  | r32SbpiCmdValidPre (n : Var)
  | r32SbpiCmd0 (n : Var)
  | r32SbpiCmd1 (n : Var)
  | r32IntStatus (n : Var)
  | r32UserCtrl (n : Var)
  | r32UserAddr (n : Var)
  | r32UserEnable (n : Var)
  | r32UserQ (n : Var)
  | r8UserQ (n : Var)
  | r8Other (r : Reg) (n : Var)
  | clkon (n : Var) (d : Domain)
  | clkoff (d : Domain)
  | rsta (n : Var)
  | rstd (n : Var)
  | delay (n : BitVec 16)
  | waitforIrqSt (n : Var) (m : Word)
  | waitforIntStatus (n : Var) (m : Word)
  deriving DecidableEq, Repr

end Sys2Proof
end

