-- ==== Sys2Proof/WellFormed.lean ====
section
/-! DEFINITION. What the types of the syntax and of the configuration do not already say: the
one operand restriction of spec/30_encoding.md R83/R97, and the constraints of
spec/00_scope.md R7 on `Cfg`. -/

namespace Sys2Proof

/-- An operation the table has: `r8 vN, other` names a register other than USER_Q, which has a
row of its own that is matched first (R97, R128). Every other restriction is in the types. -/
def Instr.wf : Instr → Bool
  | .r8Other r _ => decide (r ≠ .userQ)
  | _ => true

/-- The mode codes are pairwise distinct (R7). -/
def Cfg.codesDistinct (c : Cfg) : Bool := decide [c.encDS, c.encSB, c.encACT, c.encRA].Nodup

/-- The IRQ_ST bit positions are pairwise distinct (R7). -/
def Cfg.irqBitsDistinct (c : Cfg) : Bool :=
  decide [c.bitRdm, c.bitDp2stb, c.bitStb2act, c.bitAct2stb, c.bitStb2dp].Nodup

/-- The INT_STATUS bit positions are distinct (R7). -/
def Cfg.intBitsDistinct (c : Cfg) : Bool := decide (c.bitSbpiDone ≠ c.bitUserDone)

/-- The field widths: `ACCESS_ADDR_W` 9 to 32 and wide enough for the last declared word,
`USER_ADDR_W` 1 to 16, the DAP field inside [15:0] with its target value in it (R7). -/
def Cfg.widthsFit (c : Cfg) : Bool :=
  decide (9 ≤ c.accessAddrW ∧ c.accessAddrW ≤ 32 ∧
    secureWordOffset + c.sizeB / wordBytes ≤ 2 ^ c.accessAddrW ∧
    1 ≤ c.userAddrW ∧ c.userAddrW ≤ 16 ∧
    1 ≤ c.dapW ∧ c.dapLo + c.dapW ≤ 16 ∧ c.dapEcc.toNat < 2 ^ c.dapW)

/-- The ECC payloads are distinct (R7). -/
def Cfg.payloadsDistinct (c : Cfg) : Bool := decide (c.eccDisable ≠ c.eccEnable)

/-- The sizes: `SIZE_B` a multiple of 4, `OTP_WORDS` at least 224 + SIZE_B / 4 (R7). -/
def Cfg.sizesFit (c : Cfg) : Bool :=
  decide (c.sizeB % wordBytes = 0 ∧ secureWordOffset + c.sizeB / wordBytes ≤ c.otpWords)

/-- The offsets of one variant's registers are distinct multiples of 4 (R7, R61; the offsets of
the two variants may coincide, spec/92 D40). `Reg.slot` numbers B's registers 0 to 4 and A's 5
to 13. -/
def Cfg.offsetsFit (c : Cfg) : Bool :=
  c.off.toList.all (fun o => decide (o.toNat % 4 = 0)) &&
    decide (c.off.toList.take 5).Nodup && decide (c.off.toList.drop 5).Nodup

/-- The constraints R7 puts on the configuration record. -/
def Cfg.wf (c : Cfg) : Bool :=
  c.codesDistinct && c.irqBitsDistinct && c.intBitsDistinct && c.widthsFit &&
    c.payloadsDistinct && c.sizesFit && c.offsetsFit

end Sys2Proof
end

