-- ==== Sys2Proof/Decode.lean ====
section
/-! DEFINITION. The transaction encoding of spec/30_encoding.md: fields (R81), register indices
(R82), classes (R83), lengths (R96), and the reserved encodings (R89). The decoder is total: it
gives an operation or the reason R89 refuses the words. The encoder comes after it. -/

namespace Sys2Proof

/-- Why R89 refuses an encoding. Every reason is the refusal `ReservedEncoding` (R265 REF1). -/
inductive Reject where
  /-- CLS 0x0 or 0xA to 0xF. -/
  | reservedClass
  /-- A REG value R82 reserves. -/
  | reservedRegister
  /-- A non-zero REG, DST or IMM bit where R83 requires 0. -/
  | nonZeroField
  /-- Clock domain 3. -/
  | reservedDomain
  /-- A `waitfor` whose REG is no status register. -/
  | notStatusRegister
  /-- A program that ends between a header and its operand word. -/
  | truncated
  deriving DecidableEq, Repr

/-- H[31:28], the operation class (R81). -/
def headerClass (h : Word) : BitVec 4 := h.extractLsb' 28 4

/-- H[27:20], the register index (R81). -/
def headerReg (h : Word) : BitVec 8 := h.extractLsb' 20 8

/-- H[19:16], the host variable (R81). -/
def headerDst (h : Word) : BitVec 4 := h.extractLsb' 16 4

/-- H[15:0], the immediate (R81). -/
def headerImm (h : Word) : BitVec 16 := h.extractLsb' 0 16

/-- The register a REG value names; none where R82 reserves it. -/
def regOfIndex (x : BitVec 8) : Option Reg :=
  match x.toNat with
  | 0x00 => some .modeCtrl
  | 0x01 => some .irqSt
  | 0x02 => some .accessAddr
  | 0x03 => some .rdData
  | 0x04 => some .reprRdTransNum
  | 0x10 => some .sbpiCtrl
  | 0x11 => some .sbpiCmdValidPre
  | 0x12 => some .sbpiCmd0
  | 0x13 => some .sbpiCmd1
  | 0x14 => some .intStatus
  | 0x15 => some .userCtrl
  | 0x16 => some .userAddr
  | 0x17 => some .userEnable
  | 0x18 => some .userQ
  | _ => none

/-- The clock domain of IMM[1:0] (R83); none for the reserved code 3 (R89). -/
def domainOfCode (x : BitVec 2) : Option Domain :=
  match x.toNat with
  | 0 => some .func
  | 1 => some .bus
  | 2 => some .phy
  | _ => none

/-- The `w32` row of a register. -/
def w32Row (r : Reg) (d : Word) : Instr :=
  match r with
  | .modeCtrl => .w32ModeCtrl d
  | .irqSt => .w32IrqSt d
  | .accessAddr => .w32AccessAddr d
  | .rdData => .w32RdData d
  | .reprRdTransNum => .w32ReprRdTransNum d
  | .sbpiCtrl => .w32SbpiCtrl d
  | .sbpiCmdValidPre => .w32SbpiCmdValidPre d
  | .sbpiCmd0 => .w32SbpiCmd0 d
  | .sbpiCmd1 => .w32SbpiCmd1 d
  | .intStatus => .w32IntStatus d
  | .userCtrl => .w32UserCtrl d
  | .userAddr => .w32UserAddr d
  | .userEnable => .w32UserEnable d
  | .userQ => .w32UserQ d

/-- The `r32` row of a register. -/
def r32Row (r : Reg) (n : Var) : Instr :=
  match r with
  | .modeCtrl => .r32ModeCtrl n
  | .irqSt => .r32IrqSt n
  | .accessAddr => .r32AccessAddr n
  | .rdData => .r32RdData n
  | .reprRdTransNum => .r32ReprRdTransNum n
  | .sbpiCtrl => .r32SbpiCtrl n
  | .sbpiCmdValidPre => .r32SbpiCmdValidPre n
  | .sbpiCmd0 => .r32SbpiCmd0 n
  | .sbpiCmd1 => .r32SbpiCmd1 n
  | .intStatus => .r32IntStatus n
  | .userCtrl => .r32UserCtrl n
  | .userAddr => .r32UserAddr n
  | .userEnable => .r32UserEnable n
  | .userQ => .r32UserQ n

/-- The `r8` row of a register: USER_Q's own row is matched before the row of the others (R97). -/
def r8Row (r : Reg) (n : Var) : Instr :=
  match r with
  | .userQ => .r8UserQ n
  | r => .r8Other r n

/-- The `waitfor` row of a register; none for a register that is no status register (R88). -/
def waitforRow (r : Reg) (n : Var) (m : Word) : Option Instr :=
  match r with
  | .irqSt => some (.waitforIrqSt n m)
  | .intStatus => some (.waitforIntStatus n m)
  | _ => none

/-- The words of an operation: 2 for the classes 0x1 and 0x9, otherwise 1 (R96). -/
def headerLength (h : Word) : Nat :=
  match (headerClass h).toNat with
  | 0x1 => 2
  | 0x9 => 2
  | _ => 1

/-- Decode the operation whose header is `h` and whose operand word, if it has one, is the first
of `rest`; the answer carries the words left after it (R81 to R89, R96, R97). -/
def decodeFrom (h : Word) (rest : List Word) : Except Reject (Instr × List Word) :=
  let reg := headerReg h
  let dst : Var := (headerDst h).toFin
  let imm := headerImm h
  match (headerClass h).toNat with
  | 0x1 =>
    match regOfIndex reg with
    | none => .error .reservedRegister
    | some r =>
      if headerDst h ≠ 0 ∨ imm ≠ 0 then .error .nonZeroField
      else
        match rest with
        | [] => .error .truncated
        | d :: rest' => .ok (w32Row r d, rest')
  | 0x2 =>
    match regOfIndex reg with
    | none => .error .reservedRegister
    | some r => if imm ≠ 0 then .error .nonZeroField else .ok (r32Row r dst, rest)
  | 0x3 =>
    match regOfIndex reg with
    | none => .error .reservedRegister
    | some r => if imm ≠ 0 then .error .nonZeroField else .ok (r8Row r dst, rest)
  | 0x4 =>
    if reg ≠ 0 ∨ imm.extractLsb' 2 14 ≠ 0 then .error .nonZeroField
    else
      match domainOfCode (imm.extractLsb' 0 2) with
      | none => .error .reservedDomain
      | some d => .ok (.clkon dst d, rest)
  | 0x5 =>
    if reg ≠ 0 ∨ headerDst h ≠ 0 ∨ imm.extractLsb' 2 14 ≠ 0 then .error .nonZeroField
    else
      match domainOfCode (imm.extractLsb' 0 2) with
      | none => .error .reservedDomain
      | some d => .ok (.clkoff d, rest)
  | 0x6 => if reg ≠ 0 ∨ imm ≠ 0 then .error .nonZeroField else .ok (.rsta dst, rest)
  | 0x7 => if reg ≠ 0 ∨ imm ≠ 0 then .error .nonZeroField else .ok (.rstd dst, rest)
  | 0x8 =>
    if reg ≠ 0 ∨ headerDst h ≠ 0 then .error .nonZeroField else .ok (.delay imm, rest)
  | 0x9 =>
    match regOfIndex reg with
    | none => .error .reservedRegister
    | some r =>
      if imm ≠ 0 then .error .nonZeroField
      else
        match rest with
        | [] =>
          match waitforRow r dst 0 with
          | none => .error .notStatusRegister
          | some _ => .error .truncated
        | m :: rest' =>
          match waitforRow r dst m with
          | none => .error .notStatusRegister
          | some i => .ok (i, rest')
  | _ => .error .reservedClass

/-- Decode the first operation of a program's remaining words; none when no word is left, that
is, the program has ended (R80). -/
def decode : List Word → Option (Except Reject (Instr × List Word))
  | [] => none
  | h :: rest => some (decodeFrom h rest)

/-- The words that stay after a refused encoding: its class alone gives its length (R96), and a
truncated program has none left. Log entry 8. -/
def skipRefused : List Word → List Word
  | [] => []
  | h :: rest => rest.drop (headerLength h - 1)

/-- Bits `lo + 31` to `lo` of an instruction's bits numbered as spec/opcode_table.json numbers
them: the word that starts at bit `lo`. -/
def tableWordAt (w lo : Nat) : Word := BitVec.ofNat 32 (w >>> lo)

/-- The two words of an instruction of `nbits` table bits `w`, the longest form of R96; every
bit at or above `nbits` is 0. The header is bits 31..0, the operand word bits 63..32. -/
def tableWords (nbits w : Nat) : List Word :=
  let x := w % 2 ^ nbits
  [tableWordAt x 0, tableWordAt x 32]

/-- The operation the decoder reads from an instruction whose table bits are `w`; none where it
refuses the words. -/
def decodeTableWord (nbits w : Nat) : Option Instr :=
  match decode (tableWords nbits w) with
  | some (.ok (i, _)) => some i
  | _ => none

/-- The REG value of a register (R82). -/
def regIndex : Reg → BitVec 8
  | .modeCtrl => 0x00
  | .irqSt => 0x01
  | .accessAddr => 0x02
  | .rdData => 0x03
  | .reprRdTransNum => 0x04
  | .sbpiCtrl => 0x10
  | .sbpiCmdValidPre => 0x11
  | .sbpiCmd0 => 0x12
  | .sbpiCmd1 => 0x13
  | .intStatus => 0x14
  | .userCtrl => 0x15
  | .userAddr => 0x16
  | .userEnable => 0x17
  | .userQ => 0x18

/-- The IMM value of a clock domain (R83). -/
def domainCode : Domain → BitVec 16
  | .func => 0
  | .bus => 1
  | .phy => 2

/-- The header word with the four fields of R81. -/
def header (cls : BitVec 4) (reg : BitVec 8) (dst : BitVec 4) (imm : BitVec 16) : Word :=
  cls ++ reg ++ dst ++ imm

/-- The DST field of a host variable (R81). -/
def varField (n : Var) : BitVec 4 := BitVec.ofFin n

/-- The `w32` form (R84). -/
def encodeW32 (r : Reg) (d : Word) : List Word := [header 0x1 (regIndex r) 0 0, d]

/-- The `r32` form (R85). -/
def encodeR32 (r : Reg) (n : Var) : List Word := [header 0x2 (regIndex r) (varField n) 0]

/-- The `r8` form (R85). -/
def encodeR8 (r : Reg) (n : Var) : List Word := [header 0x3 (regIndex r) (varField n) 0]

/-- The `waitfor` form (R88). -/
def encodeWaitfor (r : Reg) (n : Var) (m : Word) : List Word :=
  [header 0x9 (regIndex r) (varField n) 0, m]

/-- The words of an operation (R84 to R88). -/
def encode : Instr → List Word
  | .w32ModeCtrl d => encodeW32 .modeCtrl d
  | .w32IrqSt d => encodeW32 .irqSt d
  | .w32AccessAddr d => encodeW32 .accessAddr d
  | .w32RdData d => encodeW32 .rdData d
  | .w32ReprRdTransNum d => encodeW32 .reprRdTransNum d
  | .w32SbpiCtrl d => encodeW32 .sbpiCtrl d
  | .w32SbpiCmdValidPre d => encodeW32 .sbpiCmdValidPre d
  | .w32SbpiCmd0 d => encodeW32 .sbpiCmd0 d
  | .w32SbpiCmd1 d => encodeW32 .sbpiCmd1 d
  | .w32IntStatus d => encodeW32 .intStatus d
  | .w32UserCtrl d => encodeW32 .userCtrl d
  | .w32UserAddr d => encodeW32 .userAddr d
  | .w32UserEnable d => encodeW32 .userEnable d
  | .w32UserQ d => encodeW32 .userQ d
  | .r32ModeCtrl n => encodeR32 .modeCtrl n
  | .r32IrqSt n => encodeR32 .irqSt n
  | .r32AccessAddr n => encodeR32 .accessAddr n
  | .r32RdData n => encodeR32 .rdData n
  | .r32ReprRdTransNum n => encodeR32 .reprRdTransNum n
  | .r32SbpiCtrl n => encodeR32 .sbpiCtrl n
  | .r32SbpiCmdValidPre n => encodeR32 .sbpiCmdValidPre n
  | .r32SbpiCmd0 n => encodeR32 .sbpiCmd0 n
  | .r32SbpiCmd1 n => encodeR32 .sbpiCmd1 n
  | .r32IntStatus n => encodeR32 .intStatus n
  | .r32UserCtrl n => encodeR32 .userCtrl n
  | .r32UserAddr n => encodeR32 .userAddr n
  | .r32UserEnable n => encodeR32 .userEnable n
  | .r32UserQ n => encodeR32 .userQ n
  | .r8UserQ n => encodeR8 .userQ n
  | .r8Other r n => encodeR8 r n
  | .clkon n d => [header 0x4 0 (varField n) (domainCode d)]
  | .clkoff d => [header 0x5 0 0 (domainCode d)]
  | .rsta n => [header 0x6 0 (varField n) 0]
  | .rstd n => [header 0x7 0 (varField n) 0]
  | .delay n => [header 0x8 0 0 n]
  | .waitforIrqSt n m => encodeWaitfor .irqSt n m
  | .waitforIntStatus n m => encodeWaitfor .intStatus n m

end Sys2Proof
end

