-- ==== Sys2Proof/Machine/Regs.lean ====
section
/-! DEFINITION. The parts State is made of (spec/10_state.md), their reset values
(spec/70_reset_and_hazards.md R291, R292), the free values' supply, and the configuration
State.reset uses. -/

namespace Sys2Proof.Machine

/-- The stable power modes of variant B: deep-standby, standby, active (R30). -/
inductive Mode where
  | DS
  | SB
  | ACT
  deriving DecidableEq, Repr, Inhabited

/-- The pending operations of the variant-B controller (R30). `read w` holds the word address
latched at issue. -/
inductive PendB where
  | dpToStb
  | stbToAct
  | actToStb
  | stbToDp
  | read (w : Word)
  deriving DecidableEq, Repr

/-- The pending operations of the variant-A controller, with the values latched at issue (R41). -/
inductive PendA where
  | sbpi (dap : Half) (cmd0 cmd1 : Word)
  | user (a : Half)
  deriving DecidableEq, Repr

/-- The defined bits of IRQ_ST (R26). -/
inductive IrqBit where
  | rdm
  | dp2stb
  | stb2act
  | act2stb
  | stb2dp
  deriving DecidableEq, Repr

/-- The defined bits of INT_STATUS (R36). -/
inductive IntBit where
  | sbpiDone
  | userDone
  deriving DecidableEq, Repr

/-- The held values of IRQ_ST; none is unknown (R26, R103). -/
structure IrqSt where
  rdm : Option Bool
  dp2stb : Option Bool
  stb2act : Option Bool
  act2stb : Option Bool
  stb2dp : Option Bool
  deriving DecidableEq, Repr

/-- The held values of INT_STATUS; none is unknown (R36, R103). -/
structure IntStatus where
  sbpiDone : Option Bool
  userDone : Option Bool
  deriving DecidableEq, Repr

/-- The stored register fields of variant B (R24 to R29); none is unknown (R103). MODE_CTRL
stores nothing of its own: its value is the mode of `CtlB` (R25). -/
structure RegsB where
  /-- REPR_RD_TRANS_NUM (R29). -/
  transNum : Option Word
  /-- ACCESS_ADDR.addr, zero-extended to 32 bits (R27). -/
  accessAddr : Option Word
  /-- RD_DATA (R28). -/
  rdData : Option Word
  /-- IRQ_ST (R26). -/
  irqSt : IrqSt
  deriving DecidableEq, Repr

/-- The internal state of the variant-B controller (R30). -/
structure CtlB where
  mode : Mode
  pend : Option PendB
  deriving DecidableEq, Repr

/-- The stored register fields of variant A (R31 to R40); none is unknown (R103). The pulse
fields SBPI_CTRL.en and USER_ENABLE.fsm_en store nothing (R32, R39). -/
structure RegsA where
  /-- SBPI_CTRL.dap, zero-extended to 16 bits (R32). -/
  dap : Option Half
  /-- SBPI_CMD_VALID_PRE.cnt (R33). -/
  cmdValid : Option Half
  /-- SBPI_CMD0 (R34). -/
  cmd0 : Option Word
  /-- SBPI_CMD1 (R35). -/
  cmd1 : Option Word
  /-- INT_STATUS (R36). -/
  intStatus : IntStatus
  /-- USER_CTRL.use_user (R37). -/
  useUser : Bool
  /-- USER_ADDR.uaddr, zero-extended to 16 bits (R38). -/
  uaddr : Option Half
  /-- USER_Q.q (R40). -/
  q : Option Byte
  deriving DecidableEq, Repr

/-- The internal state of the variant-A controller (R41). -/
structure CtlA where
  eccEn : Bool
  pend : Option PendA
  userOnAt : Option Nat
  deriving DecidableEq, Repr

/-- The power/resource gate (R46): the clock enables of the three domains, the PHY reset line
and the time it was last asserted. -/
structure Gate where
  func : Bool
  bus : Bool
  phy : Bool
  rst : Bool
  rstAt : Option Nat
  deriving DecidableEq, Repr

/-- The fault kinds FLT1 to FLT11 (spec/60_exceptions.md R263). -/
inductive FaultKind where
  | clockOff
  | inReset
  | illegalModeCommand
  | illegalTransition
  | busyWrite
  | userModeOff
  | settleViolation
  | resetHoldViolation
  | writeReadOnly
  | badWidth
  | variantAbsent
  deriving DecidableEq, Repr

/-- The sticky set of fault kinds (R23, R264): which kinds have been recorded. -/
structure FaultSet where
  clockOff : Bool
  inReset : Bool
  illegalModeCommand : Bool
  illegalTransition : Bool
  busyWrite : Bool
  userModeOff : Bool
  settleViolation : Bool
  resetHoldViolation : Bool
  writeReadOnly : Bool
  badWidth : Bool
  variantAbsent : Bool
  deriving DecidableEq, Repr

/-- The refusal kinds REF1 to REF5 (R265). -/
inductive RefusalKind where
  | reservedEncoding
  | transNumUnsupported
  | sbpiCommandUnsupported
  | unmappedOffset
  | concurrentHost
  deriving DecidableEq, Repr

/-- The line of a poll the host comes to next (R190). -/
inductive PollLine where
  /-- The read of the status register. -/
  | read
  /-- The write of the mask after a match. -/
  | acknowledge
  /-- The delay of one interval after a read that did not match. -/
  | delay
  deriving DecidableEq, Repr

/-- Where the host stands inside a `waitfor` (R44, R190): the status register, the host variable
and the mask it names, the count `i` of delays made, and the line that comes next. -/
structure Poll where
  status : Reg
  dst : Var
  mask : Word
  delays : Nat
  line : PollLine
  deriving DecidableEq, Repr

/-- Byte memory: the listed addresses and their bytes, addresses strictly rising. An unlisted
address holds no byte. -/
abbrev Memory := List Host.Cell

/-- Where free values come from, the MODEL's own state: the draws still scripted and the number
of draws made past the script (R12 `draw`); the scheduling choices still scripted and the number
made past that script (R9, R73). Log entries 3 and 5. -/
structure Env where
  script : List Word
  drawn : Nat
  turns : List Agent
  turned : Nat
  deriving DecidableEq, Repr

/-- The value the next draw gives (R12). -/
def Env.fresh (e : Env) : Word :=
  match e.script with
  | x :: _ => x
  | [] => Config.freeWord e.drawn

/-- After one draw (R12: each evaluation is fresh). -/
def Env.spend (e : Env) : Env :=
  match e.script with
  | _ :: xs => { e with script := xs }
  | [] => { e with drawn := e.drawn + 1 }

/-- The agent the next scheduling choice gives (R9, R73). -/
def Env.agent (e : Env) : Agent :=
  match e.turns with
  | g :: _ => g
  | [] => Config.freeAgent e.turned

/-- After one scheduling choice. -/
def Env.spendTurn (e : Env) : Env :=
  match e.turns with
  | _ :: gs => { e with turns := gs }
  | [] => { e with turned := e.turned + 1 }

/-- No draw and no scheduling choice scripted: every one is a free value. -/
def Env.free : Env := { script := [], drawn := 0, turns := [], turned := 0 }

/-- A draw of `{DS, SB, ACT}` (R30). -/
def modeOfDraw (x : Word) : Mode :=
  match x.toNat % 3 with
  | 0 => .DS
  | 1 => .SB
  | _ => .ACT

/-- A draw of one bit, of `{ok, fail}` or of a truth value (R12): ok and true are 1. -/
def boolOfDraw (x : Word) : Bool := x.getLsbD 0

/-- Reset value of a defined status bit (R26, R36). -/
def StatusReset.bitValue : StatusReset → Option Bool
  | .zero => some false
  | .unknown => none

/-- IRQ_ST after reset (R26). -/
def IrqSt.resetValue (r : StatusReset) : IrqSt :=
  { rdm := StatusReset.bitValue r, dp2stb := StatusReset.bitValue r,
    stb2act := StatusReset.bitValue r, act2stb := StatusReset.bitValue r,
    stb2dp := StatusReset.bitValue r }

/-- INT_STATUS after reset (R36). -/
def IntStatus.resetValue (r : StatusReset) : IntStatus :=
  { sbpiDone := StatusReset.bitValue r, userDone := StatusReset.bitValue r }

/-- The variant-B register fields after reset (R291). -/
def RegsB.resetValue (r : StatusReset) : RegsB :=
  { transNum := none, accessAddr := none, rdData := none, irqSt := IrqSt.resetValue r }

/-- The variant-B controller after reset; `x` is the draw of the mode (R291). -/
def CtlB.resetValue (x : Word) : CtlB := { mode := modeOfDraw x, pend := none }

/-- The variant-A register fields after reset (R291). -/
def RegsA.resetValue (r : StatusReset) : RegsA :=
  { dap := none, cmdValid := none, cmd0 := none, cmd1 := none,
    intStatus := IntStatus.resetValue r, useUser := false, uaddr := none, q := none }

/-- The variant-A controller after reset; `x` is the draw of the ECC state (R291). -/
def CtlA.resetValue (x : Word) : CtlA :=
  { eccEn := boolOfDraw x, pend := none, userOnAt := none }

/-- The gate at launch: every clock disabled, the reset not asserted (R46, R292). -/
def Gate.launchValue : Gate :=
  { func := false, bus := false, phy := false, rst := false, rstAt := none }

/-- No fault recorded (R23). -/
def FaultSet.none : FaultSet :=
  { clockOff := false, inReset := false, illegalModeCommand := false,
    illegalTransition := false, busyWrite := false, userModeOff := false,
    settleViolation := false, resetHoldViolation := false, writeReadOnly := false,
    badWidth := false, variantAbsent := false }

/-- DESIGN CHOICE, unsafe for State.reset alone (log entry 1): the configuration State.reset
carries, spec/95_test_vectors.md's `Cfg_T` with variant B, the candidate offsets of
spec/93_implementation_defined.md G2 and G3, and base 0. -/
def launchCfg : Cfg :=
  { variant := .B, base := 0,
    off := #v[0x2000, 0x2008, 0x200C, 0x2010, 0x2020,
      0x0020, 0x0024, 0x1000, 0x1004, 0x0304, 0x0100, 0x0104, 0x0108, 0x0124],
    encDS := 0, encSB := 1, encACT := 2, encRA := 3,
    bitRdm := 0, bitDp2stb := 8, bitStb2act := 7, bitAct2stb := 9, bitStb2dp := 10,
    bitSbpiDone := 1, bitUserDone := 2, transOne := 1, accessAddrW := 16, userAddrW := 16,
    dapLo := 8, dapW := 8, sbpiEnBit := 0, useUserBit := 0, fsmEnBit := 0, dapEcc := 0x02,
    cmdWrf := 0xC0, regEcc := 0x3A, eccDisable := 0x09, eccEnable := 0x00,
    cmdValidValue := 0x0001, sizeA := 0x40, sizeB := 0x80, otpWords := 256, otpBytes := 0x40,
    statusReset := .zero, completionBound := none }

end Sys2Proof.Machine
end

