-- ==== Sys2Proof/Machine/State.lean ====
section
/-! DEFINITION. The machine state: the record of spec/10_state.md R20 and R49, with the launch
parameters (R8, R20) and the model's own supply of free values held beside it as plain data. -/

namespace Sys2Proof.Machine

/-- Why a step has no next state. -/
inductive Fault where
  /-- Raised by `step`: the host program has no operation left, so the run has ended (R80, R264).
  Safe: nothing is claimed of a state after the end of a run. -/
  | runEnded
  deriving DecidableEq, Repr

/-- Why an operation has no meaning. The refusals of the spec (R265) are not these: they are
sticky marks of State and the machine goes on. -/
inductive Refusal where
  /-- Raised by `exec` for an operation that has no meaning yet. Safe: nothing is claimed of it.
  No arm of `exec` raises it. -/
  | notModelled (mnemonic : String)
  deriving DecidableEq, Repr

/-- The model state (R20, R49). -/
structure State where
  /-- The configuration record (R7), a launch parameter no step changes. Log entry 1. -/
  cfg : Cfg
  /-- The listed variant-A fuse bytes (R8, R42), a launch parameter no step changes. -/
  otpA : Memory
  /-- The listed variant-B fuse bytes, lane `j` of word `w` at `4 * w + j` (R8, R42, R63), a
  launch parameter no step changes. -/
  otpB : Memory
  /-- The power/resource gate (R46). -/
  gate : Gate
  /-- The delay clock (R22). -/
  now : Nat
  /-- The sticky fault set (R23). -/
  faults : FaultSet
  /-- The sticky refusal mark (R23). -/
  refused : Option RefusalKind
  /-- Variant-B register fields (R24 to R29). -/
  regsB : RegsB
  /-- Variant-B controller (R30). -/
  ctlB : CtlB
  /-- Variant-A register fields (R31 to R40). -/
  regsA : RegsA
  /-- Variant-A controller (R41). -/
  ctlA : CtlA
  /-- Status reads since the pending operation was issued, what `COMPLETION_BOUND` counts (R135).
  The MODEL's own. Log entry 6. -/
  statusReads : Nat
  /-- The host variables; none holds no value (R43, R49). -/
  v : Vector (Option Word) 16
  /-- The host output buffer (R43, R49). -/
  out : Memory
  /-- The scratch buffer of variant B (R43, R233). -/
  scratch : List Byte
  /-- The words of the host program not yet executed (R44, R80). Log entry 16. -/
  program : List Word
  /-- The poll the host is inside of, between two lines of a `waitfor` (R44, R190); none between
  two operations. -/
  poll : Option Poll
  /-- The supply of free values. The MODEL's own. Log entries 3 and 5. -/
  env : Env
  deriving DecidableEq, Repr

/-- The launch state (R292) of a device with configuration `cfg` and fuse contents `otpA`,
`otpB`, given the programs of its hosts. The mode and the ECC state are one draw. Exactly one
host is admitted: a launch with more is refused `ConcurrentHost` (R77, R265), and that it runs none
of them is log entry 22. -/
def State.launch (cfg : Cfg) (otpA otpB : Memory) (env : Env) (hosts : List (List Word)) : State :=
  { cfg := cfg, otpA := otpA, otpB := otpB, gate := Gate.launchValue, now := 0,
    faults := FaultSet.none,
    refused := if hosts.length ≤ 1 then none else some .concurrentHost,
    regsB := RegsB.resetValue cfg.statusReset, ctlB := CtlB.resetValue env.fresh,
    regsA := RegsA.resetValue cfg.statusReset, ctlA := CtlA.resetValue env.fresh,
    statusReads := 0, v := Vector.replicate 16 none, out := [], scratch := [],
    program := if hosts.length ≤ 1 then hosts.headD [] else [], poll := none, env := env.spend }

/-- The machine right after launch (R292), with no program loaded, nothing listed in its
memories, every draw free, and the configuration of log entry 1. -/
def State.reset : State := State.launch launchCfg [] [] Env.free []

end Sys2Proof.Machine
end

