-- ==== Sys2Proof/Machine/Operands.lean ====
section
/-! DEFINITION. Operand forms: bit fields (spec/00_scope.md R11), the write-masked layout
(spec/30_encoding.md R92, spec/41_register_interface.md R102), the assembly of a read value from
known bits and a fresh draw (R103), and the named data words (R93). -/

namespace Sys2Proof

/-- `BIT(n)` (R11). -/
def bit (n : Nat) : Word := 1#32 <<< n

/-- The `w` low bits set, in a word. -/
def ones (w : Nat) : Word := BitVec.ofNat 32 (2 ^ w - 1)

/-- The `w` low bits set, in a low half. -/
def onesHalf (w : Nat) : Half := BitVec.ofNat 16 (2 ^ w - 1)

/-- `BIT(n)` where `p` holds, else 0. -/
def bitIf (p : Bool) (n : Nat) : Word := if p then bit n else 0

/-- A read value: the bits `mask` selects come from `value`, every other bit from the draw `x`
(R103). -/
def assemble (mask value x : Word) : Word := (value &&& mask) ||| (x &&& ~~~mask)

/-- The data of field `[lo+w-1:lo]` in a write-masked word (R92). -/
def maskedData (lo w : Nat) (d : Word) : Half := (d >>> lo).setWidth 16 &&& onesHalf w

/-- The enables of field `[lo+w-1:lo]` in a write-masked word, `D[16+lo+w-1:16+lo]` (R92). -/
def maskedEnable (lo w : Nat) (d : Word) : Half := (d >>> (16 + lo)).setWidth 16 &&& onesHalf w

/-- The masked update of a known field value (R102): an enabled bit takes the data, the others
stay. -/
def maskedBits (lo w : Nat) (old : Half) (d : Word) : Half :=
  (maskedData lo w d &&& maskedEnable lo w d) ||| (old &&& ~~~(maskedEnable lo w d))

/-- The masked update of a stored field (R102). With no bit enabled the field is as it was. A
field that holds none gives its kept bits from the draw `x`. Log entry 12. -/
def maskedField (lo w : Nat) (old : Option Half) (d x : Word) : Option Half :=
  if maskedEnable lo w d = 0 then old
  else some (maskedBits lo w (old.getD (x.setWidth 16 &&& onesHalf w)) d)

/-- The masked update of a stored field keeps some, but not all, bits of an unknown field: the
one case in which it draws. Log entry 12. -/
def maskedDraws (lo w : Nat) (old : Option Half) (d : Word) : Bool :=
  old.isNone && decide (maskedEnable lo w d ≠ 0) && decide (maskedEnable lo w d ≠ onesHalf w)

/-- `M_RDM` (R93). -/
def Cfg.mRdm (c : Cfg) : Word := bit c.bitRdm

/-- `M_DP2STB` (R93). -/
def Cfg.mDp2stb (c : Cfg) : Word := bit c.bitDp2stb

/-- `M_STB2ACT` (R93). -/
def Cfg.mStb2act (c : Cfg) : Word := bit c.bitStb2act

/-- `M_ACT2STB` (R93). -/
def Cfg.mAct2stb (c : Cfg) : Word := bit c.bitAct2stb

/-- `M_STB2DP` (R93). -/
def Cfg.mStb2dp (c : Cfg) : Word := bit c.bitStb2dp

/-- `M_SBPI_DONE` (R93). -/
def Cfg.mSbpiDone (c : Cfg) : Word := bit c.bitSbpiDone

/-- `M_USER_DONE` (R93). -/
def Cfg.mUserDone (c : Cfg) : Word := bit c.bitUserDone

/-- `SBPI_SEL_WORD` (R93). -/
def Cfg.sbpiSelWord (c : Cfg) : Word :=
  (ones c.dapW <<< c.dapLo) <<< 16 ||| (c.dapEcc.setWidth 32 <<< c.dapLo)

/-- `SBPI_CMDV_WORD` (R93). -/
def Cfg.sbpiCmdvWord (c : Cfg) : Word := 0xFFFF0000#32 ||| c.cmdValidValue.setWidth 32

/-- `SBPI_CMD0_WORD` (R93). -/
def Cfg.sbpiCmd0Word (c : Cfg) : Word := (c.cmdWrf ||| c.regEcc).setWidth 32

/-- `SBPI_CMD1_OFF` (R93). -/
def Cfg.sbpiCmd1Off (c : Cfg) : Word := c.eccDisable.setWidth 32

/-- `SBPI_CMD1_ON` (R93). -/
def Cfg.sbpiCmd1On (c : Cfg) : Word := c.eccEnable.setWidth 32

/-- `SBPI_GO_WORD` (R93). -/
def Cfg.sbpiGoWord (c : Cfg) : Word := bit (16 + c.sbpiEnBit.val) ||| bit c.sbpiEnBit

/-- `USER_ON_WORD` (R93). -/
def Cfg.userOnWord (c : Cfg) : Word := bit (16 + c.useUserBit.val) ||| bit c.useUserBit

/-- `USER_OFF_WORD` (R93). -/
def Cfg.userOffWord (c : Cfg) : Word := bit (16 + c.useUserBit.val)

/-- `ADDR_EN_MASK` (R93). -/
def Cfg.addrEnMask (c : Cfg) : Word := ones c.userAddrW <<< 16

/-- `FSM_GO_WORD` (R93). -/
def Cfg.fsmGoWord (c : Cfg) : Word := bit (16 + c.fsmEnBit.val) ||| bit c.fsmEnBit

end Sys2Proof
end

