-- ==== Sys2Proof/Machine/Flags.lean ====
section
/-! DEFINITION. The block's flags: the status bits of IRQ_ST and INT_STATUS (spec/10_state.md
R26, R36, R45). The controller sets a bit, a host write of 1 clears it, a read shows it. -/

namespace Sys2Proof

/-- The position of an IRQ_ST bit (R7, R26). -/
def Cfg.irqPos (c : Cfg) : Machine.IrqBit → Nat
  | .rdm => c.bitRdm
  | .dp2stb => c.bitDp2stb
  | .stb2act => c.bitStb2act
  | .act2stb => c.bitAct2stb
  | .stb2dp => c.bitStb2dp

/-- The position of an INT_STATUS bit (R7, R36). -/
def Cfg.intPos (c : Cfg) : Machine.IntBit → Nat
  | .sbpiDone => c.bitSbpiDone
  | .userDone => c.bitUserDone

end Sys2Proof

namespace Sys2Proof.Machine

/-- The held value of an IRQ_ST bit. -/
def IrqSt.get (s : IrqSt) : IrqBit → Option Bool
  | .rdm => s.rdm
  | .dp2stb => s.dp2stb
  | .stb2act => s.stb2act
  | .act2stb => s.act2stb
  | .stb2dp => s.stb2dp

/-- The held value of an INT_STATUS bit. -/
def IntStatus.get (s : IntStatus) : IntBit → Option Bool
  | .sbpiDone => s.sbpiDone
  | .userDone => s.userDone

/-- A completion sets its IRQ_ST bit (R133, R134). -/
def IrqSt.raise (s : IrqSt) : IrqBit → IrqSt
  | .rdm => { s with rdm := some true }
  | .dp2stb => { s with dp2stb := some true }
  | .stb2act => { s with stb2act := some true }
  | .act2stb => { s with act2stb := some true }
  | .stb2dp => { s with stb2dp := some true }

/-- A completion sets its INT_STATUS bit (R161, R165). -/
def IntStatus.raise (s : IntStatus) : IntBit → IntStatus
  | .sbpiDone => { s with sbpiDone := some true }
  | .userDone => { s with userDone := some true }

/-- A status bit at position `n` after a write of `d`: 0 if written 1, else as it was (R104,
R119). -/
def acknowledge (d : Word) (n : Nat) (old : Option Bool) : Option Bool :=
  if d.getLsbD n then some false else old

/-- IRQ_ST after a write of `d` (R104). -/
def IrqSt.acknowledge (c : Cfg) (s : IrqSt) (d : Word) : IrqSt :=
  { rdm := Machine.acknowledge d c.bitRdm s.rdm,
    dp2stb := Machine.acknowledge d c.bitDp2stb s.dp2stb,
    stb2act := Machine.acknowledge d c.bitStb2act s.stb2act,
    act2stb := Machine.acknowledge d c.bitAct2stb s.act2stb,
    stb2dp := Machine.acknowledge d c.bitStb2dp s.stb2dp }

/-- INT_STATUS after a write of `d` (R119). -/
def IntStatus.acknowledge (c : Cfg) (s : IntStatus) (d : Word) : IntStatus :=
  { sbpiDone := Machine.acknowledge d c.bitSbpiDone s.sbpiDone,
    userDone := Machine.acknowledge d c.bitUserDone s.userDone }

/-- The positions of the IRQ_ST bits whose value is known. -/
def IrqSt.known (c : Cfg) (s : IrqSt) : Word :=
  bitIf s.rdm.isSome c.bitRdm ||| bitIf s.dp2stb.isSome c.bitDp2stb |||
    bitIf s.stb2act.isSome c.bitStb2act ||| bitIf s.act2stb.isSome c.bitAct2stb |||
    bitIf s.stb2dp.isSome c.bitStb2dp

/-- The IRQ_ST bits known to be set, at their positions. -/
def IrqSt.bits (c : Cfg) (s : IrqSt) : Word :=
  bitIf (s.rdm == some true) c.bitRdm ||| bitIf (s.dp2stb == some true) c.bitDp2stb |||
    bitIf (s.stb2act == some true) c.bitStb2act ||| bitIf (s.act2stb == some true) c.bitAct2stb |||
    bitIf (s.stb2dp == some true) c.bitStb2dp

/-- The positions of the INT_STATUS bits whose value is known. -/
def IntStatus.known (c : Cfg) (s : IntStatus) : Word :=
  bitIf s.sbpiDone.isSome c.bitSbpiDone ||| bitIf s.userDone.isSome c.bitUserDone

/-- The INT_STATUS bits known to be set, at their positions. -/
def IntStatus.bits (c : Cfg) (s : IntStatus) : Word :=
  bitIf (s.sbpiDone == some true) c.bitSbpiDone ||| bitIf (s.userDone == some true) c.bitUserDone

/-- What a read of IRQ_ST gives with the fresh draw `x`: known bits as held, every other bit
from the draw (R105). -/
def IrqSt.readValue (c : Cfg) (s : IrqSt) (x : Word) : Word := assemble (s.known c) (s.bits c) x

/-- What a read of INT_STATUS gives with the fresh draw `x` (R120). -/
def IntStatus.readValue (c : Cfg) (s : IntStatus) (x : Word) : Word :=
  assemble (s.known c) (s.bits c) x

end Sys2Proof.Machine
end

