-- ==== Sys2Proof/Machine/Ops.lean ====
section
/-! DEFINITION. The named operations over the state: byte memories, host variables, the sticky
marks (spec/60_exceptions.md R263 to R267), draws (spec/00_scope.md R12), the access guard
(spec/41_register_interface.md R100), the controller reset (spec/70_reset_and_hazards.md R290)
and the choice of the agent that moves (R9, R73). The block takes no exception and returns from
none (R260): recording a fault or a refusal is all an operation in error does. -/

namespace Sys2Proof.Machine

/-- The byte a memory lists at `a`; none where it lists nothing. -/
def Memory.read : Memory → Nat → Option Byte
  | [], _ => none
  | (k, x) :: m, a => if k = a then some x else Memory.read m a

/-- Write one byte, keeping the addresses strictly rising. -/
def Memory.write : Memory → Nat → Byte → Memory
  | [], a, x => [(a, x)]
  | (k, y) :: m, a, x =>
    if a < k then (a, x) :: (k, y) :: m
    else if a = k then (a, x) :: m
    else (k, y) :: Memory.write m a x

/-- Every listed address is at least `lo`, and the addresses rise strictly. -/
def Memory.risesFrom : Nat → Memory → Bool
  | _, [] => true
  | lo, (k, _) :: m => decide (lo ≤ k) && Memory.risesFrom (k + 1) m

/-- The canonical form of a memory: addresses strictly rising. No entry can equal what an
unlisted address reads as, since that is no byte. -/
def Memory.wf (m : Memory) : Bool := Memory.risesFrom 0 m

/-- Write bytes at consecutive addresses from `a`. -/
def Memory.writeList : Memory → Nat → List Byte → Memory
  | m, _, [] => m
  | m, a, x :: xs => Memory.writeList (Memory.write m a x) (a + 1) xs

/-- The kind `k` is recorded (R23). -/
def FaultSet.has (f : FaultSet) : FaultKind → Bool
  | .clockOff => f.clockOff
  | .inReset => f.inReset
  | .illegalModeCommand => f.illegalModeCommand
  | .illegalTransition => f.illegalTransition
  | .busyWrite => f.busyWrite
  | .userModeOff => f.userModeOff
  | .settleViolation => f.settleViolation
  | .resetHoldViolation => f.resetHoldViolation
  | .writeReadOnly => f.writeReadOnly
  | .badWidth => f.badWidth
  | .variantAbsent => f.variantAbsent

/-- Record the kind `k` (R264): no step removes one. -/
def FaultSet.add (f : FaultSet) : FaultKind → FaultSet
  | .clockOff => { f with clockOff := true }
  | .inReset => { f with inReset := true }
  | .illegalModeCommand => { f with illegalModeCommand := true }
  | .illegalTransition => { f with illegalTransition := true }
  | .busyWrite => { f with busyWrite := true }
  | .userModeOff => { f with userModeOff := true }
  | .settleViolation => { f with settleViolation := true }
  | .resetHoldViolation => { f with resetHoldViolation := true }
  | .writeReadOnly => { f with writeReadOnly := true }
  | .badWidth => { f with badWidth := true }
  | .variantAbsent => { f with variantAbsent := true }

/-- Record the kind `k` where `p` holds. -/
def FaultSet.addIf (f : FaultSet) (p : Bool) (k : FaultKind) : FaultSet :=
  if p then f.add k else f

/-- `raise Fault(k)` (R12, R264). -/
def State.raise (s : State) (k : FaultKind) : State := { s with faults := s.faults.add k }

/-- `refuse(k)` (R12, R265): only the first refusal is kept. -/
def State.refuse (s : State) (k : RefusalKind) : State :=
  { s with refused := if s.refused.isSome then s.refused else some k }

/-- The value the next draw gives (R12). -/
def State.fresh (s : State) : Word := s.env.fresh

/-- After one draw (R12). -/
def State.spend (s : State) : State := { s with env := s.env.spend }

/-- `v[n] <- x`; none is no value (R12, R43). -/
def State.setVar (s : State) (n : Var) (x : Option Word) : State :=
  { s with v := s.v.set n x }

/-- The value `v[n]` holds (R43). -/
def State.getVar (s : State) (n : Var) : Option Word := s.v[n]

/-- The word a service answer leaves in a host variable: 1 on ok, 0 on fail (R83). -/
def answerWord (ok : Bool) : Word := if ok then 1 else 0

end Sys2Proof.Machine

namespace Sys2Proof

/-- The variant a register belongs to (R24, R31). -/
def Reg.variant : Reg → Variant
  | .modeCtrl | .irqSt | .accessAddr | .rdData | .reprRdTransNum => .B
  | .sbpiCtrl | .sbpiCmdValidPre | .sbpiCmd0 | .sbpiCmd1 | .intStatus | .userCtrl | .userAddr
  | .userEnable | .userQ => .A

/-- The register is the status register of its variant (R26, R36). -/
def Reg.isStatus : Reg → Bool
  | .irqSt | .intStatus => true
  | _ => false

end Sys2Proof

namespace Sys2Proof.Machine

/-- All three clock domains are enabled (R46). -/
def Gate.clocksOn (g : Gate) : Bool := g.func && g.bus && g.phy

/-- The register interface exists: all three clocks enabled and the reset not asserted (R46). -/
def Gate.isOpen (g : Gate) : Bool := g.clocksOn && !g.rst

/-- The clock enable of a domain (R46). -/
def Gate.clk (g : Gate) : Domain → Bool
  | .func => g.func
  | .bus => g.bus
  | .phy => g.phy

/-- `gate.clk[d] <- on`. -/
def Gate.setClk (g : Gate) (d : Domain) (on : Bool) : Gate :=
  match d with
  | .func => { g with func := on }
  | .bus => { g with bus := on }
  | .phy => { g with phy := on }

/-- `Guard(r)` answers true (R100). -/
def guardOk (r : Reg) (s : State) : Bool :=
  s.gate.isOpen && decide (r.variant = s.cfg.variant)

/-- The faults a failed `Guard(r)` records, every one that applies (R100, R267). -/
def guardFaults (r : Reg) (s : State) : State :=
  { s with
    faults := ((s.faults.addIf (!s.gate.clocksOn) .clockOff).addIf s.gate.rst .inReset).addIf
      (decide (r.variant ≠ s.cfg.variant)) .variantAbsent }

/-- An access to `r`: its effect where the guard answers true, else the guard's faults and
nothing more (R100). -/
def access (r : Reg) (effect : State → State) (s : State) : State :=
  if guardOk r s then effect s else guardFaults r s

/-- An operation of the live variant's controller is pending (R30, R41). -/
def State.pending (s : State) : Bool :=
  match s.cfg.variant with
  | .A => s.ctlA.pend.isSome
  | .B => s.ctlB.pend.isSome

/-- A read-access is pending (R106, R108, R110). -/
def State.readPending (s : State) : Bool :=
  match s.ctlB.pend with
  | some (.read _) => true
  | _ => false

/-- An SBPI command is pending (R113, R115, R117). -/
def State.sbpiPending (s : State) : Bool :=
  match s.ctlA.pend with
  | some (.sbpi _ _ _) => true
  | _ => false

/-- A user read is pending (R122, R125, R163). -/
def State.userPending (s : State) : Bool :=
  match s.ctlA.pend with
  | some (.user _) => true
  | _ => false

/-- The variant-B controller accepts an operation (R130); the count of R135 starts. -/
def State.issueB (s : State) (p : PendB) : State :=
  { s with ctlB := { s.ctlB with pend := some p }, statusReads := 0 }

/-- The variant-A controller accepts an operation (R160, R164); the count of R135 starts. -/
def State.issueA (s : State) (p : PendA) : State :=
  { s with ctlA := { s.ctlA with pend := some p }, statusReads := 0 }

/-- `ControllerReset()` (R290, R291): the live variant's register fields and controller take
their reset values, the mode or the ECC state from one draw, and a pending operation is lost. The
other variant's fields are never written (R49). Log entry 18. -/
def State.controllerReset (s : State) : State :=
  match s.cfg.variant with
  | .B =>
    { s.spend with
      regsB := RegsB.resetValue s.cfg.statusReset, ctlB := CtlB.resetValue s.fresh,
      statusReads := 0 }
  | .A =>
    { s.spend with
      regsA := RegsA.resetValue s.cfg.statusReset, ctlA := CtlA.resetValue s.fresh,
      statusReads := 0 }

/-- A variant-A fuse byte (R42): the listed byte, else the chip's. Log entry 2. -/
def State.fuseA (s : State) (a : Nat) : Byte := (s.otpA.read a).getD (Config.fuseA a)

/-- Lane `j` of variant-B fuse word `w` (R42, R63): the listed byte, else the chip's. -/
def State.fuseLaneB (s : State) (w j : Nat) : Byte :=
  (s.otpB.read (wordBytes * w + j)).getD (Config.fuseB (wordBytes * w + j))

/-- `otpB(w)`, lane 0 least significant (R42, R63). -/
def State.fuseB (s : State) (w : Nat) : Word :=
  s.fuseLaneB w 3 ++ s.fuseLaneB w 2 ++ s.fuseLaneB w 1 ++ s.fuseLaneB w 0

/-- A controller completion step is enabled: an operation is pending and the gate is open (R133,
R134, R161, R165; frozen otherwise, R136). -/
def State.canComplete (s : State) : Bool := s.gate.isOpen && s.pending

/-- A read of `r` is a status read: `r` is the status register of the live variant (R26, R36,
R90, R135). -/
def State.statusRead (s : State) (r : Reg) : Bool :=
  r.isStatus && decide (r.variant = s.cfg.variant)

/-- `COMPLETION_BOUND` leaves no further status read before the completion (R135): the next
status read would be the bound's. Log entry 6. -/
def State.boundReached (s : State) : Bool :=
  match s.cfg.completionBound with
  | none => false
  | some k => decide (k ≤ s.statusReads + 1)

/-- The controller takes the next step (R9, R73): only where its completion is enabled, always
where the host's next step is a status read (`status`) that the bound forbids before it, and
otherwise where the schedule says so. Log entries 5 and 6. -/
def State.controllerMoves (s : State) (status : Bool) : Bool :=
  s.canComplete && ((status && s.boundReached) || decide (s.env.agent = .controller))

/-- After the choice of the agent: a scheduling choice has been used where the schedule was
asked. -/
def State.turnTaken (s : State) (status : Bool) : State :=
  if s.canComplete && !(status && s.boundReached) then { s with env := s.env.spendTurn } else s

/-- Count a status read made with the guard passed while an operation is pending (R135). -/
def State.countStatusRead (s : State) (r : Reg) : State :=
  if r.isStatus && s.pending then { s with statusReads := s.statusReads + 1 } else s

end Sys2Proof.Machine
end

