-- ==== Sys2Proof/Machine/Controller.lean ====
section
/-! DEFINITION. The controller agent's completion steps (spec/42_power_mode_fsm.md R132 to R136,
spec/43_user_mode_fsm.md R161, R162, R165, R166). -/

namespace Sys2Proof.Machine

/-- The mode at completion of a pending operation (R132). -/
def PendB.target : PendB → Mode
  | .dpToStb => .SB
  | .stbToAct => .ACT
  | .actToStb => .SB
  | .stbToDp => .DS
  | .read _ => .ACT

/-- The mode a pending operation is issued from (R132). -/
def PendB.source : PendB → Mode
  | .dpToStb => .DS
  | .stbToAct => .SB
  | .actToStb => .ACT
  | .stbToDp => .SB
  | .read _ => .ACT

/-- The status bit the completion of a pending operation sets (R132). -/
def PendB.statusBit : PendB → IrqBit
  | .dpToStb => .dp2stb
  | .stbToAct => .stb2act
  | .actToStb => .act2stb
  | .stbToDp => .stb2dp
  | .read _ => .rdm

/-- Completion of a mode transition, one atomic step (R133). -/
def completeTransition (t : PendB) (s : State) : State :=
  { s with
    ctlB := { mode := t.target, pend := none },
    regsB := { s.regsB with irqSt := s.regsB.irqSt.raise t.statusBit },
    statusReads := 0 }

/-- Word `w` is one the read path gives: inside the array and past the secure region (R70, R71,
R134). -/
def readableWord (c : Cfg) (w : Word) : Bool :=
  decide (secureWordOffset ≤ w.toNat) && decide (w.toNat < c.otpWords)

/-- Completion of a read-access, one atomic step (R134): the mode stays ACT, and RD_DATA is the
fuse word, or a draw where `w` is not readable. -/
def completeRead (w : Word) (s : State) : State :=
  let t := if readableWord s.cfg w then s else s.spend
  { t with
    ctlB := { s.ctlB with pend := none },
    regsB := { s.regsB with
      rdData := some (if readableWord s.cfg w then s.fuseB w.toNat else s.fresh),
      irqSt := s.regsB.irqSt.raise .rdm },
    statusReads := 0 }

/-- The completion step of variant B: a read-access or a mode transition (R133, R134). -/
def completeB (s : State) : State :=
  match s.ctlB.pend with
  | none => s
  | some (.read w) => completeRead w s
  | some .dpToStb => completeTransition .dpToStb s
  | some .stbToAct => completeTransition .stbToAct s
  | some .actToStb => completeTransition .actToStb s
  | some .stbToDp => completeTransition .stbToDp s

/-- `SbpiEffect(d, c0, c1)` on the ECC state (R162): the disable payload turns it off, the
enable payload turns it on. -/
def sbpiEffect (c : Cfg) (c1 : Word) (eccEn : Bool) : Bool :=
  if c1 = c.sbpiCmd1Off then false else if c1 = c.sbpiCmd1On then true else eccEn

/-- The status bit the completion of a pending operation sets (R161, R165). -/
def PendA.statusBit : PendA → IntBit
  | .sbpi _ _ _ => .sbpiDone
  | .user _ => .userDone

/-- Completion of an SBPI command, one atomic step (R161). -/
def completeSbpi (c1 : Word) (s : State) : State :=
  { s with
    ctlA := { s.ctlA with eccEn := sbpiEffect s.cfg c1 s.ctlA.eccEn, pend := none },
    regsA := { s.regsA with intStatus := s.regsA.intStatus.raise .sbpiDone },
    statusReads := 0 }

/-- A user read of byte `a` gives the fuse byte: ECC off and inside the array (R165, R166). -/
def readableByte (s : State) (a : Half) : Bool :=
  !s.ctlA.eccEn && decide (a.toNat < s.cfg.otpBytes)

/-- Completion of a user read, one atomic step (R165): the fuse byte, or a draw with ECC on or
past the array. -/
def completeUser (a : Half) (s : State) : State :=
  let t := if readableByte s a then s else s.spend
  { t with
    ctlA := { s.ctlA with pend := none },
    regsA := { s.regsA with
      q := some (if readableByte s a then s.fuseA a.toNat else s.fresh.setWidth 8),
      intStatus := s.regsA.intStatus.raise .userDone },
    statusReads := 0 }

/-- The completion step of variant A (R161, R165). -/
def completeA (s : State) : State :=
  match s.ctlA.pend with
  | none => s
  | some (.sbpi _ _ c1) => completeSbpi c1 s
  | some (.user a) => completeUser a s

/-- The controller's step: the completion of the live variant's pending operation (R9). It is
taken only where `State.canComplete` holds (R136). -/
def complete (s : State) : State :=
  match s.cfg.variant with
  | .A => completeA s
  | .B => completeB s

/-- What happens between two steps of the host (R73): the controller completes the pending
operation, or does not, as the schedule says. One operation at most is pending, so at most one
completion can happen there. `status` says the host's next step is a status read (R135). -/
def interleave (status : Bool) (s : State) : State :=
  if s.controllerMoves status then complete (s.turnTaken status) else s.turnTaken status

end Sys2Proof.Machine
end

