-- ==== Sys2Proof/Machine/GateOps.lean ====
section
/-! DEFINITION. The system operations (spec/45_resource_gate.md R200 to R204): the clock and
reset service calls and the delay. -/

namespace Sys2Proof.Machine

/-- The clock or reset service's answer to the next call: a draw (R200, R202, R203). -/
def serviceOk (s : State) : Bool := boolOfDraw s.fresh

/-- `ClkEnable(d)`, its effect on the block (R200). -/
def clkEnable (d : Domain) (s : State) : State :=
  if serviceOk s then { s.spend with gate := s.gate.setClk d true } else s.spend

/-- `ClkDisable(d)` (R201): infallible. -/
def clkDisable (d : Domain) (s : State) : State := { s with gate := s.gate.setClk d false }

/-- `RstAssert()`, its effect on the block (R202): the time of the first assertion is kept. -/
def rstAssert (s : State) : State :=
  if serviceOk s then
    { s.spend with
      gate := { s.gate with
        rst := true, rstAt := if s.gate.rst then s.gate.rstAt else some s.now } }
  else s.spend

/-- The reset is asserted and has been held for fewer than `RESET_HOLD` time-units (R203, R301).
In a state no run reaches, an asserted reset with no time counts as too early. Log entry 14. -/
def holdViolated (s : State) : Bool :=
  s.gate.rst &&
    match s.gate.rstAt with
    | some t => decide (s.now - t < resetHold)
    | none => true

/-- `RstDeassert()`, its effect on the block (R203): a hold violation stops it (R267, vectors G7
and G8; log entry 11); on ok an asserted line resets the controller (R290). -/
def rstDeassert (s : State) : State :=
  if holdViolated s then s.raise .resetHoldViolation
  else if serviceOk s then
    let t := if s.gate.rst then s.spend.controllerReset else s.spend
    { t with gate := { s.gate with rst := false, rstAt := none } }
  else s.spend

/-- The answer `RstDeassert()` gives; none where a hold violation stopped it. -/
def rstDeassertAnswer (s : State) : Option Bool :=
  if holdViolated s then none else some (serviceOk s)

/-- `Delay(n)` (R13, R204). -/
def delayBy (n : Nat) (s : State) : State := { s with now := s.now + n }

/-- `clkon vN, d` (R200). -/
def execClkon (n : Var) (d : Domain) (s : State) : Host.Outcome State Fault Refusal :=
  .next ((clkEnable d s).setVar n (some (answerWord (serviceOk s))))

/-- `clkoff d` (R201). -/
def execClkoff (d : Domain) (s : State) : Host.Outcome State Fault Refusal :=
  .next (clkDisable d s)

/-- `rsta vN` (R202). -/
def execRsta (n : Var) (s : State) : Host.Outcome State Fault Refusal :=
  .next ((rstAssert s).setVar n (some (answerWord (serviceOk s))))

/-- `rstd vN` (R203): a hold violation leaves `v[N]` as it was. -/
def execRstd (n : Var) (s : State) : Host.Outcome State Fault Refusal :=
  .next
    (match rstDeassertAnswer s with
    | some ok => (rstDeassert s).setVar n (some (answerWord ok))
    | none => rstDeassert s)

/-- `delay n` (R204). -/
def execDelay (n : BitVec 16) (s : State) : Host.Outcome State Fault Refusal :=
  .next (delayBy n.toNat s)

end Sys2Proof.Machine
end

