-- ==== Sys2Proof/Machine/Reads.lean ====
section
/-! DEFINITION. The read operations `r32` and `r8` (spec/41_register_interface.md R103 to R128,
spec/42_power_mode_fsm.md R131). The value functions give what a read shows, from the fresh draw
`x` of that read; a read changes no state of the block (spec/20_memory.md R66). -/

namespace Sys2Proof.Machine

/-- `enc(mode)` (R131). -/
def Mode.enc (c : Cfg) : Mode → Word
  | .DS => c.encDS
  | .SB => c.encSB
  | .ACT => c.encACT

/-- A read of MODE_CTRL (R131): the code of the stable mode. -/
def modeCtrlValue (s : State) (_x : Word) : Word := Mode.enc s.cfg s.ctlB.mode

/-- A read of IRQ_ST (R105). -/
def irqStValue (s : State) (x : Word) : Word := IrqSt.readValue s.cfg s.regsB.irqSt x

/-- A read of ACCESS_ADDR (R107). -/
def accessAddrValue (s : State) (x : Word) : Word :=
  match s.regsB.accessAddr with
  | some a => assemble (ones s.cfg.accessAddrW) a x
  | none => x

/-- A read of RD_DATA (R110): a draw while a read-access is pending. -/
def rdDataValue (s : State) (x : Word) : Word :=
  if s.readPending then x else s.regsB.rdData.getD x

/-- A read of REPR_RD_TRANS_NUM (R109). -/
def transNumValue (s : State) (x : Word) : Word := s.regsB.transNum.getD x

/-- A read of SBPI_CTRL (R112): the DAP field, 0 at the enable pulse, draws elsewhere. -/
def sbpiCtrlValue (s : State) (x : Word) : Word :=
  let en := bit s.cfg.sbpiEnBit
  let shown :=
    match s.regsA.dap with
    | some a => assemble (ones s.cfg.dapW <<< s.cfg.dapLo) (a.setWidth 32 <<< s.cfg.dapLo) x
    | none => x
  shown &&& ~~~en

/-- A read of SBPI_CMD_VALID_PRE (R114): `{draw16, cnt}`. -/
def sbpiCmdValidPreValue (s : State) (x : Word) : Word :=
  match s.regsA.cmdValid with
  | some a => assemble (ones 16) (a.setWidth 32) x
  | none => x

/-- A read of SBPI_CMD0 (R116). -/
def sbpiCmd0Value (s : State) (x : Word) : Word := s.regsA.cmd0.getD x

/-- A read of SBPI_CMD1 (R118). -/
def sbpiCmd1Value (s : State) (x : Word) : Word := s.regsA.cmd1.getD x

/-- A read of INT_STATUS (R120). -/
def intStatusValue (s : State) (x : Word) : Word := IntStatus.readValue s.cfg s.regsA.intStatus x

/-- A read of USER_CTRL (R121). -/
def userCtrlValue (s : State) (x : Word) : Word :=
  assemble (bit s.cfg.useUserBit) (bitIf s.regsA.useUser s.cfg.useUserBit) x

/-- A read of USER_ADDR (R123). -/
def userAddrValue (s : State) (x : Word) : Word :=
  match s.regsA.uaddr with
  | some a => assemble (ones s.cfg.userAddrW) (a.setWidth 32) x
  | none => x

/-- A read of USER_ENABLE (R124): 0 at the FSM-enable pulse, draws elsewhere. -/
def userEnableValue (s : State) (x : Word) : Word := assemble (bit s.cfg.fsmEnBit) 0 x

/-- The byte a read of USER_Q shows (R125): a draw while a user read is pending. -/
def userQByte (s : State) (x : Word) : Byte :=
  if s.userPending then x.setWidth 8 else s.regsA.q.getD (x.setWidth 8)

/-- A 32-bit read of USER_Q (R126): the byte, with a draw above it. -/
def userQValue (s : State) (x : Word) : Word :=
  assemble (ones 8) ((userQByte s x).setWidth 32) x

/-- What a 32-bit read of a register shows, from the fresh draw `x` (R103, R129). -/
def regValue (r : Reg) (s : State) (x : Word) : Word :=
  match r with
  | .modeCtrl => modeCtrlValue s x
  | .irqSt => irqStValue s x
  | .accessAddr => accessAddrValue s x
  | .rdData => rdDataValue s x
  | .reprRdTransNum => transNumValue s x
  | .sbpiCtrl => sbpiCtrlValue s x
  | .sbpiCmdValidPre => sbpiCmdValidPreValue s x
  | .sbpiCmd0 => sbpiCmd0Value s x
  | .sbpiCmd1 => sbpiCmd1Value s x
  | .intStatus => intStatusValue s x
  | .userCtrl => userCtrlValue s x
  | .userAddr => userAddrValue s x
  | .userEnable => userEnableValue s x
  | .userQ => userQValue s x

/-- The value `RegRead32(r)` gives; none where its guard fails (R12, R100). -/
def readResult (r : Reg) (s : State) : Option Word :=
  if guardOk r s then some (regValue r s s.fresh) else none

/-- What a read leaves of the state: nothing of the block changes (R66). The model's own supply
of draws and count of status reads go on. -/
def readEffect (r : Reg) (s : State) : State := access r (fun s => s.spend.countStatusRead r) s

/-- `r32 vN, r`: the value into `v[N]`, or no value where the guard fails (R100). Log entries 4
and 10. -/
def readInto (r : Reg) (n : Var) (s : State) : State :=
  (readEffect r s).setVar n (readResult r s)

/-- The value `RegRead8(USER_Q)` gives, zero-extended; none where its guard fails (R125). -/
def readResult8 (s : State) : Option Word :=
  if guardOk .userQ s then some ((userQByte s s.fresh).setWidth 32) else none

/-- `r8 vN, USER_Q` (R125). -/
def read8Into (n : Var) (s : State) : State :=
  (readEffect .userQ s).setVar n (readResult8 s)

/-- `r8 vN, r` of any other register: `BadWidth`, and no value (R128). -/
def read8Other (r : Reg) (n : Var) (s : State) : State :=
  (access r (fun s => s.raise .badWidth) s).setVar n none

/-- `r32 vN, MODE_CTRL` (R131). -/
def execR32ModeCtrl (n : Var) (s : State) : Host.Outcome State Fault Refusal :=
  .next (readInto .modeCtrl n s)

/-- `r32 vN, IRQ_ST` (R105). -/
def execR32IrqSt (n : Var) (s : State) : Host.Outcome State Fault Refusal :=
  .next (readInto .irqSt n s)

/-- `r32 vN, ACCESS_ADDR` (R107). -/
def execR32AccessAddr (n : Var) (s : State) : Host.Outcome State Fault Refusal :=
  .next (readInto .accessAddr n s)

/-- `r32 vN, RD_DATA` (R110). -/
def execR32RdData (n : Var) (s : State) : Host.Outcome State Fault Refusal :=
  .next (readInto .rdData n s)

/-- `r32 vN, REPR_RD_TRANS_NUM` (R109). -/
def execR32ReprRdTransNum (n : Var) (s : State) : Host.Outcome State Fault Refusal :=
  .next (readInto .reprRdTransNum n s)

/-- `r32 vN, SBPI_CTRL` (R112). -/
def execR32SbpiCtrl (n : Var) (s : State) : Host.Outcome State Fault Refusal :=
  .next (readInto .sbpiCtrl n s)

/-- `r32 vN, SBPI_CMD_VALID_PRE` (R114). -/
def execR32SbpiCmdValidPre (n : Var) (s : State) : Host.Outcome State Fault Refusal :=
  .next (readInto .sbpiCmdValidPre n s)

/-- `r32 vN, SBPI_CMD0` (R116). -/
def execR32SbpiCmd0 (n : Var) (s : State) : Host.Outcome State Fault Refusal :=
  .next (readInto .sbpiCmd0 n s)

/-- `r32 vN, SBPI_CMD1` (R118). -/
def execR32SbpiCmd1 (n : Var) (s : State) : Host.Outcome State Fault Refusal :=
  .next (readInto .sbpiCmd1 n s)

/-- `r32 vN, INT_STATUS` (R120). -/
def execR32IntStatus (n : Var) (s : State) : Host.Outcome State Fault Refusal :=
  .next (readInto .intStatus n s)

/-- `r32 vN, USER_CTRL` (R121). -/
def execR32UserCtrl (n : Var) (s : State) : Host.Outcome State Fault Refusal :=
  .next (readInto .userCtrl n s)

/-- `r32 vN, USER_ADDR` (R123). -/
def execR32UserAddr (n : Var) (s : State) : Host.Outcome State Fault Refusal :=
  .next (readInto .userAddr n s)

/-- `r32 vN, USER_ENABLE` (R124). -/
def execR32UserEnable (n : Var) (s : State) : Host.Outcome State Fault Refusal :=
  .next (readInto .userEnable n s)

/-- `r32 vN, USER_Q` (R126). -/
def execR32UserQ (n : Var) (s : State) : Host.Outcome State Fault Refusal :=
  .next (readInto .userQ n s)

/-- `r8 vN, USER_Q` (R125). -/
def execR8UserQ (n : Var) (s : State) : Host.Outcome State Fault Refusal :=
  .next (read8Into n s)

/-- `r8 vN, r` for a register other than USER_Q (R128). -/
def execR8Other (r : Reg) (n : Var) (s : State) : Host.Outcome State Fault Refusal :=
  .next (read8Other r n s)

end Sys2Proof.Machine
end

