-- ==== Sys2Proof/Machine/WritesA.lean ====
section
/-! DEFINITION. The writes of variant A's registers: SBPI_CTRL, USER_CTRL and USER_ENABLE with
their side effects (spec/43_user_mode_fsm.md R160, R163, R164), and the others
(spec/41_register_interface.md R113 to R127). -/

namespace Sys2Proof.Machine

/-- The pulse field at bit `b` of a write-masked word is set: enabled and 1 (R102, R160, R164). -/
def pulseSet (b : Nat) (d : Word) : Bool := d.getLsbD (16 + b) && d.getLsbD b

/-- SBPI_CTRL's DAP field after the masked update by `d` (R102, R160). -/
def updateDap (d : Word) (s : State) : State :=
  let t := if maskedDraws s.cfg.dapLo s.cfg.dapW s.regsA.dap d then s.spend else s
  { t with
    regsA := { t.regsA with
      dap := maskedField s.cfg.dapLo s.cfg.dapW s.regsA.dap d s.fresh } }

/-- The command registers hold the documented ECC write (R160). -/
def eccCommandReady (s : State) : Bool :=
  decide (s.regsA.cmdValid = some s.cfg.cmdValidValue) &&
    decide (s.regsA.dap = some s.cfg.dapEcc) &&
    decide (s.regsA.cmd0 = some s.cfg.sbpiCmd0Word) &&
    (decide (s.regsA.cmd1 = some s.cfg.sbpiCmd1Off) ||
      decide (s.regsA.cmd1 = some s.cfg.sbpiCmd1On))

/-- The start of an SBPI command by `d` (R160): the command the registers hold, with the DAP field
`d` leaves, is issued, or the write is refused with no effect, its select among it (R265). Log entry
13. -/
def startSbpi (d : Word) (s : State) : State :=
  let t := updateDap d s
  if eccCommandReady t then
    t.issueA (.sbpi (t.regsA.dap.getD 0) (t.regsA.cmd0.getD 0) (t.regsA.cmd1.getD 0))
  else s.refuse .sbpiCommandUnsupported

/-- `w32 SBPI_CTRL, D` (R160). -/
def writeSbpiCtrl (d : Word) : State → State :=
  access .sbpiCtrl fun s =>
    let start := pulseSet s.cfg.sbpiEnBit.val d
    if s.ctlA.pend.isSome && (start || decide (maskedEnable s.cfg.dapLo s.cfg.dapW d ≠ 0)) then
      s.raise .busyWrite
    else if start then startSbpi d s else updateDap d s

/-- SBPI_CMD_VALID_PRE's count after the masked update by `d` (R102, R113). -/
def updateCmdValid (d : Word) (s : State) : State :=
  let t := if maskedDraws 0 16 s.regsA.cmdValid d then s.spend else s
  { t with regsA := { t.regsA with cmdValid := maskedField 0 16 s.regsA.cmdValid d s.fresh } }

/-- `w32 SBPI_CMD_VALID_PRE, D` (R113). -/
def writeSbpiCmdValidPre (d : Word) : State → State :=
  access .sbpiCmdValidPre fun s =>
    if s.sbpiPending then s.raise .busyWrite else updateCmdValid d s

/-- `w32 SBPI_CMD0, D` (R115). -/
def writeSbpiCmd0 (d : Word) : State → State :=
  access .sbpiCmd0 fun s =>
    if s.sbpiPending then s.raise .busyWrite
    else { s with regsA := { s.regsA with cmd0 := some d } }

/-- `w32 SBPI_CMD1, D` (R117). -/
def writeSbpiCmd1 (d : Word) : State → State :=
  access .sbpiCmd1 fun s =>
    if s.sbpiPending then s.raise .busyWrite
    else { s with regsA := { s.regsA with cmd1 := some d } }

/-- `w32 INT_STATUS, D` (R119). -/
def writeIntStatus (d : Word) : State → State :=
  access .intStatus fun s =>
    { s with
      regsA := { s.regsA with intStatus := IntStatus.acknowledge s.cfg s.regsA.intStatus d } }

/-- Enter or leave user mode (R163): the time of entry is kept while it stays on. -/
def setUserMode (on : Bool) (s : State) : State :=
  { s with
    regsA := { s.regsA with useUser := on },
    ctlA := { s.ctlA with
      userOnAt :=
        if on then (if s.regsA.useUser then s.ctlA.userOnAt else some s.now) else none } }

/-- `w32 USER_CTRL, D` (R163). -/
def writeUserCtrl (d : Word) : State → State :=
  access .userCtrl fun s =>
    if d.getLsbD (16 + s.cfg.useUserBit.val) then
      if s.userPending then s.raise .busyWrite
      else setUserMode (d.getLsbD s.cfg.useUserBit.val) s
    else s

/-- USER_ADDR's field after the masked update by `d` (R102, R122). -/
def updateUaddr (d : Word) (s : State) : State :=
  let t := if maskedDraws 0 s.cfg.userAddrW s.regsA.uaddr d then s.spend else s
  { t with
    regsA := { t.regsA with uaddr := maskedField 0 s.cfg.userAddrW s.regsA.uaddr d s.fresh } }

/-- `w32 USER_ADDR, D` (R122). -/
def writeUserAddr (d : Word) : State → State :=
  access .userAddr fun s =>
    if s.userPending then s.raise .busyWrite else updateUaddr d s

/-- Fewer than `USER_SETTLE` time-units have passed since user mode was entered (R164, R302). In
a state no run reaches, user mode on with no time of entry counts as too early. Log entry 14. -/
def unsettled (s : State) : Bool :=
  match s.ctlA.userOnAt with
  | some t => decide (s.now - t < userSettle)
  | none => true

/-- Start one user read (R164): the byte address is latched, drawn where the field holds none. -/
def issueUserRead (s : State) : State :=
  match s.regsA.uaddr with
  | some a => s.issueA (.user a)
  | none => s.spend.issueA (.user (s.fresh.setWidth 16 &&& onesHalf s.cfg.userAddrW))

/-- `w32 USER_ENABLE, D` (R164): the tests in the rule's order, the first that fires stops it. -/
def writeUserEnable (d : Word) : State → State :=
  access .userEnable fun s =>
    if pulseSet s.cfg.fsmEnBit.val d then
      if s.ctlA.pend.isSome then s.raise .busyWrite
      else if !s.regsA.useUser then s.raise .userModeOff
      else if unsettled s then s.raise .settleViolation
      else issueUserRead s
    else s

/-- `w32 USER_Q, D` (R127). -/
def writeUserQ (_d : Word) : State → State :=
  access .userQ fun s => s.raise .writeReadOnly

/-- `w32 SBPI_CTRL, D` (R160). -/
def execW32SbpiCtrl (d : Word) (s : State) : Host.Outcome State Fault Refusal :=
  .next (writeSbpiCtrl d s)

/-- `w32 SBPI_CMD_VALID_PRE, D` (R113). -/
def execW32SbpiCmdValidPre (d : Word) (s : State) : Host.Outcome State Fault Refusal :=
  .next (writeSbpiCmdValidPre d s)

/-- `w32 SBPI_CMD0, D` (R115). -/
def execW32SbpiCmd0 (d : Word) (s : State) : Host.Outcome State Fault Refusal :=
  .next (writeSbpiCmd0 d s)

/-- `w32 SBPI_CMD1, D` (R117). -/
def execW32SbpiCmd1 (d : Word) (s : State) : Host.Outcome State Fault Refusal :=
  .next (writeSbpiCmd1 d s)

/-- `w32 INT_STATUS, D` (R119). -/
def execW32IntStatus (d : Word) (s : State) : Host.Outcome State Fault Refusal :=
  .next (writeIntStatus d s)

/-- `w32 USER_CTRL, D` (R163). -/
def execW32UserCtrl (d : Word) (s : State) : Host.Outcome State Fault Refusal :=
  .next (writeUserCtrl d s)

/-- `w32 USER_ADDR, D` (R122). -/
def execW32UserAddr (d : Word) (s : State) : Host.Outcome State Fault Refusal :=
  .next (writeUserAddr d s)

/-- `w32 USER_ENABLE, D` (R164). -/
def execW32UserEnable (d : Word) (s : State) : Host.Outcome State Fault Refusal :=
  .next (writeUserEnable d s)

/-- `w32 USER_Q, D` (R127): the fault is sticky and the machine goes on (R264). -/
def execW32UserQ (d : Word) (s : State) : Host.Outcome State Fault Refusal :=
  .next (writeUserQ d s)

end Sys2Proof.Machine
end

