-- ==== Sys2Proof/Machine/WritesB.lean ====
section
/-! DEFINITION. The writes of variant B's registers: MODE_CTRL and its transition table
(spec/42_power_mode_fsm.md R130, R132), and the others (spec/41_register_interface.md R104 to
R111). -/

namespace Sys2Proof.Machine

/-- The command codes of MODE_CTRL (R25). -/
inductive ModeCmd where
  | toDS
  | toSB
  | toACT
  | readAccess
  deriving DecidableEq, Repr

/-- The command a written value is; none where it is no code (R130). -/
def modeCmdOf (c : Cfg) (d : Word) : Option ModeCmd :=
  if d = c.encDS then some .toDS
  else if d = c.encSB then some .toSB
  else if d = c.encACT then some .toACT
  else if d = c.encRA then some .readAccess
  else none

/-- The read-access command in mode ACT (R130): refused unless the transaction count is the fixed
one; the word address is latched, drawn where the field holds none. -/
def issueReadAccess (s : State) : State :=
  if s.regsB.transNum = some s.cfg.transOne then
    match s.regsB.accessAddr with
    | some w => s.issueB (.read w)
    | none => s.spend.issueB (.read (s.fresh &&& ones s.cfg.accessAddrW))
  else s.refuse .transNumUnsupported

/-- The legal (mode, command) pairs of the transition table; every other pair faults (R130,
R132). -/
def issueMode (c : ModeCmd) (s : State) : State :=
  match s.ctlB.mode, c with
  | .DS, .toSB => s.issueB .dpToStb
  | .SB, .toACT => s.issueB .stbToAct
  | .ACT, .toSB => s.issueB .actToStb
  | .SB, .toDS => s.issueB .stbToDp
  | .ACT, .readAccess => issueReadAccess s
  | _, _ => s.raise .illegalTransition

/-- `w32 MODE_CTRL, D` (R130). -/
def writeModeCtrl (d : Word) : State → State :=
  access .modeCtrl fun s =>
    match modeCmdOf s.cfg d with
    | none => s.raise .illegalModeCommand
    | some c => if s.ctlB.pend.isSome then s.raise .busyWrite else issueMode c s

/-- `w32 IRQ_ST, D` (R104). -/
def writeIrqSt (d : Word) : State → State :=
  access .irqSt fun s =>
    { s with regsB := { s.regsB with irqSt := IrqSt.acknowledge s.cfg s.regsB.irqSt d } }

/-- `w32 ACCESS_ADDR, D` (R106). -/
def writeAccessAddr (d : Word) : State → State :=
  access .accessAddr fun s =>
    if s.readPending then s.raise .busyWrite
    else { s with regsB := { s.regsB with accessAddr := some (d &&& ones s.cfg.accessAddrW) } }

/-- `w32 RD_DATA, D` (R111). -/
def writeRdData (_d : Word) : State → State :=
  access .rdData fun s => s.raise .writeReadOnly

/-- `w32 REPR_RD_TRANS_NUM, D` (R108). -/
def writeReprRdTransNum (d : Word) : State → State :=
  access .reprRdTransNum fun s =>
    if s.readPending then s.raise .busyWrite
    else { s with regsB := { s.regsB with transNum := some d } }

/-- `w32 MODE_CTRL, D` (R130). -/
def execW32ModeCtrl (d : Word) (s : State) : Host.Outcome State Fault Refusal :=
  .next (writeModeCtrl d s)

/-- `w32 IRQ_ST, D` (R104). -/
def execW32IrqSt (d : Word) (s : State) : Host.Outcome State Fault Refusal :=
  .next (writeIrqSt d s)

/-- `w32 ACCESS_ADDR, D` (R106). -/
def execW32AccessAddr (d : Word) (s : State) : Host.Outcome State Fault Refusal :=
  .next (writeAccessAddr d s)

/-- `w32 RD_DATA, D` (R111): the fault is sticky and the machine goes on (R264). -/
def execW32RdData (d : Word) (s : State) : Host.Outcome State Fault Refusal :=
  .next (writeRdData d s)

/-- `w32 REPR_RD_TRANS_NUM, D` (R108). -/
def execW32ReprRdTransNum (d : Word) (s : State) : Host.Outcome State Fault Refusal :=
  .next (writeReprRdTransNum d s)

end Sys2Proof.Machine
end

