-- ==== Sys2Proof/Machine/Poller.lean ====
section
/-! DEFINITION. `RegWrite32` by register (spec/41_register_interface.md R129) and the status
poller (spec/44_status_poller.md R190 to R195). -/

namespace Sys2Proof.Machine

/-- `RegWrite32(r, d)` (R12, R129). -/
def regWrite (r : Reg) (d : Word) (s : State) : State :=
  match r with
  | .modeCtrl => writeModeCtrl d s
  | .irqSt => writeIrqSt d s
  | .accessAddr => writeAccessAddr d s
  | .rdData => writeRdData d s
  | .reprRdTransNum => writeReprRdTransNum d s
  | .sbpiCtrl => writeSbpiCtrl d s
  | .sbpiCmdValidPre => writeSbpiCmdValidPre d s
  | .sbpiCmd0 => writeSbpiCmd0 d s
  | .sbpiCmd1 => writeSbpiCmd1 d s
  | .intStatus => writeIntStatus d s
  | .userCtrl => writeUserCtrl d s
  | .userAddr => writeUserAddr d s
  | .userEnable => writeUserEnable d s
  | .userQ => writeUserQ d s

/-- What a poll came to (R190, R191): Matched or TimedOut, how many reads it made (R193), and the
state it left. -/
structure PollResult where
  matched : Bool
  reads : Nat
  state : State
  deriving DecidableEq, Repr

/-- The poll matches: register content AND target mask is nonzero; a read whose guard fails has
no content and does not match (R190, R191). -/
def pollMatches (m : Word) : Option Word → Bool
  | some x => decide (x &&& m ≠ 0)
  | none => false

/-- The read line of the poll `p` (R190): on a match the acknowledge comes next; else, after the
last delay the bound allows, the poll is over, TimedOut, with 0 in its variable; else a delay comes
next. -/
def pollRead (p : Poll) (s : State) : State :=
  let t := readEffect p.status s
  if pollMatches p.mask (readResult p.status s) then
    { t with poll := some { p with line := .acknowledge } }
  else if pollTimeout / pollInterval ≤ p.delays then
    { t.setVar p.dst (some (answerWord false)) with poll := none }
  else { t with poll := some { p with line := .delay } }

/-- The acknowledge line of the poll `p` (R190, R192): the write of the whole mask; the poll is
over, Matched, with 1 in its variable. -/
def pollAcknowledge (p : Poll) (s : State) : State :=
  { (regWrite p.status p.mask s).setVar p.dst (some (answerWord true)) with poll := none }

/-- The delay line of the poll `p` (R190): one interval, and the next read comes. -/
def pollDelay (p : Poll) (s : State) : State :=
  { delayBy pollInterval s with
    poll := some { p with delays := p.delays + 1, line := .read } }

/-- The host's next line of the poll `p`, one host step (R9, R190). -/
def pollStep (p : Poll) (s : State) : State :=
  match p.line with
  | .read => pollRead p s
  | .acknowledge => pollAcknowledge p s
  | .delay => pollDelay p s

/-- The poll loop of the host procedures (log entry 20), with `left` delays to
go and `made` reads made (R190). The controller may step before each line: the read, then on a match
the acknowledge write of the whole mask (R192), else a delay of one interval and the next round. -/
def pollLoop (r : Reg) (m : Word) : Nat → Nat → State → PollResult
  | left, made, s =>
    let s0 := interleave (s.statusRead r) s
    let s1 := readEffect r s0
    if pollMatches m (readResult r s0) then
      { matched := true, reads := made + 1, state := regWrite r m (interleave false s1) }
    else
      match left with
      | 0 => { matched := false, reads := made + 1, state := s1 }
      | left + 1 => pollLoop r m left (made + 1) (delayBy pollInterval (interleave false s1))

/-- `WAIT_FOR(S, M)` (R190): at most `POLL_TIMEOUT / POLL_INTERVAL` delays, so one read more
(R193). -/
def waitFor (r : Reg) (m : Word) (s : State) : PollResult :=
  pollLoop r m (pollTimeout / pollInterval) 0 s

/-- `waitfor vN, S, M` (R190): the first line of the poll, its read; the host's next steps are the
lines after it (`pollStep`). Naming the other variant's status register is a reserved encoding (R88,
R89), refused with no effect. Log entries 8 and 9. -/
def startPoll (r : Reg) (n : Var) (m : Word) (s : State) : State :=
  if r.variant = s.cfg.variant then
    pollRead { status := r, dst := n, mask := m, delays := 0, line := .read } s
  else s.refuse .reservedEncoding

/-- `waitfor vN, IRQ_ST, M` (R190). -/
def execWaitforIrqSt (n : Var) (m : Word) (s : State) : Host.Outcome State Fault Refusal :=
  .next (startPoll .irqSt n m s)

/-- `waitfor vN, INT_STATUS, M` (R190). -/
def execWaitforIntStatus (n : Var) (m : Word) (s : State) : Host.Outcome State Fault Refusal :=
  .next (startPoll .intStatus n m s)

end Sys2Proof.Machine
end

