-- ==== Sys2Proof/Machine/Dispatch.lean ====
section
/-! DEFINITION. The meaning of every operation, one arm per constructor of `Instr`. -/

namespace Sys2Proof.Machine

/-- One host operation (spec/41_register_interface.md R129). -/
def exec (i : Instr) (s : State) : Host.Outcome State Fault Refusal :=
  match i with
  | .w32ModeCtrl d => Sys2Proof.Machine.execW32ModeCtrl d s
  | .w32IrqSt d => Sys2Proof.Machine.execW32IrqSt d s
  | .w32AccessAddr d => Sys2Proof.Machine.execW32AccessAddr d s
  | .w32RdData d => Sys2Proof.Machine.execW32RdData d s
  | .w32ReprRdTransNum d => Sys2Proof.Machine.execW32ReprRdTransNum d s
  | .w32SbpiCtrl d => Sys2Proof.Machine.execW32SbpiCtrl d s
  | .w32SbpiCmdValidPre d => Sys2Proof.Machine.execW32SbpiCmdValidPre d s
  | .w32SbpiCmd0 d => Sys2Proof.Machine.execW32SbpiCmd0 d s
  | .w32SbpiCmd1 d => Sys2Proof.Machine.execW32SbpiCmd1 d s
  | .w32IntStatus d => Sys2Proof.Machine.execW32IntStatus d s
  | .w32UserCtrl d => Sys2Proof.Machine.execW32UserCtrl d s
  | .w32UserAddr d => Sys2Proof.Machine.execW32UserAddr d s
  | .w32UserEnable d => Sys2Proof.Machine.execW32UserEnable d s
  | .w32UserQ d => Sys2Proof.Machine.execW32UserQ d s
  | .r32ModeCtrl n => Sys2Proof.Machine.execR32ModeCtrl n s
  | .r32IrqSt n => Sys2Proof.Machine.execR32IrqSt n s
  | .r32AccessAddr n => Sys2Proof.Machine.execR32AccessAddr n s
  | .r32RdData n => Sys2Proof.Machine.execR32RdData n s
  | .r32ReprRdTransNum n => Sys2Proof.Machine.execR32ReprRdTransNum n s
  | .r32SbpiCtrl n => Sys2Proof.Machine.execR32SbpiCtrl n s
  | .r32SbpiCmdValidPre n => Sys2Proof.Machine.execR32SbpiCmdValidPre n s
  | .r32SbpiCmd0 n => Sys2Proof.Machine.execR32SbpiCmd0 n s
  | .r32SbpiCmd1 n => Sys2Proof.Machine.execR32SbpiCmd1 n s
  | .r32IntStatus n => Sys2Proof.Machine.execR32IntStatus n s
  | .r32UserCtrl n => Sys2Proof.Machine.execR32UserCtrl n s
  | .r32UserAddr n => Sys2Proof.Machine.execR32UserAddr n s
  | .r32UserEnable n => Sys2Proof.Machine.execR32UserEnable n s
  | .r32UserQ n => Sys2Proof.Machine.execR32UserQ n s
  | .r8UserQ n => Sys2Proof.Machine.execR8UserQ n s
  | .r8Other r n => Sys2Proof.Machine.execR8Other r n s
  | .clkon n d => Sys2Proof.Machine.execClkon n d s
  | .clkoff d => Sys2Proof.Machine.execClkoff d s
  | .rsta n => Sys2Proof.Machine.execRsta n s
  | .rstd n => Sys2Proof.Machine.execRstd n s
  | .delay n => Sys2Proof.Machine.execDelay n s
  | .waitforIrqSt n m => Sys2Proof.Machine.execWaitforIrqSt n m s
  | .waitforIntStatus n m => Sys2Proof.Machine.execWaitforIntStatus n m s

end Sys2Proof.Machine
end

