-- ==== Sys2Proof/Machine/Fetch.lean ====
section
/-! DEFINITION. Taking the next operation of the host program: the first words of the list of
words not yet executed (spec/30_encoding.md R80, R89, R96). -/

namespace Sys2Proof.Machine

/-- What the host finds at the head of its program. -/
inductive Fetched where
  /-- No operation is left (R80). -/
  | ended
  /-- A reserved encoding, refused (R89). -/
  | refused
  /-- The operation decoded, and the words after it. -/
  | op (i : Instr) (rest : List Word)
  deriving DecidableEq, Repr

/-- Decode the head of the host program (R80, R89). -/
def fetch (s : State) : Fetched :=
  match decode s.program with
  | none => .ended
  | some (.ok (i, rest)) => .op i rest
  | some (.error _) => .refused

/-- The status register an operation's first step reads; none where it reads none. -/
def statusRegRead : Instr → Option Reg
  | .r32IrqSt _ => some .irqSt
  | .r32IntStatus _ => some .intStatus
  | .waitforIrqSt _ _ => some .irqSt
  | .waitforIntStatus _ _ => some .intStatus
  | _ => none

/-- The status register the host's next step reads: that of the poll it is inside of, where its read
comes next, or of the operation at the head of its program. -/
def nextStatusReg (s : State) : Option Reg :=
  match s.poll with
  | some p => if p.line = .read then some p.status else none
  | none =>
    match fetch s with
    | .op i _ => statusRegRead i
    | _ => none

/-- The host's next step is a status read of the live variant (R135); a read of the other variant's
status register is none (R90). Log entry 6. -/
def nextIsStatusRead (s : State) : Bool :=
  match nextStatusReg s with
  | some r => s.statusRead r
  | none => false

/-- Move past an operation's words. -/
def State.advance (s : State) (rest : List Word) : State := { s with program := rest }

/-- A reserved encoding refused (R89, R265): the mark is set and nothing else happens. Log entry
8. -/
def refuseEncoding (s : State) : State :=
  (s.advance (skipRefused s.program)).refuse .reservedEncoding

/-- The host's step: the next line of the poll it is inside of, else one operation of its program,
or none left (R9, R80, R190, R264). -/
def hostStep (s : State) : Host.Outcome State Fault Refusal :=
  match s.poll with
  | some p => .next (pollStep p s)
  | none =>
    match fetch s with
    | .ended => .fault .runEnded
    | .refused => .next (refuseEncoding s)
    | .op i rest => exec i (s.advance rest)

/-- The words of an instruction put where the host finds its next operation, over the first two
words of the program, outside any poll and with the next step made the host's. Log entry 16. -/
def placeWords (ws : List Word) (s : State) : State :=
  let t := { s with program := ws ++ s.program.drop ws.length, poll := none }
  if s.canComplete then { t with env := { t.env with turns := .host :: t.env.turns } } else t

end Sys2Proof.Machine
end

