-- ==== Sys2Proof/Machine/Step.lean ====
section
/-! DEFINITION. One step of the machine: one agent's (spec/00_scope.md R9, spec/20_memory.md
R73). -/

namespace Sys2Proof.Machine

/-- One step: the controller's completion where it is enabled and the schedule or the bound gives
it the turn, else the host's: a line of its poll or an operation (R9, R10, R73, R135). -/
def step (s : State) : Host.Outcome State Fault Refusal :=
  if s.controllerMoves (nextIsStatusRead s) then
    .next (complete (s.turnTaken (nextIsStatusRead s)))
  else hostStep (s.turnTaken (nextIsStatusRead s))

/-- `s` with the instruction whose table bits are `w` (`nbits` of them) as the host's next
operation, and the next step the host's. -/
def State.withFetchWord (s : State) (nbits w : Nat) : State := placeWords (tableWords nbits w) s

end Sys2Proof.Machine
end

