-- ==== Sys2Proof/Machine/Bus.lean ====
section
/-! DEFINITION. The bus form of the register operations (spec/30_encoding.md R91,
spec/20_memory.md R60, R61, R62, R65): an access by byte address instead of register index. -/

namespace Sys2Proof

/-- The registers in the order of `Cfg.off`: variant B's five, then variant A's nine (R82). -/
def Reg.all : List Reg :=
  [.modeCtrl, .irqSt, .accessAddr, .rdData, .reprRdTransNum, .sbpiCtrl, .sbpiCmdValidPre,
    .sbpiCmd0, .sbpiCmd1, .intStatus, .userCtrl, .userAddr, .userEnable, .userQ]

/-- The place of a register in `Cfg.off`. -/
def Reg.slot : Reg → Fin 14
  | .modeCtrl => 0
  | .irqSt => 1
  | .accessAddr => 2
  | .rdData => 3
  | .reprRdTransNum => 4
  | .sbpiCtrl => 5
  | .sbpiCmdValidPre => 6
  | .sbpiCmd0 => 7
  | .sbpiCmd1 => 8
  | .intStatus => 9
  | .userCtrl => 10
  | .userAddr => 11
  | .userEnable => 12
  | .userQ => 13

/-- `BASE + OFF[r]` (R60, R91). -/
def Cfg.busAddr (c : Cfg) (r : Reg) : Nat := c.base + (c.off[r.slot]).toNat

/-- The register of the variant at a byte address; none for an address that is not 4-aligned or
no register's (R65). -/
def Cfg.regAt (c : Cfg) (addr : Nat) : Option Reg :=
  if addr % 4 = 0 then
    Reg.all.find? fun r => decide (r.variant = c.variant) && decide (c.busAddr r = addr)
  else none

end Sys2Proof

namespace Sys2Proof.Machine

/-- A bus access: its direction and width (R62, R91). -/
inductive BusOp where
  | write32 (d : Word)
  | read32 (n : Var)
  | read8 (n : Var)
  deriving DecidableEq, Repr

/-- The register operation an access at a register's address is (R91). -/
def busOperation (r : Reg) (op : BusOp) (s : State) : State :=
  match op with
  | .write32 d => regWrite r d s
  | .read32 n => readInto r n s
  | .read8 n => if r = .userQ then read8Into n s else read8Other r n s

/-- A bus access: the operation on the register at that address, or the refusal
`UnmappedOffset`, with no effect (R65, R265 REF4). Log entry 19. -/
def busAccess (addr : Nat) (op : BusOp) (s : State) : State :=
  match s.cfg.regAt addr with
  | some r => busOperation r op s
  | none => s.refuse .unmappedOffset

end Sys2Proof.Machine
end

