-- ==== Sys2Proof/Machine/Procedures.lean ====
section
/-! DEFINITION. The documented host procedures without an encoding (spec/30_encoding.md R95):
ACQUIRE and RELEASE (spec/45_resource_gate.md R205, R206), the walks (spec/42_power_mode_fsm.md
R140 to R142) and the variant-A sub-procedures (spec/43_user_mode_fsm.md R170 to R172), with the
error kinds they return (spec/60_exceptions.md R261, R262). Each line is a host step before which
the controller may step. Log entry 20. -/

namespace Sys2Proof.Machine

/-- The operations a `PollTimeout` names (R262). -/
inductive PollOp where
  | sbpi
  | user
  | dp2stb
  | stb2act
  | read
  | act2stb
  | stb2dp
  deriving DecidableEq, Repr

/-- The phases a `ResetFailed` names (R208). -/
inductive ResetPhase where
  | assertion
  | deassertion
  deriving DecidableEq, Repr

/-- What a host procedure returns: the error kinds of R261, `Ok` among them, and the stuck host
of spec/93 U22, which goes on from a read that gave no value. -/
inductive CallResult where
  | ok
  | resourceAcquireFailed (d : Domain)
  | resetFailed (p : ResetPhase)
  | pollTimeout (op : PollOp)
  | outOfRange
  | stuck
  deriving DecidableEq, Repr

/-- The spec's code of an error kind, ERR0 to ERR4 (R261); the stuck host has none. -/
def CallResult.code : CallResult → Option Nat
  | .ok => some 0
  | .resourceAcquireFailed _ => some 1
  | .resetFailed _ => some 2
  | .pollTimeout _ => some 3
  | .outOfRange => some 4
  | .stuck => none

/-- The spec's code of a fault kind, FLT1 to FLT11 (R263). -/
def FaultKind.code : FaultKind → Nat
  | .clockOff => 1
  | .inReset => 2
  | .illegalModeCommand => 3
  | .illegalTransition => 4
  | .busyWrite => 5
  | .userModeOff => 6
  | .settleViolation => 7
  | .resetHoldViolation => 8
  | .writeReadOnly => 9
  | .badWidth => 10
  | .variantAbsent => 11

/-- The spec's code of a refusal kind, REF1 to REF5 (R265). -/
def RefusalKind.code : RefusalKind → Nat
  | .reservedEncoding => 1
  | .transNumUnsupported => 2
  | .sbpiCommandUnsupported => 3
  | .unmappedOffset => 4
  | .concurrentHost => 5

/-- A host line that is not a status read: the controller may step before it. -/
def hostLine (f : State → State) (s : State) : State := f (interleave false s)

/-- The line `RegWrite32(r, d)`. -/
def lineWrite (r : Reg) (d : Word) : State → State := hostLine (regWrite r d)

/-- The line `x <- RegRead32(r)` on a register that is no status register: the value and the
state after it. -/
def lineRead (r : Reg) (s : State) : Option Word × State :=
  let t := interleave false s
  (readResult r t, readEffect r t)

/-- The line `b <- RegRead8(USER_Q)`. -/
def lineRead8 (s : State) : Option Word × State :=
  let t := interleave false s
  (readResult8 t, readEffect .userQ t)

/-- The line `Delay(n)`. -/
def lineDelay (n : Nat) : State → State := hostLine (delayBy n)

/-- The line `ClkEnable(d)`: whether it answered ok, and the state after it. -/
def lineClkEnable (d : Domain) (s : State) : Bool × State :=
  let t := interleave false s
  (serviceOk t, clkEnable d t)

/-- The line `ClkDisable(d)`. -/
def lineClkDisable (d : Domain) : State → State := hostLine (clkDisable d)

/-- The line `RstAssert()`: whether it answered ok, and the state after it. -/
def lineRstAssert (s : State) : Bool × State :=
  let t := interleave false s
  (serviceOk t, rstAssert t)

/-- The line `RstDeassert()`: whether it answered ok, and the state after it. -/
def lineRstDeassert (s : State) : Bool × State :=
  let t := interleave false s
  (rstDeassertAnswer t == some true, rstDeassert t)

/-- Disable a list of domains in its order. -/
def disableAll : List Domain → State → State
  | [], s => s
  | d :: ds, s => disableAll ds (lineClkDisable d s)

/-- Enable a list of domains in its order; `enabled` are those enabled so far, latest first. A
failure disables them in reverse order of enabling and names the domain that failed (R205). -/
def enableAll : List Domain → List Domain → State → Option Domain × State
  | [], _, s => (none, s)
  | d :: ds, enabled, s =>
    match lineClkEnable d s with
    | (true, t) => enableAll ds (d :: enabled) t
    | (false, t) => (some d, disableAll enabled t)

/-- `RELEASE` (R206). -/
def release (s : State) : State := disableAll [.phy, .bus, .func] s

/-- The reset pulse of `ACQUIRE` with its failure returns (R205). -/
def resetPulse (s : State) : CallResult × State :=
  match lineRstAssert s with
  | (false, t) => (.resetFailed .assertion, release t)
  | (true, t) =>
    match lineRstDeassert (lineDelay resetHold t) with
    | (false, u) => (.resetFailed .deassertion, release u)
    | (true, u) => (.ok, u)

/-- `ACQUIRE` (R205); `.ok` is Ready. -/
def acquire (s : State) : CallResult × State :=
  match enableAll [.func, .bus, .phy] [] s with
  | (some d, t) => (.resourceAcquireFailed d, t)
  | (none, t) => resetPulse t

/-- Write a mode command and wait for the bit its completion sets (R140, R141). -/
def modeStep (code : Word) (mask : Word) (s : State) : PollResult :=
  waitFor .irqSt mask (lineWrite .modeCtrl code s)

/-- The standby to active transition of `WALK_UP` (R140). -/
def walkUpFromStandby (s : State) : CallResult × State :=
  let p := modeStep s.cfg.encACT s.cfg.mStb2act s
  (if p.matched then .ok else .pollTimeout .stb2act, p.state)

/-- `WALK_UP` (R140, R142): the mode is read once; a value the walk does not list writes
nothing. -/
def walkUp (s : State) : CallResult × State :=
  match lineRead .modeCtrl s with
  | (none, t) => (.stuck, t)
  | (some m, t) =>
    if m = s.cfg.encDS then
      let p := modeStep s.cfg.encSB s.cfg.mDp2stb t
      if p.matched then walkUpFromStandby p.state else (.pollTimeout .dp2stb, p.state)
    else if m = s.cfg.encSB then walkUpFromStandby t
    else (.ok, t)

/-- The standby to deep-standby transition of `WALK_DOWN` (R141). -/
def walkDownFromStandby (s : State) : CallResult × State :=
  let p := modeStep s.cfg.encDS s.cfg.mStb2dp s
  (if p.matched then .ok else .pollTimeout .stb2dp, p.state)

/-- `WALK_DOWN` (R141, R142). -/
def walkDown (s : State) : CallResult × State :=
  match lineRead .modeCtrl s with
  | (none, t) => (.stuck, t)
  | (some m, t) =>
    if m = s.cfg.encACT then
      let p := modeStep s.cfg.encSB s.cfg.mAct2stb t
      if p.matched then walkDownFromStandby p.state else (.pollTimeout .act2stb, p.state)
    else if m = s.cfg.encSB then walkDownFromStandby t
    else (.ok, t)

/-- The writes of `ECC_OFF`, in the rule's order (R170). -/
def eccOffWrites (s : State) : State :=
  let c := s.cfg
  lineWrite .sbpiCtrl c.sbpiGoWord
    (lineWrite .sbpiCmd1 c.sbpiCmd1Off
      (lineWrite .sbpiCmd0 c.sbpiCmd0Word
        (lineWrite .sbpiCmdValidPre c.sbpiCmdvWord
          (lineWrite .sbpiCtrl c.sbpiSelWord s))))

/-- `ECC_OFF` (R170). -/
def eccOff (s : State) : CallResult × State :=
  let p := waitFor .intStatus s.cfg.mSbpiDone (eccOffWrites s)
  (if p.matched then .ok else .pollTimeout .sbpi, p.state)

/-- `USER_ON` (R171). -/
def userOn (s : State) : State :=
  lineDelay userSettle (lineWrite .userCtrl s.cfg.userOnWord s)

/-- `USER_OFF` (R171). -/
def userOff (s : State) : State := lineWrite .userCtrl s.cfg.userOffWord s

/-- `USER_READ_BYTE(o)` (R172): the byte, or the error that stopped it. -/
def userReadByte (o : Nat) (s : State) : Except CallResult Byte × State :=
  let t := lineWrite .userEnable s.cfg.fsmGoWord
    (lineWrite .userAddr (BitVec.ofNat 32 o ||| s.cfg.addrEnMask) s)
  let p := waitFor .intStatus s.cfg.mUserDone t
  if p.matched then
    match lineRead8 p.state with
    | (some x, u) => (.ok (x.setWidth 8), u)
    | (none, u) => (.error .stuck, u)
  else (.error (.pollTimeout .user), p.state)

end Sys2Proof.Machine
end

