-- ==== Sys2Proof/Machine/Engines.lean ====
section
/-! DEFINITION. The read engines, the variant selector and the dispatcher
(spec/46_read_engines.md R220 to R242). -/

namespace Sys2Proof.Machine

/-- Go on with what a sub-procedure returned, or stop with its error. -/
def onOk {α : Type} (p : Except CallResult α × State)
    (next : α → State → CallResult × State) : CallResult × State :=
  match p.1 with
  | .ok a => next a p.2
  | .error e => (e, p.2)

/-- The per-byte loop of `READ_A` from index `i`, `left` bytes to go (R221 step 4): ascending,
stopped by the first failed byte; the bytes written before it stay (R223). -/
def readLoopA (o : Nat) : Nat → Nat → State → CallResult × State
  | _, 0, s => (.ok, s)
  | i, left + 1, s =>
    onOk (userReadByte (o + i) s) fun b t =>
      readLoopA o (i + 1) left { t with out := t.out.write i b }

/-- Step 5 of `READ_A` (R221): user mode off and the release, whatever the loop came to. A stuck
host takes no further step (spec/93 U22). -/
def finishA (r : CallResult) (s : State) : CallResult × State :=
  if r = .stuck then (r, s) else (r, release (userOff s))

/-- Steps 3 to 5 of `READ_A` (R221): user mode on, the loop, and the end. -/
def readBytesA (o n : Nat) (s : State) : CallResult × State :=
  let p := readLoopA o 0 n (userOn s)
  finishA p.1 p.2

/-- `READ_A(o, n)` (R221 to R225). -/
def readA (o n : Nat) (s : State) : CallResult × State :=
  match acquire s with
  | (.ok, t) =>
    match eccOff t with
    | (.ok, u) => readBytesA o n u
    | (e, u) => (e, release u)
  | (e, t) => (e, t)

/-- The word-aligned window of R231: first logical word, in-window byte offset, word count. -/
structure Window where
  first : Nat
  inOffset : Nat
  count : Nat
  deriving DecidableEq, Repr

/-- The window of `len` bytes at `o`, computed from the clamped length (R231). -/
def window (o len : Nat) : Window :=
  { first := o / wordBytes, inOffset := o % wordBytes,
    count := (o + len + (wordBytes - 1)) / wordBytes - o / wordBytes }

/-- The clamped length `L` (R230). -/
def clampLength (c : Cfg) (o len : Nat) : Nat := min len (c.sizeB - o)

/-- The four bytes of a word, lane 0 first (R63, R233). -/
def wordLanes (d : Word) : List Byte :=
  [d.extractLsb' 0 8, d.extractLsb' 8 8, d.extractLsb' 16 8, d.extractLsb' 24 8]

/-- One word of the read loop of `READ_B` (R232 step 4): the data word, or the error. -/
def readWordB (w : Nat) (s : State) : Except CallResult Word × State :=
  let t := lineWrite .modeCtrl s.cfg.encRA
    (lineWrite .accessAddr (BitVec.ofNat 32 w)
      (lineWrite .reprRdTransNum s.cfg.transOne s))
  let p := waitFor .irqSt s.cfg.mRdm t
  if p.matched then
    match lineRead .rdData p.state with
    | (some d, u) => (.ok d, u)
    | (none, u) => (.error .stuck, u)
  else (.error (.pollTimeout .read), p.state)

/-- The read loop of `READ_B`, `left` words from hardware word `w` (R232 step 4): ascending,
stopped by the first failed word; each word's lanes are appended to the scratch buffer. -/
def readLoopB : Nat → Nat → State → CallResult × State
  | _, 0, s => (.ok, s)
  | w, left + 1, s =>
    onOk (readWordB w s) fun d t =>
      readLoopB (w + 1) left { t with scratch := t.scratch ++ wordLanes d }

/-- Steps 3 to 5 of `READ_B` (R232, R234): the loop over the window, and the copy only where it
ended with no error. -/
def readWindowB (o len : Nat) (s : State) : CallResult × State :=
  let win := window o len
  match readLoopB (secureWordOffset + win.first) win.count { s with scratch := [] } with
  | (.ok, t) => (.ok, { t with out := t.out.writeList 0 ((t.scratch.drop win.inOffset).take len) })
  | (e, t) => (e, t)

/-- Steps 2 to 5 of `READ_B` (R232): the walk up, and the window where it succeeded. -/
def readUpB (o len : Nat) (s : State) : CallResult × State :=
  let p := walkUp s
  match p.1 with
  | .ok => readWindowB o len p.2
  | e => (e, p.2)

/-- Steps 6 and 7 of `READ_B` (R232, R235), on every path: the walk down, a diagnostic, and the
release. The scratch buffer is discarded at the end (R233). A stuck host takes no further step
(spec/93 U22). -/
def finishB (r : CallResult) (s : State) : CallResult × Option CallResult × State :=
  if r = .stuck then (r, none, s)
  else
    let q := walkDown s
    if q.1 = .stuck then (.stuck, none, q.2)
    else (r, some q.1, { release q.2 with scratch := [] })

/-- Steps 2 to 7 of `READ_B` (R232, R235). -/
def readActiveB (o len : Nat) (s : State) : CallResult × Option CallResult × State :=
  let p := readUpB o len s
  finishB p.1 p.2

/-- `READ_B(o, len)` (R230 to R237): the result, the walk-down's diagnostic, and the state. -/
def readB (o len : Nat) (s : State) : CallResult × Option CallResult × State :=
  if s.cfg.sizeB ≤ o then (.outOfRange, none, s)
  else
    match acquire s with
    | (.ok, t) => readActiveB o (clampLength s.cfg o len) t
    | (e, t) => (e, none, t)

/-- The engine a Variant Descriptor selects (R47). -/
inductive Engine where
  | readA
  | readB
  deriving DecidableEq, Repr

/-- The Variant Descriptor (R47): the declared size and the engine. -/
structure Descriptor where
  size : Nat
  engine : Engine
  deriving DecidableEq, Repr

/-- The variant selector (R240): evaluated once, at attach. -/
def effectiveVariant (declared : Variant) (forced : Bool) : Variant :=
  if forced then .B else declared

/-- The descriptor of the device's variant (R47, R240). -/
def descriptor (c : Cfg) : Descriptor :=
  match c.variant with
  | .A => { size := c.sizeA, engine := .readA }
  | .B => { size := c.sizeB, engine := .readB }

/-- `DISPATCH(o, len)` (R241): the descriptor's engine, its result unchanged. -/
def dispatch (o len : Nat) (s : State) : CallResult × State :=
  match (descriptor s.cfg).engine with
  | .readA => readA o len s
  | .readB =>
    let p := readB o len s
    (p.1, p.2.2)

end Sys2Proof.Machine
end

