-- ==== Sys2Proof/Safety.lean ====
section
/-! DEFINITION. What claims are stated in: when a run has ended and is final
(spec/60_exceptions.md R264), and what every state a run reaches satisfies. -/

namespace Sys2Proof.Machine

/-- No fault recorded and no refusal set (R264). -/
def State.unmarked (s : State) : Prop := s.faults = FaultSet.none ∧ s.refused = none

/-- The run has ended: the host program has no operation left and no poll is under way (R80,
R264). -/
def State.runEnded (s : State) : Prop := s.program = [] ∧ s.poll = none

/-- An ended run that is final: its properties are the hardware's (R264). -/
def State.final (s : State) : Prop := s.runEnded ∧ s.unmarked

/-- Every stored field fits its width (R27, R32, R38). -/
def fieldsFit (s : State) : Prop :=
  (∀ a, s.regsB.accessAddr = some a → a.toNat < 2 ^ s.cfg.accessAddrW) ∧
    (∀ a, s.regsA.dap = some a → a.toNat < 2 ^ s.cfg.dapW) ∧
    (∀ a, s.regsA.uaddr = some a → a.toNat < 2 ^ s.cfg.userAddrW)

/-- A pending variant-B operation was issued from the mode the transition table gives, and the
address of a read-access fits its field (R130, R132). -/
def pendingFitsB (s : State) : Prop :=
  ∀ p, s.ctlB.pend = some p → s.ctlB.mode = p.source ∧
    ∀ w, p = .read w → w.toNat < 2 ^ s.cfg.accessAddrW

/-- A pending variant-A operation is the documented ECC write, or a user read issued in user mode
with an address that fits its field (R160, R164). -/
def pendingFitsA (s : State) : Prop :=
  (∀ d c0 c1, s.ctlA.pend = some (.sbpi d c0 c1) →
      d = s.cfg.dapEcc ∧ c0 = s.cfg.sbpiCmd0Word ∧
        (c1 = s.cfg.sbpiCmd1Off ∨ c1 = s.cfg.sbpiCmd1On)) ∧
    (∀ a, s.ctlA.pend = some (.user a) →
      s.regsA.useUser = true ∧ a.toNat < 2 ^ s.cfg.userAddrW)

/-- User mode is on exactly while its time of entry is held, and the reset is asserted exactly
while its time of assertion is held; neither time lies ahead of `now` (R41, R46). -/
def timesFit (s : State) : Prop :=
  (s.ctlA.userOnAt.isSome = s.regsA.useUser ∧ ∀ t, s.ctlA.userOnAt = some t → t ≤ s.now) ∧
    s.gate.rstAt.isSome = s.gate.rst ∧ ∀ t, s.gate.rstAt = some t → t ≤ s.now

/-- The controller the instance does not have is idle (R2, R49). -/
def otherIdle (s : State) : Prop :=
  match s.cfg.variant with
  | .A => s.ctlB.pend = none
  | .B => s.ctlA.pend = none

/-- The poll `p` is one of the live variant's status register, and has made at most the delays the
bound allows, fewer where another one comes next (R88, R190, R193). -/
def pollAllowed (s : State) (p : Poll) : Prop :=
  s.statusRead p.status = true ∧ p.delays ≤ pollTimeout / pollInterval ∧
    (p.line = .delay → p.delays < pollTimeout / pollInterval)

/-- The poll the host is inside of, if any, is an allowed one. -/
def pollFits (s : State) : Prop := ∀ p, s.poll = some p → pollAllowed s p

/-- What every state a run reaches satisfies, the configuration's constraints among it (R7). -/
def Invariant (s : State) : Prop :=
  s.cfg.wf = true ∧ fieldsFit s ∧ pendingFitsB s ∧ pendingFitsA s ∧ timesFit s ∧ otherIdle s ∧
    pollFits s

/-- Two states hold the same bytes: the host buffer, the fuse arrays and the scratch buffer. -/
def sameBytes (s t : State) : Prop :=
  (∀ a, t.out.read a = s.out.read a) ∧ (∀ a, t.fuseA a = s.fuseA a) ∧
    (∀ w j, t.fuseLaneB w j = s.fuseLaneB w j) ∧ t.scratch = s.scratch

/-- Nothing but the model's own supply of draws and schedule differs. -/
def sameButEnv (s t : State) : Prop := t = { s with env := t.env }

/-- `t` is what `k` steps of the machine leave of `s` (R73). -/
def stepsTo : Nat → State → State → Prop
  | 0, s, t => s = t
  | k + 1, s, t => ∃ u, step s = .next u ∧ stepsTo k u t

/-- The host's next operation is `waitfor vn, r, m` on the live variant's status register `r`, with
the words `rest` after it (R88). -/
def pollBegins (s : State) (r : Reg) (n : Var) (m : Word) (rest : List Word) : Prop :=
  s.poll = none ∧
    ((r = .irqSt ∧ s.cfg.variant = .B ∧
        decode s.program = some (.ok (.waitforIrqSt n m, rest))) ∨
      (r = .intStatus ∧ s.cfg.variant = .A ∧
        decode s.program = some (.ok (.waitforIntStatus n m, rest))))

/-- Every memory of the state is in its canonical form. -/
def memoriesCanonical (s : State) : Prop :=
  s.out.wf = true ∧ s.otpA.wf = true ∧ s.otpB.wf = true

end Sys2Proof.Machine
end

