-- ==== Sys2Proof/Certificates/Slice0/Obligations.lean ====
section
/-! DEFINITION. The statements for the provers, in the order of OBLIGATIONS.json. In them `open`
gate means the register interface exists (R46), `s.fresh` is the value the next draw gives and
`s.env.spend` the supply of draws after it: a statement that names them holds for every value a
draw can take, since the supply is part of the state it quantifies over. -/

open Sys2Proof Sys2Proof.Machine

/-! ### Encoding -/

/-- R80 to R88, R96, R97: decoding the words of an operation gives it back, with every operand at
every value its field admits, and leaves the words after it. -/
def Obligations.DecodeOfEncodeIsTheOperation : Prop :=
  ∀ (i : Instr) (rest : List Word), i.wf = true →
    decode (encode i ++ rest) = some (.ok (i, rest))

/-- R89: the decoder gives an operation only for the words the encoding gives that operation, so
no reserved encoding falls through to a neighbour and no two rows overlap (R97). -/
def Obligations.DecodedWordsAreTheEncoding : Prop :=
  ∀ (ws : List Word) (i : Instr) (rest : List Word), decode ws = some (.ok (i, rest)) →
    i.wf = true ∧ ws = encode i ++ rest

/-- The words of spec/95_test_vectors.md's programs P1 and P3 decode to the operations their
assembly lines name, one for each class of R83. -/
def Obligations.SpecProgramWordsDecode : Prop :=
  decode [0x40000002] = some (.ok (.clkon 0 .phy, [])) ∧
  decode [0x50000001] = some (.ok (.clkoff .bus, [])) ∧
  decode [0x60000000] = some (.ok (.rsta 0, [])) ∧
  decode [0x70000000] = some (.ok (.rstd 0, [])) ∧
  decode [0x80000002] = some (.ok (.delay 2, [])) ∧
  decode [0x20010000] = some (.ok (.r32ModeCtrl 1, [])) ∧
  decode [0x10200000, 0x000000E0] = some (.ok (.w32AccessAddr 0xE0, [])) ∧
  decode [0x90120000, 0x00000100] = some (.ok (.waitforIrqSt 2 0x100, [])) ∧
  decode [0x31840000] = some (.ok (.r8UserQ 4, [])) ∧
  decode [0x91420000, 0x00000004, 7] = some (.ok (.waitforIntStatus 2 4, [7]))

/-- R89, R96, R265: where the words at the head of the program are one of the reserved encodings
R89 lists, and the host moves, the step records `ReservedEncoding` (the first refusal is kept),
passes the words the header's class gives (log entry 8, the model's choice), and does nothing
else. `r` is REG, `i` is IMM. -/
def Obligations.ReservedEncodingIsRefused : Prop :=
  ∀ (s : State) (h : Word) (rest : List Word),
    let c := (h.extractLsb' 28 4).toNat
    let r := (h.extractLsb' 20 8).toNat
    let dst := (h.extractLsb' 16 4).toNat
    let i := (h.extractLsb' 0 16).toNat
    s.poll = none → s.program = h :: rest →
    s.controllerMoves (nextIsStatusRead s) = false →
    (c = 0 ∨ 0xA ≤ c) ∨
      ((c = 1 ∨ c = 2 ∨ c = 3 ∨ c = 9) ∧ ((0x05 ≤ r ∧ r ≤ 0x0F) ∨ 0x19 ≤ r)) ∨
      ((4 ≤ c ∧ c ≤ 8) ∧ r ≠ 0) ∨
      ((c = 1 ∨ c = 5 ∨ c = 8) ∧ dst ≠ 0) ∨
      ((c = 1 ∨ c = 2 ∨ c = 3 ∨ c = 6 ∨ c = 7 ∨ c = 9) ∧ i ≠ 0) ∨
      ((c = 4 ∨ c = 5) ∧ 3 ≤ i) ∨
      (c = 9 ∧ r ≠ 0x01 ∧ r ≠ 0x14) ∨
      ((c = 1 ∨ c = 9) ∧ rest = []) →
    step s = .next
      { s with
        program := if c = 1 ∨ c = 9 then rest.drop 1 else rest,
        refused := if s.refused.isSome then s.refused else some .reservedEncoding,
        env := (s.turnTaken (nextIsStatusRead s)).env }

/-- R88, R89: a `waitfor` on the status register of the other variant is a reserved encoding,
refused with no effect. -/
def Obligations.WaitOnOtherVariantsStatusIsRefused : Prop :=
  ∀ (s : State) (n : Var) (m : Word),
    (s.cfg.variant = .A → exec (.waitforIrqSt n m) s =
      .next { s with refused := if s.refused.isSome then s.refused else some .reservedEncoding }) ∧
    (s.cfg.variant = .B → exec (.waitforIntStatus n m) s =
      .next { s with refused := if s.refused.isSome then s.refused else some .reservedEncoding })

/-! ### Steps and agents -/

/-- R9, R80, R190: where the host is inside no poll, the head of the program decodes to an operation
and the host moves, the step is that operation's, on the state that has passed its words; inside a
poll the host's step is the poll's next line. The choice of the agent changes nothing but the
schedule. What one line of a poll takes in is log entry 9. -/
def Obligations.StepRunsTheDecodedOperation : Prop :=
  (∀ (s : State) (i : Instr) (rest : List Word),
    s.poll = none → decode s.program = some (.ok (i, rest)) →
    s.controllerMoves (nextIsStatusRead s) = false →
    sameButEnv s (s.turnTaken (nextIsStatusRead s)) ∧
      step s = exec i { s.turnTaken (nextIsStatusRead s) with program := rest }) ∧
  ∀ (s : State) (p : Poll),
    s.poll = some p → s.controllerMoves (nextIsStatusRead s) = false →
    sameButEnv s (s.turnTaken (nextIsStatusRead s)) ∧
      step s = .next (pollStep p (s.turnTaken (nextIsStatusRead s)))

/-- R9, R136: the controller moves only where an operation of the live variant is pending, the
three clocks are on and the reset is not asserted; then the step is its completion. Elsewhere it
never moves, and the schedule is not asked. -/
def Obligations.ControllerMovesOnlyWhenEnabled : Prop :=
  ∀ (s : State) (status : Bool),
    (s.controllerMoves status = true →
      s.gate.func = true ∧ s.gate.bus = true ∧ s.gate.phy = true ∧ s.gate.rst = false ∧
        s.pending = true) ∧
    (s.controllerMoves (nextIsStatusRead s) = true →
      step s = .next (complete (s.turnTaken (nextIsStatusRead s)))) ∧
    ((s.gate.isOpen = false ∨ s.pending = false) →
      s.controllerMoves status = false ∧ s.turnTaken status = s)

/-- R135: with `COMPLETION_BOUND = some k`, an enabled completion that has seen `k - 1` status
reads comes before the host's next status read, an `r32` of the live variant's status register or a
read of a poll, whatever the schedule says. Before every other step of the host, and before a status
read that comes earlier, only the schedule counts: an `r32` of the other variant's status register is
no status read of this instance (R90). Which reads count is the model's choice (log entry 6). -/
def Obligations.CompletionBoundForcesTheController : Prop :=
  ∀ s : State,
    let statusReadNext : Prop :=
      (s.poll = none ∧ s.cfg.variant = .B ∧
          ((∃ n rest, decode s.program = some (.ok (.r32IrqSt n, rest))) ∨
            ∃ n m rest, decode s.program = some (.ok (.waitforIrqSt n m, rest)))) ∨
        (s.poll = none ∧ s.cfg.variant = .A ∧
          ((∃ n rest, decode s.program = some (.ok (.r32IntStatus n, rest))) ∨
            ∃ n m rest, decode s.program = some (.ok (.waitforIntStatus n m, rest)))) ∨
        ∃ p, s.poll = some p ∧ p.line = .read ∧ s.statusRead p.status = true
    let due : Prop := ∃ k, s.cfg.completionBound = some k ∧ k ≤ s.statusReads + 1
    (due → statusReadNext → s.gate.isOpen = true → s.pending = true →
      step s = .next (complete s)) ∧
    (¬statusReadNext ∨ ¬due →
      s.controllerMoves (nextIsStatusRead s) =
        (s.canComplete && decide (s.env.agent = .controller)))

/-- R80, R264: when no word of the program is left, no poll is under way and the controller does not
move, the run has ended. That the controller may still move there is the model's choice (log entry
17). -/
def Obligations.RunEndsWithTheProgram : Prop :=
  ∀ s : State, s.program = [] → s.poll = none → s.controllerMoves false = false →
    step s = .fault .runEnded

/-! ### What every state a run reaches satisfies -/

/-- Every step keeps `Invariant`: the stored fields fit their widths, a pending operation was issued
from the mode the transition table gives (R132) or is the documented ECC write (R160) or a user
read in user mode (R164), the two times are held exactly while they matter (R41, R46), the
other variant's controller is idle (R49), and a poll is one of the live variant's status register and
within its bound (R88, R193). -/
def Obligations.EveryStepKeepsTheInvariant : Prop :=
  ∀ s t : State, Invariant s → step s = .next t → Invariant t

/-- R292: every launch of a configuration R7 allows satisfies `Invariant`, State.reset among them. -/
def Obligations.LaunchSatisfiesTheInvariant : Prop :=
  (∀ (c : Cfg) (a b : Memory) (e : Env) (hosts : List (List Word)), c.wf = true →
      Invariant (State.launch c a b e hosts)) ∧ Invariant State.reset

/-- R42: no step writes the fuse arrays or any other byte, and none changes the configuration;
the memories stay canonical. -/
def Obligations.EveryStepKeepsTheBytes : Prop :=
  ∀ s t : State, step s = .next t →
    sameBytes s t ∧ t.cfg = s.cfg ∧ t.otpA = s.otpA ∧ t.otpB = s.otpB ∧
      (memoriesCanonical s → memoriesCanonical t)

/-- R23: a step may add to the sticky marks and no step removes from them, not even a reset. -/
def Obligations.MarksAreSticky : Prop :=
  ∀ s t : State, step s = .next t →
    (∀ k, s.faults.has k = true → t.faults.has k = true) ∧
    (∀ k, s.refused = some k → t.refused = some k)

/-- R22: only a delay advances `now`: the operation by its count, the delay line of a poll by one
(R190); no other operation, no other line and no completion moves it. -/
def Obligations.OnlyDelaysAdvanceTime : Prop :=
  (∀ s t : State, ∀ i : Instr, exec i s = .next t →
    (∀ n, i = .delay n → t.now = s.now + n.toNat) ∧
    ((∀ n, i ≠ .delay n) → t.now = s.now)) ∧
  (∀ (s : State) (p : Poll),
    (pollStep p s).now = if p.line = .delay then s.now + 1 else s.now) ∧
  ∀ s : State, (complete s).now = s.now

/-- R45: the controller alone sets a status bit, and only a host write of 1, a poll's acknowledge
among them, or a controller reset clears one. For every host operation and every line of a poll. -/
def Obligations.HostNeverSetsAStatusBit : Prop :=
  (∀ s t : State, ∀ i : Instr, exec i s = .next t →
    (∀ b, (t.regsB.irqSt.get b = some true → s.regsB.irqSt.get b = some true) ∧
      (s.regsB.irqSt.get b = some true → t.regsB.irqSt.get b ≠ some true →
        (∃ d, i = .w32IrqSt d ∧ d.getLsbD (s.cfg.irqPos b) = true) ∨ ∃ n, i = .rstd n)) ∧
    (∀ b, (t.regsA.intStatus.get b = some true → s.regsA.intStatus.get b = some true) ∧
      (s.regsA.intStatus.get b = some true → t.regsA.intStatus.get b ≠ some true →
        (∃ d, i = .w32IntStatus d ∧ d.getLsbD (s.cfg.intPos b) = true) ∨ ∃ n, i = .rstd n))) ∧
  ∀ (s : State) (p : Poll),
    let t := pollStep p s
    (∀ b, (t.regsB.irqSt.get b = some true → s.regsB.irqSt.get b = some true) ∧
      (s.regsB.irqSt.get b = some true → t.regsB.irqSt.get b ≠ some true →
        p.line = .acknowledge ∧ p.status = .irqSt ∧ p.mask.getLsbD (s.cfg.irqPos b) = true)) ∧
    (∀ b, (t.regsA.intStatus.get b = some true → s.regsA.intStatus.get b = some true) ∧
      (s.regsA.intStatus.get b = some true → t.regsA.intStatus.get b ≠ some true →
        p.line = .acknowledge ∧ p.status = .intStatus ∧
          p.mask.getLsbD (s.cfg.intPos b) = true))

/-- R131, R271: the power mode changes at a completion or a controller reset, by no other step of
the host: no write and no line of a poll moves it. -/
def Obligations.ModeChangesOnlyAtCompletionOrReset : Prop :=
  (∀ s t : State, ∀ i : Instr, exec i s = .next t → (∀ n, i ≠ .rstd n) →
    t.ctlB.mode = s.ctlB.mode ∧ t.ctlA.eccEn = s.ctlA.eccEn) ∧
  ∀ (s : State) (p : Poll),
    (pollStep p s).ctlB.mode = s.ctlB.mode ∧ (pollStep p s).ctlA.eccEn = s.ctlA.eccEn

/-- R130, R144: a step that leaves a read-access pending which was not pending before was taken
in mode ACT, with nothing pending and the fixed transaction count. -/
def Obligations.ReadAccessIsIssuedOnlyInActive : Prop :=
  ∀ (s t : State) (w : Word), step s = .next t → t.ctlB.pend = some (.read w) →
    s.ctlB.pend = some (.read w) ∨
      (s.cfg.variant = .B ∧ s.gate.isOpen = true ∧ s.ctlB.mode = .ACT ∧ s.ctlB.pend = none ∧
        s.regsB.transNum = some s.cfg.transOne)

/-! ### The access guard -/

/-- R100, R267: an access whose guard fails records every fault that applies and does nothing
more; a read leaves its variable with no value. -/
def Obligations.FailedGuardRecordsEveryFault : Prop :=
  ∀ (s : State) (r : Reg) (d : Word) (n : Var),
    s.gate.func = false ∨ s.gate.bus = false ∨ s.gate.phy = false ∨ s.gate.rst = true ∨
        r.variant ≠ s.cfg.variant →
    ∃ f : FaultSet,
      exec (w32Row r d) s = .next { s with faults := f } ∧
      exec (r32Row r n) s = .next { s with faults := f, v := s.v.set n none } ∧
      exec (r8Row r n) s = .next { s with faults := f, v := s.v.set n none } ∧
      ∀ k, f.has k = true ↔
        s.faults.has k = true ∨
        (k = .clockOff ∧ ¬(s.gate.func = true ∧ s.gate.bus = true ∧ s.gate.phy = true)) ∨
        (k = .inReset ∧ s.gate.rst = true) ∨
        (k = .variantAbsent ∧ r.variant ≠ s.cfg.variant)

/-! ### Writes of variant B -/

/-- R130, R132: the whole rule of a MODE_CTRL write with the guard passed. -/
def Obligations.ModeCtrlWriteFollowsTheTable : Prop :=
  ∀ (s : State) (d : Word),
    s.cfg.wf = true → s.gate.isOpen = true → s.cfg.variant = .B →
    let c := s.cfg
    let isCode := d = c.encDS ∨ d = c.encSB ∨ d = c.encACT ∨ d = c.encRA
    let issued (p : PendB) : Host.Outcome State Fault Refusal :=
      .next { s with ctlB := { mode := s.ctlB.mode, pend := some p }, statusReads := 0 }
    let faulted (k : FaultKind) : Host.Outcome State Fault Refusal :=
      .next { s with faults := s.faults.add k }
    let run := exec (.w32ModeCtrl d) s
    (¬isCode → run = faulted .illegalModeCommand) ∧
    (isCode → s.ctlB.pend ≠ none → run = faulted .busyWrite) ∧
    (s.ctlB.pend = none →
      (s.ctlB.mode = .DS → d = c.encSB → run = issued .dpToStb) ∧
      (s.ctlB.mode = .SB → d = c.encACT → run = issued .stbToAct) ∧
      (s.ctlB.mode = .ACT → d = c.encSB → run = issued .actToStb) ∧
      (s.ctlB.mode = .SB → d = c.encDS → run = issued .stbToDp) ∧
      (s.ctlB.mode = .ACT → d = c.encRA →
        (s.regsB.transNum ≠ some c.transOne → run = .next
          { s with
            refused := if s.refused.isSome then s.refused else some .transNumUnsupported }) ∧
        (s.regsB.transNum = some c.transOne →
          (∀ w, s.regsB.accessAddr = some w → run = issued (.read w)) ∧
          (s.regsB.accessAddr = none → run = .next
            { s with
              ctlB := { mode := s.ctlB.mode,
                        pend := some (.read (s.fresh &&& ones c.accessAddrW)) },
              statusReads := 0, env := s.env.spend }))) ∧
      (s.ctlB.mode = .DS → d = c.encDS ∨ d = c.encACT ∨ d = c.encRA →
        run = faulted .illegalTransition) ∧
      (s.ctlB.mode = .SB → d = c.encSB ∨ d = c.encRA → run = faulted .illegalTransition) ∧
      (s.ctlB.mode = .ACT → d = c.encDS ∨ d = c.encACT → run = faulted .illegalTransition))

/-- R104, R119: a write of a status register clears exactly the bits written 1. -/
def Obligations.StatusWriteClearsTheBitsWrittenOne : Prop :=
  (∀ (s : State) (d : Word), s.gate.isOpen = true → s.cfg.variant = .B →
    ∃ q : IrqSt, exec (.w32IrqSt d) s = .next { s with regsB := { s.regsB with irqSt := q } } ∧
      ∀ b, q.get b = if d.getLsbD (s.cfg.irqPos b) then some false else s.regsB.irqSt.get b) ∧
  (∀ (s : State) (d : Word), s.gate.isOpen = true → s.cfg.variant = .A →
    ∃ q : IntStatus,
      exec (.w32IntStatus d) s = .next { s with regsA := { s.regsA with intStatus := q } } ∧
      ∀ b, q.get b = if d.getLsbD (s.cfg.intPos b) then some false else s.regsA.intStatus.get b)

/-- R106, R108: ACCESS_ADDR takes the low bits of D and REPR_RD_TRANS_NUM takes D, unless a
read-access is pending, which faults `BusyWrite`; another pending operation does not. -/
def Obligations.ReadParametersAreStoredUnlessReading : Prop :=
  ∀ (s : State) (d : Word), s.gate.isOpen = true → s.cfg.variant = .B →
    ((∀ w, s.ctlB.pend ≠ some (.read w)) →
      (∃ a : Word,
        exec (.w32AccessAddr d) s =
          .next { s with regsB := { s.regsB with accessAddr := some a } } ∧
        ∀ i, a.getLsbD i = (decide (i < s.cfg.accessAddrW) && d.getLsbD i)) ∧
      exec (.w32ReprRdTransNum d) s =
        .next { s with regsB := { s.regsB with transNum := some d } }) ∧
    ((∃ w, s.ctlB.pend = some (.read w)) →
      exec (.w32AccessAddr d) s = .next { s with faults := s.faults.add .busyWrite } ∧
      exec (.w32ReprRdTransNum d) s = .next { s with faults := s.faults.add .busyWrite })

/-- R111, R127, R128: a write of a read-only data register records `WriteReadOnly`, an 8-bit read
of any register but USER_Q records `BadWidth` and gives no value; nothing else changes. -/
def Obligations.ReadOnlyAndWidthFaults : Prop :=
  (∀ (s : State) (d : Word), s.gate.isOpen = true → s.cfg.variant = .B →
    exec (.w32RdData d) s = .next { s with faults := s.faults.add .writeReadOnly }) ∧
  (∀ (s : State) (d : Word), s.gate.isOpen = true → s.cfg.variant = .A →
    exec (.w32UserQ d) s = .next { s with faults := s.faults.add .writeReadOnly }) ∧
  (∀ (s : State) (r : Reg) (n : Var), s.gate.isOpen = true → r.variant = s.cfg.variant →
    r ≠ .userQ →
    exec (.r8Other r n) s =
      .next { s with faults := s.faults.add .badWidth, v := s.v.set n none })

/-! ### Writes of variant A -/

/-- R115, R117: an SBPI command register takes D, unless an SBPI command is pending, which faults
`BusyWrite`; a pending user read does not. -/
def Obligations.CommandWordsAreStoredUnlessSbpiPending : Prop :=
  ∀ (s : State) (d : Word), s.gate.isOpen = true → s.cfg.variant = .A →
    ((∀ a c0 c1, s.ctlA.pend ≠ some (.sbpi a c0 c1)) →
      exec (.w32SbpiCmd0 d) s = .next { s with regsA := { s.regsA with cmd0 := some d } } ∧
      exec (.w32SbpiCmd1 d) s = .next { s with regsA := { s.regsA with cmd1 := some d } }) ∧
    ((∃ a c0 c1, s.ctlA.pend = some (.sbpi a c0 c1)) →
      exec (.w32SbpiCmd0 d) s = .next { s with faults := s.faults.add .busyWrite } ∧
      exec (.w32SbpiCmd1 d) s = .next { s with faults := s.faults.add .busyWrite })

/-- R102, R113, R122: a write-masked write of SBPI_CMD_VALID_PRE or USER_ADDR takes D's bit where
its mask bit is 1 and keeps the old bit elsewhere; `BusyWrite` while the operation that uses the
field is pending. An unknown field written in full takes D's bits; one written in part is the
next statement's. -/
def Obligations.MaskedWritesTakeTheEnabledBits : Prop :=
  ∀ (s : State) (d : Word), s.cfg.wf = true → s.gate.isOpen = true → s.cfg.variant = .A →
    ((∀ a c0 c1, s.ctlA.pend ≠ some (.sbpi a c0 c1)) →
      (∀ old, s.regsA.cmdValid = some old →
        ∃ y : Half,
          exec (.w32SbpiCmdValidPre d) s =
            .next { s with regsA := { s.regsA with cmdValid := some y } } ∧
          ∀ i, i < 16 →
            y.getLsbD i = if d.getLsbD (16 + i) then d.getLsbD i else old.getLsbD i) ∧
      (s.regsA.cmdValid = none → (∀ i, i < 16 → d.getLsbD (16 + i) = true) →
        exec (.w32SbpiCmdValidPre d) s =
          .next { s with regsA := { s.regsA with cmdValid := some (d.setWidth 16) } })) ∧
    ((∃ a c0 c1, s.ctlA.pend = some (.sbpi a c0 c1)) →
      exec (.w32SbpiCmdValidPre d) s = .next { s with faults := s.faults.add .busyWrite }) ∧
    ((∀ a, s.ctlA.pend ≠ some (.user a)) →
      (∀ old, s.regsA.uaddr = some old →
        ∃ y : Half,
          exec (.w32UserAddr d) s = .next { s with regsA := { s.regsA with uaddr := some y } } ∧
          (∀ i, i < s.cfg.userAddrW →
            y.getLsbD i = if d.getLsbD (16 + i) then d.getLsbD i else old.getLsbD i) ∧
          ∀ i, s.cfg.userAddrW ≤ i → y.getLsbD i = old.getLsbD i) ∧
      (s.regsA.uaddr = none → (∀ i, i < s.cfg.userAddrW → d.getLsbD (16 + i) = true) →
        ∃ y : Half,
          exec (.w32UserAddr d) s = .next { s with regsA := { s.regsA with uaddr := some y } } ∧
          ∀ i, y.getLsbD i = (decide (i < s.cfg.userAddrW) && d.getLsbD i))) ∧
    ((∃ a, s.ctlA.pend = some (.user a)) →
      exec (.w32UserAddr d) s = .next { s with faults := s.faults.add .busyWrite })

/-- The model's choice (log entry 12), for the three write-masked stored fields where they hold none,
with nothing of theirs pending: with no mask bit of the field set the write changes nothing; with some
but not all set, the written bits are D's and the kept bits are the next draw's. -/
def Obligations.MaskedWriteOverAnUnknownField : Prop :=
  ∀ (s : State) (d : Word), s.cfg.wf = true → s.gate.isOpen = true → s.cfg.variant = .A →
    let c := s.cfg
    let some' (lo w : Nat) : Prop := ∃ i, i < w ∧ d.getLsbD (16 + lo + i) = true
    let all (lo w : Nat) : Prop := ∀ i, i < w → d.getLsbD (16 + lo + i) = true
    let stored (lo w : Nat) (y : Half) : Prop :=
      (∀ i, i < w → y.getLsbD i =
        if d.getLsbD (16 + lo + i) then d.getLsbD (lo + i) else s.fresh.getLsbD i) ∧
      ∀ i, w ≤ i → y.getLsbD i = false
    ((∀ a c0 c1, s.ctlA.pend ≠ some (.sbpi a c0 c1)) → s.regsA.cmdValid = none →
      (¬some' 0 16 → exec (.w32SbpiCmdValidPre d) s = .next s) ∧
      (some' 0 16 → ¬all 0 16 → ∃ y : Half, stored 0 16 y ∧
        exec (.w32SbpiCmdValidPre d) s =
          .next { s with regsA := { s.regsA with cmdValid := some y }, env := s.env.spend })) ∧
    ((∀ a, s.ctlA.pend ≠ some (.user a)) → s.regsA.uaddr = none →
      (¬some' 0 c.userAddrW → exec (.w32UserAddr d) s = .next s) ∧
      (some' 0 c.userAddrW → ¬all 0 c.userAddrW → ∃ y : Half, stored 0 c.userAddrW y ∧
        exec (.w32UserAddr d) s =
          .next { s with regsA := { s.regsA with uaddr := some y }, env := s.env.spend })) ∧
    (s.ctlA.pend = none → s.regsA.dap = none →
      (d.getLsbD (16 + c.sbpiEnBit.val) && d.getLsbD c.sbpiEnBit.val) = false →
      (¬some' c.dapLo c.dapW → exec (.w32SbpiCtrl d) s = .next s) ∧
      (some' c.dapLo c.dapW → ¬all c.dapLo c.dapW → ∃ y : Half, stored c.dapLo c.dapW y ∧
        exec (.w32SbpiCtrl d) s =
          .next { s with regsA := { s.regsA with dap := some y }, env := s.env.spend }))

/-- R122: USER_ADDR written with `o OR ADDR_EN_MASK` holds `o mod 2^USER_ADDR_W`, whatever it held
before. -/
def Obligations.AddressWriteWraps : Prop :=
  ∀ (s : State) (o : Nat), s.cfg.wf = true → s.gate.isOpen = true → s.cfg.variant = .A →
    fieldsFit s → (∀ a, s.ctlA.pend ≠ some (.user a)) →
    exec (.w32UserAddr (BitVec.ofNat 32 o ||| s.cfg.addrEnMask)) s =
      .next { s with
        regsA := { s.regsA with uaddr := some (BitVec.ofNat 16 (o % 2 ^ s.cfg.userAddrW)) } }

/-- R160: the DAP select. With no start in D and nothing pending, the DAP field takes D's bits
where their mask bits are 1, a field that holds none among them where every mask bit is 1; with every
mask bit of the field 0 it is unchanged. A write that selects or starts while an operation is pending
faults `BusyWrite`; one that does neither is harmless. -/
def Obligations.SbpiCtrlSelectsTheDapAddress : Prop :=
  ∀ (s : State) (d : Word), s.cfg.wf = true → s.gate.isOpen = true → s.cfg.variant = .A →
    let start := d.getLsbD (16 + s.cfg.sbpiEnBit.val) && d.getLsbD s.cfg.sbpiEnBit.val
    let select := ∃ i, i < s.cfg.dapW ∧ d.getLsbD (16 + s.cfg.dapLo + i) = true
    (s.ctlA.pend ≠ none → start = true ∨ select →
      exec (.w32SbpiCtrl d) s = .next { s with faults := s.faults.add .busyWrite }) ∧
    (start = false → ¬select → exec (.w32SbpiCtrl d) s = .next s) ∧
    (s.ctlA.pend = none → start = false → ∀ old, s.regsA.dap = some old →
      ∃ y : Half,
        exec (.w32SbpiCtrl d) s = .next { s with regsA := { s.regsA with dap := some y } } ∧
        (∀ i, i < s.cfg.dapW →
          y.getLsbD i =
            if d.getLsbD (16 + s.cfg.dapLo + i) then d.getLsbD (s.cfg.dapLo + i)
            else old.getLsbD i) ∧
        ∀ i, s.cfg.dapW ≤ i → y.getLsbD i = old.getLsbD i) ∧
    (s.ctlA.pend = none → start = false → s.regsA.dap = none →
      (∀ i, i < s.cfg.dapW → d.getLsbD (16 + s.cfg.dapLo + i) = true) →
      ∃ y : Half,
        exec (.w32SbpiCtrl d) s = .next { s with regsA := { s.regsA with dap := some y } } ∧
        ∀ i, y.getLsbD i = (decide (i < s.cfg.dapW) && d.getLsbD (s.cfg.dapLo + i)))

/-- R160, R265: the start. With nothing pending, a set enable pulse stores the DAP field the word
selects, issues the documented ECC write the registers then hold, and refuses any other command with
no effect, not even the select (log entry 13). `y` is the field the select leaves: D's bits where
their mask bits are 1, the old bits elsewhere, the next draw's where the field held none and part of
it is kept (log entry 12). -/
def Obligations.SbpiStartIssuesOnlyTheEccWrite : Prop :=
  ∀ (s : State) (d : Word), s.cfg.wf = true → s.gate.isOpen = true → s.cfg.variant = .A →
    s.ctlA.pend = none →
    d.getLsbD (16 + s.cfg.sbpiEnBit.val) = true → d.getLsbD s.cfg.sbpiEnBit.val = true →
    let c := s.cfg
    let select := ∃ i, i < c.dapW ∧ d.getLsbD (16 + c.dapLo + i) = true
    let part := s.regsA.dap = none ∧ select ∧
      ∃ i, i < c.dapW ∧ d.getLsbD (16 + c.dapLo + i) = false
    ∃ (y : Option Half) (e : Env),
      (∀ old, s.regsA.dap = some old → ∃ z, y = some z ∧
        (∀ i, i < c.dapW → z.getLsbD i =
          if d.getLsbD (16 + c.dapLo + i) then d.getLsbD (c.dapLo + i) else old.getLsbD i) ∧
        ∀ i, c.dapW ≤ i → z.getLsbD i = old.getLsbD i) ∧
      (s.regsA.dap = none → select → ∃ z, y = some z ∧
        (∀ i, i < c.dapW → z.getLsbD i =
          if d.getLsbD (16 + c.dapLo + i) then d.getLsbD (c.dapLo + i) else s.fresh.getLsbD i) ∧
        ∀ i, c.dapW ≤ i → z.getLsbD i = false) ∧
      (s.regsA.dap = none → ¬select → y = none) ∧
      (part → e = s.env.spend) ∧ (¬part → e = s.env) ∧
      let ready := s.regsA.cmdValid = some c.cmdValidValue ∧ y = some c.dapEcc ∧
        s.regsA.cmd0 = some c.sbpiCmd0Word ∧
        (s.regsA.cmd1 = some c.sbpiCmd1Off ∨ s.regsA.cmd1 = some c.sbpiCmd1On)
      (ready → ∀ c1, s.regsA.cmd1 = some c1 →
        exec (.w32SbpiCtrl d) s = .next
          { s with
            regsA := { s.regsA with dap := y },
            ctlA := { s.ctlA with pend := some (.sbpi c.dapEcc c.sbpiCmd0Word c1) },
            statusReads := 0, env := e }) ∧
      (¬ready → exec (.w32SbpiCtrl d) s = .next
        { s with
          refused := if s.refused.isSome then s.refused else some .sbpiCommandUnsupported })

/-- R163: the whole rule of a USER_CTRL write with the guard passed: masked out, busy, entering,
staying on, leaving. -/
def Obligations.UserCtrlEntersAndLeavesUserMode : Prop :=
  ∀ (s : State) (d : Word), s.gate.isOpen = true → s.cfg.variant = .A →
    let enabled := d.getLsbD (16 + s.cfg.useUserBit.val) = true
    let on := d.getLsbD s.cfg.useUserBit.val = true
    let busy := ∃ a, s.ctlA.pend = some (.user a)
    let run := exec (.w32UserCtrl d) s
    (¬enabled → run = .next s) ∧
    (enabled → busy → run = .next { s with faults := s.faults.add .busyWrite }) ∧
    (enabled → ¬busy → on → s.regsA.useUser = false → run = .next
      { s with
        regsA := { s.regsA with useUser := true },
        ctlA := { s.ctlA with userOnAt := some s.now } }) ∧
    (enabled → ¬busy → on → s.regsA.useUser = true → run = .next s) ∧
    (enabled → ¬busy → ¬on → run = .next
      { s with
        regsA := { s.regsA with useUser := false },
        ctlA := { s.ctlA with userOnAt := none } })

/-- R164, R302: the whole rule of a USER_ENABLE write with the guard passed: no pulse, then the
tests in order, then one user read issued. -/
def Obligations.UserEnablePulseIssuesAUserRead : Prop :=
  ∀ (s : State) (d : Word), s.gate.isOpen = true → s.cfg.variant = .A → timesFit s →
    let pulse := d.getLsbD (16 + s.cfg.fsmEnBit.val) = true ∧
      d.getLsbD s.cfg.fsmEnBit.val = true
    let faulted (k : FaultKind) : Host.Outcome State Fault Refusal :=
      .next { s with faults := s.faults.add k }
    let run := exec (.w32UserEnable d) s
    (¬pulse → run = .next s) ∧
    (pulse → s.ctlA.pend ≠ none → run = faulted .busyWrite) ∧
    (pulse → s.ctlA.pend = none → s.regsA.useUser = false → run = faulted .userModeOff) ∧
    (pulse → s.ctlA.pend = none → s.regsA.useUser = true →
      ∃ t0, s.ctlA.userOnAt = some t0 ∧ t0 ≤ s.now ∧
        (s.now < t0 + 5 → run = faulted .settleViolation) ∧
        (t0 + 5 ≤ s.now →
          (∀ a, s.regsA.uaddr = some a → run = .next
            { s with ctlA := { s.ctlA with pend := some (.user a) }, statusReads := 0 }) ∧
          (s.regsA.uaddr = none → ∃ a : Half, a.toNat < 2 ^ s.cfg.userAddrW ∧ run = .next
            { s with
              ctlA := { s.ctlA with pend := some (.user a) }, statusReads := 0,
              env := s.env.spend })))

/-! ### Reads -/

/-- R131: a read of MODE_CTRL gives the code of the stable mode, whatever is pending. -/
def Obligations.ModeCtrlReadsTheStableMode : Prop :=
  ∀ (s : State) (n : Var), s.gate.isOpen = true → s.cfg.variant = .B →
    exec (.r32ModeCtrl n) s = .next
      { s with
        v := s.v.set n (some
          (match s.ctlB.mode with
          | .DS => s.cfg.encDS
          | .SB => s.cfg.encSB
          | .ACT => s.cfg.encACT)),
        env := s.env.spend }

/-- R105, R120: a read of a status register shows every known bit as held and takes every other
bit from the read's draw; it clears nothing. -/
def Obligations.StatusReadShowsTheKnownBits : Prop :=
  (∀ (s : State) (n : Var), s.cfg.wf = true → s.gate.isOpen = true → s.cfg.variant = .B →
    ∃ x : Word,
      exec (.r32IrqSt n) s = .next
        { s with
          v := s.v.set n (some x), env := s.env.spend,
          statusReads := if s.ctlB.pend = none then s.statusReads else s.statusReads + 1 } ∧
      (∀ b v, s.regsB.irqSt.get b = some v → x.getLsbD (s.cfg.irqPos b) = v) ∧
      ∀ i, (∀ b, i = s.cfg.irqPos b → s.regsB.irqSt.get b = none) →
        x.getLsbD i = s.fresh.getLsbD i) ∧
  (∀ (s : State) (n : Var), s.cfg.wf = true → s.gate.isOpen = true → s.cfg.variant = .A →
    ∃ x : Word,
      exec (.r32IntStatus n) s = .next
        { s with
          v := s.v.set n (some x), env := s.env.spend,
          statusReads := if s.ctlA.pend = none then s.statusReads else s.statusReads + 1 } ∧
      (∀ b v, s.regsA.intStatus.get b = some v → x.getLsbD (s.cfg.intPos b) = v) ∧
      ∀ i, (∀ b, i = s.cfg.intPos b → s.regsA.intStatus.get b = none) →
        x.getLsbD i = s.fresh.getLsbD i)

/-- R107, R109: ACCESS_ADDR and REPR_RD_TRANS_NUM read back what they hold; bits above the
address field, and a field that holds none, are the read's draw. -/
def Obligations.ReadParametersReadBack : Prop :=
  ∀ (s : State) (n : Var), s.gate.isOpen = true → s.cfg.variant = .B →
    let gives (i : Instr) (x : Word) : Prop :=
      exec i s = .next { s with v := s.v.set n (some x), env := s.env.spend }
    (∃ x : Word, gives (.r32AccessAddr n) x ∧
      (∀ a, s.regsB.accessAddr = some a → ∀ i, i < s.cfg.accessAddrW →
        x.getLsbD i = a.getLsbD i) ∧
      (∀ i, s.cfg.accessAddrW ≤ i ∨ s.regsB.accessAddr = none →
        x.getLsbD i = s.fresh.getLsbD i)) ∧
    gives (.r32ReprRdTransNum n) (s.regsB.transNum.getD s.fresh)

/-- R110: a read of RD_DATA gives the word of the last completed read-access, and a draw while a
read-access is pending or before any has completed. -/
def Obligations.RdDataReadsTheLastWord : Prop :=
  ∀ (s : State) (n : Var), s.gate.isOpen = true → s.cfg.variant = .B →
    let gives (x : Word) : Prop :=
      exec (.r32RdData n) s = .next { s with v := s.v.set n (some x), env := s.env.spend }
    (∀ d, s.regsB.rdData = some d → (∀ w, s.ctlB.pend ≠ some (.read w)) → gives d) ∧
    ((∃ w, s.ctlB.pend = some (.read w)) ∨ s.regsB.rdData = none → gives s.fresh)

/-- R114, R116, R118, R123: the stored fields of variant A read back what they hold; the other
bits, and a field that holds none, are the read's draw. -/
def Obligations.VariantAFieldsReadBack : Prop :=
  ∀ (s : State) (n : Var), s.gate.isOpen = true → s.cfg.variant = .A →
    let gives (i : Instr) (x : Word) : Prop :=
      exec i s = .next { s with v := s.v.set n (some x), env := s.env.spend }
    (∃ x : Word, gives (.r32SbpiCmdValidPre n) x ∧
      (∀ a, s.regsA.cmdValid = some a → ∀ i, i < 16 → x.getLsbD i = a.getLsbD i) ∧
      (∀ i, 16 ≤ i ∨ s.regsA.cmdValid = none → x.getLsbD i = s.fresh.getLsbD i)) ∧
    gives (.r32SbpiCmd0 n) (s.regsA.cmd0.getD s.fresh) ∧
    gives (.r32SbpiCmd1 n) (s.regsA.cmd1.getD s.fresh) ∧
    (∃ x : Word, gives (.r32UserAddr n) x ∧
      (∀ a, s.regsA.uaddr = some a → ∀ i, i < s.cfg.userAddrW → i < 16 →
        x.getLsbD i = a.getLsbD i) ∧
      (∀ i, s.cfg.userAddrW ≤ i ∨ s.regsA.uaddr = none → x.getLsbD i = s.fresh.getLsbD i))

/-- R112, R121, R124: the control registers of variant A show their stored field, 0 at a pulse,
and the read's draw elsewhere. SBPI_CTRL's pulse reads 0 even where the configuration puts it inside
the DAP field (log entry 23, the model's choice). -/
def Obligations.ControlRegistersReadTheirFields : Prop :=
  ∀ (s : State) (n : Var), s.cfg.wf = true → s.gate.isOpen = true → s.cfg.variant = .A →
    let gives (i : Instr) (x : Word) : Prop :=
      exec i s = .next { s with v := s.v.set n (some x), env := s.env.spend }
    (∃ x : Word, gives (.r32SbpiCtrl n) x ∧ x.getLsbD s.cfg.sbpiEnBit.val = false ∧
      (∀ a, s.regsA.dap = some a → ∀ i, i < s.cfg.dapW →
        s.cfg.dapLo + i ≠ s.cfg.sbpiEnBit.val →
        x.getLsbD (s.cfg.dapLo + i) = a.getLsbD i) ∧
      ∀ j, j ≠ s.cfg.sbpiEnBit.val →
        j < s.cfg.dapLo ∨ s.cfg.dapLo + s.cfg.dapW ≤ j ∨ s.regsA.dap = none →
        x.getLsbD j = s.fresh.getLsbD j) ∧
    (∃ x : Word, gives (.r32UserCtrl n) x ∧
      x.getLsbD s.cfg.useUserBit.val = s.regsA.useUser ∧
      ∀ j, j ≠ s.cfg.useUserBit.val → x.getLsbD j = s.fresh.getLsbD j) ∧
    (∃ x : Word, gives (.r32UserEnable n) x ∧ x.getLsbD s.cfg.fsmEnBit.val = false ∧
      ∀ j, j ≠ s.cfg.fsmEnBit.val → x.getLsbD j = s.fresh.getLsbD j)

/-- R125, R126: an 8-bit read of USER_Q gives the byte of the last completed user read,
zero-extended, and a draw while a user read is pending or before any has completed; a 32-bit read
gives the same byte under 24 drawn bits. -/
def Obligations.UserQReadsTheLastByte : Prop :=
  ∀ (s : State) (n : Var), s.gate.isOpen = true → s.cfg.variant = .A →
    ∃ b : Byte,
      (∀ q, s.regsA.q = some q → (∀ a, s.ctlA.pend ≠ some (.user a)) → b = q) ∧
      ((∃ a, s.ctlA.pend = some (.user a)) ∨ s.regsA.q = none → b = s.fresh.setWidth 8) ∧
      exec (.r8UserQ n) s =
        .next { s with v := s.v.set n (some (b.setWidth 32)), env := s.env.spend } ∧
      ∃ x : Word,
        exec (.r32UserQ n) s = .next { s with v := s.v.set n (some x), env := s.env.spend } ∧
        x.setWidth 8 = b ∧ ∀ i, 8 ≤ i → x.getLsbD i = s.fresh.getLsbD i

/-! ### Frames -/

/-- R66: a register read changes no register, controller, gate or memory state, and no variable
but its own; beside the sticky faults only the model's own draw supply and status-read count
move. -/
def Obligations.ReadsChangeOnlyTheirVariable : Prop :=
  ∀ (s t : State) (r : Reg) (n : Var) (i : Instr),
    i = r32Row r n ∨ i = r8Row r n → exec i s = .next t →
    t = { s with v := t.v, faults := t.faults, statusReads := t.statusReads, env := t.env } ∧
      (∀ m, m ≠ n → t.getVar m = s.getVar m) ∧ sameBytes s t

/-- The frame of variant B's writes: each changes its own field, or the pending operation, and
the sticky marks; nothing else of the block, no variable, no byte. -/
def Obligations.VariantBWritesChangeOnlyTheirField : Prop :=
  ∀ (s t : State) (d : Word),
    (exec (.w32ModeCtrl d) s = .next t →
      t = { s with
        ctlB := { s.ctlB with pend := t.ctlB.pend }, statusReads := t.statusReads,
        faults := t.faults, refused := t.refused, env := t.env } ∧ sameBytes s t) ∧
    (exec (.w32IrqSt d) s = .next t →
      t = { s with regsB := { s.regsB with irqSt := t.regsB.irqSt }, faults := t.faults } ∧
        sameBytes s t) ∧
    (exec (.w32AccessAddr d) s = .next t →
      t = { s with
        regsB := { s.regsB with accessAddr := t.regsB.accessAddr }, faults := t.faults } ∧
        sameBytes s t) ∧
    (exec (.w32RdData d) s = .next t → t = { s with faults := t.faults } ∧ sameBytes s t) ∧
    (exec (.w32ReprRdTransNum d) s = .next t →
      t = { s with
        regsB := { s.regsB with transNum := t.regsB.transNum }, faults := t.faults } ∧
        sameBytes s t)

/-- The frame of variant A's writes. -/
def Obligations.VariantAWritesChangeOnlyTheirField : Prop :=
  ∀ (s t : State) (d : Word),
    (exec (.w32SbpiCtrl d) s = .next t →
      t = { s with
        regsA := { s.regsA with dap := t.regsA.dap },
        ctlA := { s.ctlA with pend := t.ctlA.pend }, statusReads := t.statusReads,
        faults := t.faults, refused := t.refused, env := t.env } ∧ sameBytes s t) ∧
    (exec (.w32SbpiCmdValidPre d) s = .next t →
      t = { s with
        regsA := { s.regsA with cmdValid := t.regsA.cmdValid }, faults := t.faults,
        env := t.env } ∧ sameBytes s t) ∧
    (exec (.w32SbpiCmd0 d) s = .next t →
      t = { s with regsA := { s.regsA with cmd0 := t.regsA.cmd0 }, faults := t.faults } ∧
        sameBytes s t) ∧
    (exec (.w32SbpiCmd1 d) s = .next t →
      t = { s with regsA := { s.regsA with cmd1 := t.regsA.cmd1 }, faults := t.faults } ∧
        sameBytes s t) ∧
    (exec (.w32IntStatus d) s = .next t →
      t = { s with
        regsA := { s.regsA with intStatus := t.regsA.intStatus }, faults := t.faults } ∧
        sameBytes s t) ∧
    (exec (.w32UserCtrl d) s = .next t →
      t = { s with
        regsA := { s.regsA with useUser := t.regsA.useUser },
        ctlA := { s.ctlA with userOnAt := t.ctlA.userOnAt }, faults := t.faults } ∧
        sameBytes s t) ∧
    (exec (.w32UserAddr d) s = .next t →
      t = { s with
        regsA := { s.regsA with uaddr := t.regsA.uaddr }, faults := t.faults, env := t.env } ∧
        sameBytes s t) ∧
    (exec (.w32UserEnable d) s = .next t →
      t = { s with
        ctlA := { s.ctlA with pend := t.ctlA.pend }, statusReads := t.statusReads,
        faults := t.faults, env := t.env } ∧ sameBytes s t) ∧
    (exec (.w32UserQ d) s = .next t → t = { s with faults := t.faults } ∧ sameBytes s t)

/-- The frame of a poll, line by line. A read, the first one of a `waitfor` among them, changes the
poll's own position, its variable, the fault set and the model's own fields (a `waitfor` on the other
variant's register the refusal alone); a delay the position and `now`; the acknowledge the status
register it writes, the variable and the fault set. None changes the gate, the controller, another
register, another variable or a byte. That the acknowledge's step also leaves 1 in the variable, a line
of its own in R190, is log entry 9's grouping, the model's choice. -/
def Obligations.PollChangesOnlyItsVariantAndTime : Prop :=
  (∀ (s t : State) (n : Var) (m : Word),
    exec (.waitforIrqSt n m) s = .next t ∨ exec (.waitforIntStatus n m) s = .next t →
    t = { s with
      poll := t.poll, v := t.v, faults := t.faults, refused := t.refused,
      statusReads := t.statusReads, env := t.env } ∧
    (∀ k, k ≠ n → t.getVar k = s.getVar k) ∧ sameBytes s t) ∧
  ∀ (s : State) (p : Poll),
    let t := pollStep p s
    (p.line = .read → t = { s with
      poll := t.poll, v := t.v, faults := t.faults, statusReads := t.statusReads,
      env := t.env }) ∧
    (p.line = .delay → t = { s with
      poll := some { p with delays := p.delays + 1, line := .read }, now := s.now + 1 }) ∧
    (p.line = .acknowledge → p.status = .irqSt → t = { s with
      poll := none, v := s.v.set p.dst (some 1), faults := t.faults,
      regsB := { s.regsB with irqSt := t.regsB.irqSt } }) ∧
    (p.line = .acknowledge → p.status = .intStatus → t = { s with
      poll := none, v := s.v.set p.dst (some 1), faults := t.faults,
      regsA := { s.regsA with intStatus := t.regsA.intStatus } }) ∧
    (∀ k, k ≠ p.dst → t.getVar k = s.getVar k) ∧ sameBytes s t

/-! ### System operations -/

/-- R200, R201, R204: the clock service calls and the delay, each with its whole next state. The
answer of the service is the low bit of the next draw. -/
def Obligations.ClocksAndDelay : Prop :=
  (∀ (s : State) (n : Var) (d : Domain),
    (s.fresh.getLsbD 0 = true → ∃ g : Gate,
      exec (.clkon n d) s =
        .next { s with gate := g, v := s.v.set n (some 1), env := s.env.spend } ∧
      g.clk d = true ∧ (∀ e, e ≠ d → g.clk e = s.gate.clk e) ∧ g.rst = s.gate.rst ∧
        g.rstAt = s.gate.rstAt) ∧
    (s.fresh.getLsbD 0 = false →
      exec (.clkon n d) s = .next { s with v := s.v.set n (some 0), env := s.env.spend })) ∧
  (∀ (s : State) (d : Domain), ∃ g : Gate,
    exec (.clkoff d) s = .next { s with gate := g } ∧
      g.clk d = false ∧ (∀ e, e ≠ d → g.clk e = s.gate.clk e) ∧ g.rst = s.gate.rst ∧
        g.rstAt = s.gate.rstAt) ∧
  (∀ (s : State) (n : BitVec 16),
    exec (.delay n) s = .next { s with now := s.now + n.toNat })

/-- R202: asserting the PHY reset: on ok the line is asserted and the time of the first assertion
held; on fail only the variable says so. -/
def Obligations.ResetAssertHoldsTheTime : Prop :=
  ∀ (s : State) (n : Var),
    (s.fresh.getLsbD 0 = true →
      exec (.rsta n) s = .next
        { s with
          gate := { s.gate with
            rst := true, rstAt := if s.gate.rst = true then s.gate.rstAt else some s.now },
          v := s.v.set n (some 1), env := s.env.spend }) ∧
    (s.fresh.getLsbD 0 = false →
      exec (.rsta n) s = .next { s with v := s.v.set n (some 0), env := s.env.spend })

/-- R203, R290, R301: deasserting the PHY reset. Held for fewer than 2 time-units it records
`ResetHoldViolation` and stops (R267, vectors G7 and G8, log entry 11). Otherwise fail leaves the
line; ok deasserts it, and resets the controller if it was asserted: the live variant's registers and
controller alone (log entry 18, the reading of R290 that R49 asks for). -/
def Obligations.ResetDeassertResetsTheController : Prop :=
  ∀ (s : State) (n : Var),
    (∀ t0, s.gate.rst = true → s.gate.rstAt = some t0 → s.now - t0 < 2 →
      exec (.rstd n) s = .next { s with faults := s.faults.add .resetHoldViolation }) ∧
    (s.gate.rst = false ∨ (∃ t0, s.gate.rstAt = some t0 ∧ 2 ≤ s.now - t0) →
      (s.fresh.getLsbD 0 = false →
        exec (.rstd n) s = .next { s with v := s.v.set n (some 0), env := s.env.spend }) ∧
      (s.fresh.getLsbD 0 = true → s.gate.rst = false →
        exec (.rstd n) s = .next
          { s with
            gate := { s.gate with rst := false, rstAt := none },
            v := s.v.set n (some 1), env := s.env.spend }) ∧
      (s.fresh.getLsbD 0 = true → s.gate.rst = true → ∃ t : State,
        exec (.rstd n) s = .next t ∧
        t = { s with
          gate := { s.gate with rst := false, rstAt := none },
          v := s.v.set n (some 1), env := s.env.spend.spend, statusReads := 0,
          regsB := t.regsB, ctlB := t.ctlB, regsA := t.regsA, ctlA := t.ctlA } ∧
        (s.cfg.variant = .B →
          t.regsA = s.regsA ∧ t.ctlA = s.ctlA ∧ t.ctlB.pend = none ∧
          t.regsB.transNum = none ∧ t.regsB.accessAddr = none ∧ t.regsB.rdData = none ∧
          ∀ b, t.regsB.irqSt.get b =
            if s.cfg.statusReset = .zero then some false else none) ∧
        (s.cfg.variant = .A →
          t.regsB = s.regsB ∧ t.ctlB = s.ctlB ∧ t.ctlA.pend = none ∧
          t.ctlA.userOnAt = none ∧ t.regsA.useUser = false ∧ t.regsA.dap = none ∧
          t.regsA.cmdValid = none ∧ t.regsA.cmd0 = none ∧ t.regsA.cmd1 = none ∧
          t.regsA.uaddr = none ∧ t.regsA.q = none ∧
          ∀ b, t.regsA.intStatus.get b =
            if s.cfg.statusReset = .zero then some false else none)))

/-- R291, R292: the launch state: gate off, time 0, no mark, the register fields at their reset
values, no variable or buffer with a value; a launch with two hosts is refused (R77, R265), and that it
holds no program is the model's choice (log entry 22). -/
def Obligations.LaunchLeavesTheResetValues : Prop :=
  ∀ (c : Cfg) (a b : Memory) (e : Env) (hosts : List (List Word)),
    let s := State.launch c a b e hosts
    (∀ d, s.gate.clk d = false) ∧ s.gate.rst = false ∧ s.gate.rstAt = none ∧ s.now = 0 ∧
    (∀ k, s.faults.has k = false) ∧
    s.ctlB.pend = none ∧ s.ctlA.pend = none ∧ s.ctlA.userOnAt = none ∧
    s.regsA.useUser = false ∧
    s.regsB.transNum = none ∧ s.regsB.accessAddr = none ∧ s.regsB.rdData = none ∧
    s.regsA.dap = none ∧ s.regsA.cmdValid = none ∧ s.regsA.cmd0 = none ∧
    s.regsA.cmd1 = none ∧ s.regsA.uaddr = none ∧ s.regsA.q = none ∧
    (∀ x, s.regsB.irqSt.get x = if c.statusReset = .zero then some false else none) ∧
    (∀ x, s.regsA.intStatus.get x = if c.statusReset = .zero then some false else none) ∧
    (∀ n, s.getVar n = none) ∧ (∀ i, s.out.read i = none) ∧ s.scratch = [] ∧ s.poll = none ∧
    (hosts.length ≤ 1 → s.refused = none) ∧
    (2 ≤ hosts.length → s.refused = some .concurrentHost ∧ s.program = [])

/-! ### Completions -/

/-- R132, R133, R134: the completion of variant B's pending operation: the target mode and the
status bit together, nothing pending any more; a read-access leaves the mode and puts the fuse
word, or a draw where the address is not readable, into RD_DATA. -/
def Obligations.CompletionOfVariantB : Prop :=
  ∀ (s : State) (p : PendB), s.cfg.variant = .B → s.ctlB.pend = some p →
    ∃ q : IrqSt,
      (∀ b, q.get b =
        if b = (match p with
          | .dpToStb => IrqBit.dp2stb
          | .stbToAct => .stb2act
          | .actToStb => .act2stb
          | .stbToDp => .stb2dp
          | .read _ => .rdm) then some true else s.regsB.irqSt.get b) ∧
      match p with
      | .read w =>
        (224 ≤ w.toNat → w.toNat < s.cfg.otpWords →
          complete s =
            { s with
              ctlB := { s.ctlB with pend := none },
              regsB := { s.regsB with rdData := some (s.fuseB w.toNat), irqSt := q },
              statusReads := 0 }) ∧
        (w.toNat < 224 ∨ s.cfg.otpWords ≤ w.toNat →
          complete s =
            { s with
              ctlB := { s.ctlB with pend := none },
              regsB := { s.regsB with rdData := some s.fresh, irqSt := q },
              statusReads := 0, env := s.env.spend })
      | t =>
        complete s =
          { s with
            ctlB :=
              { mode := (match t with
                  | .dpToStb => .SB
                  | .stbToAct => .ACT
                  | .actToStb => .SB
                  | .stbToDp => .DS
                  | .read _ => .ACT),
                pend := none },
            regsB := { s.regsB with irqSt := q }, statusReads := 0 }

/-- R161, R162, R165: the completion of variant A's pending operation: the ECC state as the
payload says and SBPI_DONE; or the fuse byte, a draw with ECC on or past the array, and
USER_DONE. -/
def Obligations.CompletionOfVariantA : Prop :=
  ∀ s : State, s.cfg.wf = true → s.cfg.variant = .A →
    (∀ d c0 c1, s.ctlA.pend = some (.sbpi d c0 c1) →
      c1 = s.cfg.sbpiCmd1Off ∨ c1 = s.cfg.sbpiCmd1On →
      complete s =
        { s with
          ctlA := { s.ctlA with eccEn := decide (c1 = s.cfg.sbpiCmd1On), pend := none },
          regsA := { s.regsA with
            intStatus := { s.regsA.intStatus with sbpiDone := some true } },
          statusReads := 0 }) ∧
    (∀ a, s.ctlA.pend = some (.user a) →
      (s.ctlA.eccEn = false → a.toNat < s.cfg.otpBytes →
        complete s =
          { s with
            ctlA := { s.ctlA with pend := none },
            regsA := { s.regsA with
              q := some (s.fuseA a.toNat),
              intStatus := { s.regsA.intStatus with userDone := some true } },
            statusReads := 0 }) ∧
      (s.ctlA.eccEn = true ∨ s.cfg.otpBytes ≤ a.toNat →
        complete s =
          { s with
            ctlA := { s.ctlA with pend := none },
            regsA := { s.regsA with
              q := some (s.fresh.setWidth 8),
              intStatus := { s.regsA.intStatus with userDone := some true } },
            statusReads := 0, env := s.env.spend }))

/-! ### The poller -/

/-- R190, R192: a poll that finds a bit of its mask set, with nothing pending, matches at its
first read; the host's next step acknowledges the whole mask and leaves 1 in the variable. Time does
not advance. R190 writes the comparison and the write of 1 as lines of their own: that the one belongs
to the read's step and the other to the acknowledge's is log entry 9, the model's choice. -/
def Obligations.PollMatchesASetBitAtOnce : Prop :=
  (∀ (s : State) (n : Var) (m : Word) (b : IrqBit), s.cfg.wf = true → s.gate.isOpen = true →
    s.cfg.variant = .B → s.ctlB.pend = none →
    s.regsB.irqSt.get b = some true → m.getLsbD (s.cfg.irqPos b) = true →
    ∃ q : IrqSt,
      let t := { s with
        poll := some { status := .irqSt, dst := n, mask := m, delays := 0, line := .acknowledge },
        env := s.env.spend }
      exec (.waitforIrqSt n m) s = .next t ∧
      step t = .next
        { s with
          regsB := { s.regsB with irqSt := q }, v := s.v.set n (some 1), poll := none,
          env := s.env.spend } ∧
      ∀ j, q.get j = if m.getLsbD (s.cfg.irqPos j) then some false else s.regsB.irqSt.get j) ∧
  (∀ (s : State) (n : Var) (m : Word) (b : IntBit), s.cfg.wf = true → s.gate.isOpen = true →
    s.cfg.variant = .A → s.ctlA.pend = none →
    s.regsA.intStatus.get b = some true → m.getLsbD (s.cfg.intPos b) = true →
    ∃ q : IntStatus,
      let t := { s with
        poll := some
          { status := .intStatus, dst := n, mask := m, delays := 0, line := .acknowledge },
        env := s.env.spend }
      exec (.waitforIntStatus n m) s = .next t ∧
      step t = .next
        { s with
          regsA := { s.regsA with intStatus := q }, v := s.v.set n (some 1), poll := none,
          env := s.env.spend } ∧
      ∀ j, q.get j = if m.getLsbD (s.cfg.intPos j) then some false else s.regsA.intStatus.get j)

/-- R190: the steps of a `waitfor`, its lines and the completions between them, come to what
`waitFor`, the poll of the host procedures, comes to: the same state, with 1 in the variable for
Matched and 0 for TimedOut, in at most two steps a read and one more. So what the statements below say
of `waitFor` a program's `waitfor` does. The count of steps rests on how log entry 9 groups R190's lines
into steps, and `waitFor` is log entry 20's function: both the model's choice. -/
def Obligations.WaitforStepsComeToThePollsOutcome : Prop :=
  ∀ (s : State) (r : Reg) (n : Var) (m : Word) (rest : List Word), pollBegins s r n m rest →
    let o := waitFor r m { s with program := rest }
    ∃ k, k ≤ 2 * o.reads + 1 ∧
      stepsTo k s
        { o.state with
          v := o.state.v.set n (some (if o.matched then 1 else 0)), poll := none }

/-- R191, R193: a poll ends, Matched or TimedOut, whatever the controller does. TimedOut means
exactly 10001 reads and 10000 time-units; Matched at read k means k - 1 time-units. -/
def Obligations.PollIsBounded : Prop :=
  ∀ (r : Reg) (m : Word) (s : State),
    ((waitFor r m s).matched = false →
      (waitFor r m s).reads = 10001 ∧ (waitFor r m s).state.now = s.now + 10000) ∧
    ((waitFor r m s).matched = true →
      1 ≤ (waitFor r m s).reads ∧ (waitFor r m s).reads ≤ 10001 ∧
        (waitFor r m s).state.now + 1 = s.now + (waitFor r m s).reads)

/-- R190, R100: a poll with mask 0, and a poll while the register interface is off (a clock off, or
the reset asserted), never match, on either variant; the second records its faults and changes nothing
else. The steps of the `waitfor` end with 0 in the variable, 10000 time-units later. -/
def Obligations.PollTimesOutWithoutAMatch : Prop :=
  ∀ (s : State) (r : Reg) (n : Var) (m : Word) (rest : List Word), pollBegins s r n m rest →
    (m = 0 → ∃ (k : Nat) (t : State), stepsTo k s t ∧
      t.poll = none ∧ t.program = rest ∧ t.getVar n = some 0 ∧ t.now = s.now + 10000) ∧
    (s.gate.isOpen = false → ∃ (k : Nat) (f : FaultSet),
      stepsTo k s
        { s with
          now := s.now + 10000, v := s.v.set n (some 0), faults := f, program := rest } ∧
      ∀ j, f.has j = true ↔
        s.faults.has j = true ∨ (j = .clockOff ∧ s.gate.clocksOn = false) ∨
          (j = .inReset ∧ s.gate.rst = true))

/-- R195: with the awaited bit known clear and its operation pending, a poll for that one bit
that matches has seen the completion: nothing is pending any more and the bit is clear again; one
that times out has not: the operation is still pending. For the operations of both variants. -/
def Obligations.PollOutcomeTellsOfTheCompletion : Prop :=
  (∀ (s : State) (p : PendB), s.cfg.wf = true → s.gate.isOpen = true →
    s.cfg.variant = .B → s.ctlB.pend = some p →
    s.regsB.irqSt.get p.statusBit = some false →
    let o := waitFor .irqSt (bit (s.cfg.irqPos p.statusBit)) s
    (o.matched = true →
      o.state.ctlB.pend = none ∧ o.state.regsB.irqSt.get p.statusBit = some false ∧
        o.state.faults = s.faults) ∧
    (o.matched = false →
      o.state.ctlB = s.ctlB ∧ o.state.regsB = s.regsB ∧ o.state.faults = s.faults)) ∧
  ∀ (s : State) (p : PendA), s.cfg.wf = true → s.gate.isOpen = true →
    s.cfg.variant = .A → s.ctlA.pend = some p →
    s.regsA.intStatus.get p.statusBit = some false →
    let o := waitFor .intStatus (bit (s.cfg.intPos p.statusBit)) s
    (o.matched = true →
      o.state.ctlA.pend = none ∧ o.state.regsA.intStatus.get p.statusBit = some false ∧
        o.state.faults = s.faults) ∧
    (o.matched = false →
      o.state.ctlA = s.ctlA ∧ o.state.regsA = s.regsA ∧ o.state.faults = s.faults)

/-- R135, R190: with `COMPLETION_BOUND = some k` and k at most 10001, a poll for the bit that the
pending operation's completion sets matches, by its k-th read at the latest, whatever the schedule
says. For the operations of both variants. Which reads count is the model's choice (log entry 6). -/
def Obligations.CompletionBoundMakesThePollMatch : Prop :=
  (∀ (s : State) (p : PendB) (k : Nat), s.cfg.wf = true → s.gate.isOpen = true →
    s.cfg.variant = .B → s.ctlB.pend = some p → s.cfg.completionBound = some k →
    1 ≤ k → k ≤ 10001 → s.regsB.irqSt.get p.statusBit = some false →
    let o := waitFor .irqSt (bit (s.cfg.irqPos p.statusBit)) s
    o.matched = true ∧ o.reads ≤ k) ∧
  ∀ (s : State) (p : PendA) (k : Nat), s.cfg.wf = true → s.gate.isOpen = true →
    s.cfg.variant = .A → s.ctlA.pend = some p → s.cfg.completionBound = some k →
    1 ≤ k → k ≤ 10001 → s.regsA.intStatus.get p.statusBit = some false →
    let o := waitFor .intStatus (bit (s.cfg.intPos p.statusBit)) s
    o.matched = true ∧ o.reads ≤ k

/-! ### The host procedures -/

/-- R205, R206, R207: `ACQUIRE` either gives Ready, with every clock on, the reset deasserted and
the controller reset, two time-units later, or leaves no clock on; a clock failure leaves none on
provided none was on before. -/
def Obligations.AcquireIsAllOrNothing : Prop :=
  ∀ (s t : State) (r : CallResult), acquire s = (r, t) →
    (r = .ok →
      (∀ d, t.gate.clk d = true) ∧ t.gate.rst = false ∧ t.gate.rstAt = none ∧
      t.now = s.now + 2 ∧
      (s.cfg.variant = .B →
        t.ctlB.pend = none ∧ t.regsB = RegsB.resetValue s.cfg.statusReset) ∧
      (s.cfg.variant = .A →
        t.ctlA.pend = none ∧ t.regsA = RegsA.resetValue s.cfg.statusReset)) ∧
    (∀ p, r = .resetFailed p → ∀ d, t.gate.clk d = false) ∧
    (∀ f, r = .resourceAcquireFailed f → (∀ d, s.gate.clk d = false) →
      ∀ d, t.gate.clk d = false) ∧
    (r = .ok ∨ (∃ p, r = .resetFailed p) ∨ ∃ f, r = .resourceAcquireFailed f) ∧
    ∀ d, (release s).gate.clk d = false

/-- R140, R142, R143: with nothing pending, every status bit clear and the gate open, a
`WALK_UP` that returns Ok has left the controller active, with nothing pending and every status
bit clear; and a `WALK_DOWN` that returns Ok has left it in deep-standby. No fault is recorded. -/
def Obligations.WalksReachTheirMode : Prop :=
  ∀ s t : State, s.cfg.wf = true → s.gate.isOpen = true → s.cfg.variant = .B →
    s.ctlB.pend = none → (∀ b, s.regsB.irqSt.get b = some false) →
    (walkUp s = (.ok, t) →
      t.ctlB = { mode := .ACT, pend := none } ∧ (∀ b, t.regsB.irqSt.get b = some false) ∧
        t.faults = s.faults) ∧
    (walkDown s = (.ok, t) →
      t.ctlB = { mode := .DS, pend := none } ∧ (∀ b, t.regsB.irqSt.get b = some false) ∧
        t.faults = s.faults)

/-- R230, R232, R237: with the status bits clear after reset, a `READ_B` that returns Ok gives
the clamped number of bytes, each the lane of its word in the fuse array, and changes no other
byte of the buffer. An offset at or past the declared size gives `OutOfRange` and touches
nothing. That the scratch buffer is empty afterwards is log entry 21's reading of R233. -/
def Obligations.ReadBReturnsTheFuseBytes : Prop :=
  ∀ (s : State) (o len : Nat), s.cfg.wf = true → s.cfg.variant = .B →
    (s.cfg.sizeB ≤ o → readB o len s = (.outOfRange, none, s)) ∧
    (∀ (diag : Option CallResult) (t : State), s.cfg.statusReset = .zero → o < s.cfg.sizeB →
      readB o len s = (.ok, diag, t) →
      (∀ i, i < min len (s.cfg.sizeB - o) →
        t.out.read i = some (s.fuseLaneB (224 + (o + i) / 4) ((o + i) % 4))) ∧
      (∀ i, min len (s.cfg.sizeB - o) ≤ i → t.out.read i = s.out.read i) ∧
      (diag = some .ok → t.ctlB.mode = .DS) ∧
      (∀ d, t.gate.clk d = false) ∧ t.scratch = [])

/-- R221, R225: with the status bits clear after reset, a `READ_A` that returns Ok gives the fuse
byte of every address inside the array, with the address wrapping at the field's width, changes
no other byte of the buffer, and leaves user mode off, ECC off and the clocks off. -/
def Obligations.ReadAReturnsTheFuseBytes : Prop :=
  ∀ (s t : State) (o n : Nat), s.cfg.wf = true → s.cfg.variant = .A →
    s.cfg.statusReset = .zero → readA o n s = (.ok, t) →
    (∀ i, i < n → (o + i) % 2 ^ s.cfg.userAddrW < s.cfg.otpBytes →
      t.out.read i = some (s.fuseA ((o + i) % 2 ^ s.cfg.userAddrW))) ∧
    (∀ i, n ≤ i → t.out.read i = s.out.read i) ∧
    t.regsA.useUser = false ∧ t.ctlA.eccEn = false ∧ ∀ d, t.gate.clk d = false

/-- R231, R233: the window is the smallest range of aligned words that covers the requested
bytes, and the lane the copy takes is the byte's own. -/
def Obligations.WindowCoversTheRequest : Prop :=
  ∀ o len : Nat,
    let w := window o len
    4 * w.first + w.inOffset = o ∧ w.inOffset < 4 ∧
    o + len ≤ 4 * (w.first + w.count) ∧
    (0 < len → 4 * (w.first + w.count) < o + len + 4 ∧ 0 < w.count) ∧
    (len = 0 → w.count = if o % 4 = 0 then 0 else 1)

/-! ### Bus form, selector, dispatcher -/

/-- R65, R91, R265: on the bus an access at the address of a register of the variant is that
register's operation (R91); at any other address, or a misaligned one, it is refused `UnmappedOffset`
and has no effect (R65, R265). That the alignment test comes first, for an 8-bit read too, so that with
a misaligned BASE no register has a bus address, is log entry 19's reading. -/
def Obligations.BusAccessIsByAddress : Prop :=
  ∀ (s : State) (d : Word) (n : Var), s.cfg.wf = true →
    (∀ r : Reg, r.variant = s.cfg.variant → s.cfg.base % 4 = 0 →
      exec (w32Row r d) s = .next (busAccess (s.cfg.busAddr r) (.write32 d) s) ∧
      exec (r32Row r n) s = .next (busAccess (s.cfg.busAddr r) (.read32 n) s) ∧
      exec (r8Row r n) s = .next (busAccess (s.cfg.busAddr r) (.read8 n) s)) ∧
    (∀ (a : Nat) (op : BusOp),
      (a % 4 ≠ 0 ∨ ∀ r : Reg, r.variant = s.cfg.variant → s.cfg.busAddr r ≠ a) →
      busAccess a op s =
        { s with refused := if s.refused.isSome then s.refused else some .unmappedOffset })

/-- R240, R241, R47: the selector forces variant B and otherwise keeps the declared one; the
dispatcher calls the engine of the descriptor and returns its result unchanged. -/
def Obligations.DispatcherForwardsToTheEngine : Prop :=
  (∀ v : Variant, effectiveVariant v true = .B ∧ effectiveVariant v false = v) ∧
  ∀ (s : State) (o len : Nat),
    (s.cfg.variant = .A →
      descriptor s.cfg = { size := s.cfg.sizeA, engine := .readA } ∧
        dispatch o len s = readA o len s) ∧
    (s.cfg.variant = .B →
      descriptor s.cfg = { size := s.cfg.sizeB, engine := .readB } ∧
        dispatch o len s = ((readB o len s).1, (readB o len s).2.2))
end

