-- ==== Sys2Proof/Laws/State.lean ====
section
/-! SUPPORT. What each update of the state leaves of each field: one lemma per field per update. -/

namespace Sys2Proof.Machine

@[simp] theorem State.raise_cfg (s : State) (k : FaultKind) : (s.raise k).cfg = s.cfg := rfl
@[simp] theorem State.raise_otpA (s : State) (k : FaultKind) : (s.raise k).otpA = s.otpA := rfl
@[simp] theorem State.raise_otpB (s : State) (k : FaultKind) : (s.raise k).otpB = s.otpB := rfl
@[simp] theorem State.raise_gate (s : State) (k : FaultKind) : (s.raise k).gate = s.gate := rfl
@[simp] theorem State.raise_now (s : State) (k : FaultKind) : (s.raise k).now = s.now := rfl
@[simp] theorem State.raise_faults (s : State) (k : FaultKind) : (s.raise k).faults = s.faults.add k := rfl
@[simp] theorem State.raise_refused (s : State) (k : FaultKind) : (s.raise k).refused = s.refused := rfl
@[simp] theorem State.raise_regsB (s : State) (k : FaultKind) : (s.raise k).regsB = s.regsB := rfl
@[simp] theorem State.raise_ctlB (s : State) (k : FaultKind) : (s.raise k).ctlB = s.ctlB := rfl
@[simp] theorem State.raise_regsA (s : State) (k : FaultKind) : (s.raise k).regsA = s.regsA := rfl
@[simp] theorem State.raise_ctlA (s : State) (k : FaultKind) : (s.raise k).ctlA = s.ctlA := rfl
@[simp] theorem State.raise_statusReads (s : State) (k : FaultKind) : (s.raise k).statusReads = s.statusReads := rfl
@[simp] theorem State.raise_v (s : State) (k : FaultKind) : (s.raise k).v = s.v := rfl
@[simp] theorem State.raise_out (s : State) (k : FaultKind) : (s.raise k).out = s.out := rfl
@[simp] theorem State.raise_scratch (s : State) (k : FaultKind) : (s.raise k).scratch = s.scratch := rfl
@[simp] theorem State.raise_program (s : State) (k : FaultKind) : (s.raise k).program = s.program := rfl
@[simp] theorem State.raise_poll (s : State) (k : FaultKind) : (s.raise k).poll = s.poll := rfl
@[simp] theorem State.raise_env (s : State) (k : FaultKind) : (s.raise k).env = s.env := rfl

@[simp] theorem State.refuse_cfg (s : State) (k : RefusalKind) : (s.refuse k).cfg = s.cfg := rfl
@[simp] theorem State.refuse_otpA (s : State) (k : RefusalKind) : (s.refuse k).otpA = s.otpA := rfl
@[simp] theorem State.refuse_otpB (s : State) (k : RefusalKind) : (s.refuse k).otpB = s.otpB := rfl
@[simp] theorem State.refuse_gate (s : State) (k : RefusalKind) : (s.refuse k).gate = s.gate := rfl
@[simp] theorem State.refuse_now (s : State) (k : RefusalKind) : (s.refuse k).now = s.now := rfl
@[simp] theorem State.refuse_faults (s : State) (k : RefusalKind) : (s.refuse k).faults = s.faults := rfl
@[simp] theorem State.refuse_refused (s : State) (k : RefusalKind) : (s.refuse k).refused = if s.refused.isSome then s.refused else some k := rfl
@[simp] theorem State.refuse_regsB (s : State) (k : RefusalKind) : (s.refuse k).regsB = s.regsB := rfl
@[simp] theorem State.refuse_ctlB (s : State) (k : RefusalKind) : (s.refuse k).ctlB = s.ctlB := rfl
@[simp] theorem State.refuse_regsA (s : State) (k : RefusalKind) : (s.refuse k).regsA = s.regsA := rfl
@[simp] theorem State.refuse_ctlA (s : State) (k : RefusalKind) : (s.refuse k).ctlA = s.ctlA := rfl
@[simp] theorem State.refuse_statusReads (s : State) (k : RefusalKind) : (s.refuse k).statusReads = s.statusReads := rfl
@[simp] theorem State.refuse_v (s : State) (k : RefusalKind) : (s.refuse k).v = s.v := rfl
@[simp] theorem State.refuse_out (s : State) (k : RefusalKind) : (s.refuse k).out = s.out := rfl
@[simp] theorem State.refuse_scratch (s : State) (k : RefusalKind) : (s.refuse k).scratch = s.scratch := rfl
@[simp] theorem State.refuse_program (s : State) (k : RefusalKind) : (s.refuse k).program = s.program := rfl
@[simp] theorem State.refuse_poll (s : State) (k : RefusalKind) : (s.refuse k).poll = s.poll := rfl
@[simp] theorem State.refuse_env (s : State) (k : RefusalKind) : (s.refuse k).env = s.env := rfl

@[simp] theorem State.spend_cfg (s : State) : (s.spend).cfg = s.cfg := rfl
@[simp] theorem State.spend_otpA (s : State) : (s.spend).otpA = s.otpA := rfl
@[simp] theorem State.spend_otpB (s : State) : (s.spend).otpB = s.otpB := rfl
@[simp] theorem State.spend_gate (s : State) : (s.spend).gate = s.gate := rfl
@[simp] theorem State.spend_now (s : State) : (s.spend).now = s.now := rfl
@[simp] theorem State.spend_faults (s : State) : (s.spend).faults = s.faults := rfl
@[simp] theorem State.spend_refused (s : State) : (s.spend).refused = s.refused := rfl
@[simp] theorem State.spend_regsB (s : State) : (s.spend).regsB = s.regsB := rfl
@[simp] theorem State.spend_ctlB (s : State) : (s.spend).ctlB = s.ctlB := rfl
@[simp] theorem State.spend_regsA (s : State) : (s.spend).regsA = s.regsA := rfl
@[simp] theorem State.spend_ctlA (s : State) : (s.spend).ctlA = s.ctlA := rfl
@[simp] theorem State.spend_statusReads (s : State) : (s.spend).statusReads = s.statusReads := rfl
@[simp] theorem State.spend_v (s : State) : (s.spend).v = s.v := rfl
@[simp] theorem State.spend_out (s : State) : (s.spend).out = s.out := rfl
@[simp] theorem State.spend_scratch (s : State) : (s.spend).scratch = s.scratch := rfl
@[simp] theorem State.spend_program (s : State) : (s.spend).program = s.program := rfl
@[simp] theorem State.spend_poll (s : State) : (s.spend).poll = s.poll := rfl
@[simp] theorem State.spend_env (s : State) : (s.spend).env = s.env.spend := rfl

@[simp] theorem State.setVar_cfg (s : State) (n : Var) (x : Option Word) : (s.setVar n x).cfg = s.cfg := rfl
@[simp] theorem State.setVar_otpA (s : State) (n : Var) (x : Option Word) : (s.setVar n x).otpA = s.otpA := rfl
@[simp] theorem State.setVar_otpB (s : State) (n : Var) (x : Option Word) : (s.setVar n x).otpB = s.otpB := rfl
@[simp] theorem State.setVar_gate (s : State) (n : Var) (x : Option Word) : (s.setVar n x).gate = s.gate := rfl
@[simp] theorem State.setVar_now (s : State) (n : Var) (x : Option Word) : (s.setVar n x).now = s.now := rfl
@[simp] theorem State.setVar_faults (s : State) (n : Var) (x : Option Word) : (s.setVar n x).faults = s.faults := rfl
@[simp] theorem State.setVar_refused (s : State) (n : Var) (x : Option Word) : (s.setVar n x).refused = s.refused := rfl
@[simp] theorem State.setVar_regsB (s : State) (n : Var) (x : Option Word) : (s.setVar n x).regsB = s.regsB := rfl
@[simp] theorem State.setVar_ctlB (s : State) (n : Var) (x : Option Word) : (s.setVar n x).ctlB = s.ctlB := rfl
@[simp] theorem State.setVar_regsA (s : State) (n : Var) (x : Option Word) : (s.setVar n x).regsA = s.regsA := rfl
@[simp] theorem State.setVar_ctlA (s : State) (n : Var) (x : Option Word) : (s.setVar n x).ctlA = s.ctlA := rfl
@[simp] theorem State.setVar_statusReads (s : State) (n : Var) (x : Option Word) : (s.setVar n x).statusReads = s.statusReads := rfl
@[simp] theorem State.setVar_v (s : State) (n : Var) (x : Option Word) : (s.setVar n x).v = s.v.set n x := rfl
@[simp] theorem State.setVar_out (s : State) (n : Var) (x : Option Word) : (s.setVar n x).out = s.out := rfl
@[simp] theorem State.setVar_scratch (s : State) (n : Var) (x : Option Word) : (s.setVar n x).scratch = s.scratch := rfl
@[simp] theorem State.setVar_program (s : State) (n : Var) (x : Option Word) : (s.setVar n x).program = s.program := rfl
@[simp] theorem State.setVar_poll (s : State) (n : Var) (x : Option Word) : (s.setVar n x).poll = s.poll := rfl
@[simp] theorem State.setVar_env (s : State) (n : Var) (x : Option Word) : (s.setVar n x).env = s.env := rfl

@[simp] theorem State.issueB_cfg (s : State) (p : PendB) : (s.issueB p).cfg = s.cfg := rfl
@[simp] theorem State.issueB_otpA (s : State) (p : PendB) : (s.issueB p).otpA = s.otpA := rfl
@[simp] theorem State.issueB_otpB (s : State) (p : PendB) : (s.issueB p).otpB = s.otpB := rfl
@[simp] theorem State.issueB_gate (s : State) (p : PendB) : (s.issueB p).gate = s.gate := rfl
@[simp] theorem State.issueB_now (s : State) (p : PendB) : (s.issueB p).now = s.now := rfl
@[simp] theorem State.issueB_faults (s : State) (p : PendB) : (s.issueB p).faults = s.faults := rfl
@[simp] theorem State.issueB_refused (s : State) (p : PendB) : (s.issueB p).refused = s.refused := rfl
@[simp] theorem State.issueB_regsB (s : State) (p : PendB) : (s.issueB p).regsB = s.regsB := rfl
@[simp] theorem State.issueB_ctlB (s : State) (p : PendB) : (s.issueB p).ctlB = { s.ctlB with pend := some p } := rfl
@[simp] theorem State.issueB_regsA (s : State) (p : PendB) : (s.issueB p).regsA = s.regsA := rfl
@[simp] theorem State.issueB_ctlA (s : State) (p : PendB) : (s.issueB p).ctlA = s.ctlA := rfl
@[simp] theorem State.issueB_statusReads (s : State) (p : PendB) : (s.issueB p).statusReads = 0 := rfl
@[simp] theorem State.issueB_v (s : State) (p : PendB) : (s.issueB p).v = s.v := rfl
@[simp] theorem State.issueB_out (s : State) (p : PendB) : (s.issueB p).out = s.out := rfl
@[simp] theorem State.issueB_scratch (s : State) (p : PendB) : (s.issueB p).scratch = s.scratch := rfl
@[simp] theorem State.issueB_program (s : State) (p : PendB) : (s.issueB p).program = s.program := rfl
@[simp] theorem State.issueB_poll (s : State) (p : PendB) : (s.issueB p).poll = s.poll := rfl
@[simp] theorem State.issueB_env (s : State) (p : PendB) : (s.issueB p).env = s.env := rfl

@[simp] theorem State.issueA_cfg (s : State) (p : PendA) : (s.issueA p).cfg = s.cfg := rfl
@[simp] theorem State.issueA_otpA (s : State) (p : PendA) : (s.issueA p).otpA = s.otpA := rfl
@[simp] theorem State.issueA_otpB (s : State) (p : PendA) : (s.issueA p).otpB = s.otpB := rfl
@[simp] theorem State.issueA_gate (s : State) (p : PendA) : (s.issueA p).gate = s.gate := rfl
@[simp] theorem State.issueA_now (s : State) (p : PendA) : (s.issueA p).now = s.now := rfl
@[simp] theorem State.issueA_faults (s : State) (p : PendA) : (s.issueA p).faults = s.faults := rfl
@[simp] theorem State.issueA_refused (s : State) (p : PendA) : (s.issueA p).refused = s.refused := rfl
@[simp] theorem State.issueA_regsB (s : State) (p : PendA) : (s.issueA p).regsB = s.regsB := rfl
@[simp] theorem State.issueA_ctlB (s : State) (p : PendA) : (s.issueA p).ctlB = s.ctlB := rfl
@[simp] theorem State.issueA_regsA (s : State) (p : PendA) : (s.issueA p).regsA = s.regsA := rfl
@[simp] theorem State.issueA_ctlA (s : State) (p : PendA) : (s.issueA p).ctlA = { s.ctlA with pend := some p } := rfl
@[simp] theorem State.issueA_statusReads (s : State) (p : PendA) : (s.issueA p).statusReads = 0 := rfl
@[simp] theorem State.issueA_v (s : State) (p : PendA) : (s.issueA p).v = s.v := rfl
@[simp] theorem State.issueA_out (s : State) (p : PendA) : (s.issueA p).out = s.out := rfl
@[simp] theorem State.issueA_scratch (s : State) (p : PendA) : (s.issueA p).scratch = s.scratch := rfl
@[simp] theorem State.issueA_program (s : State) (p : PendA) : (s.issueA p).program = s.program := rfl
@[simp] theorem State.issueA_poll (s : State) (p : PendA) : (s.issueA p).poll = s.poll := rfl
@[simp] theorem State.issueA_env (s : State) (p : PendA) : (s.issueA p).env = s.env := rfl

@[simp] theorem State.advance_cfg (s : State) (ws : List Word) : (s.advance ws).cfg = s.cfg := rfl
@[simp] theorem State.advance_otpA (s : State) (ws : List Word) : (s.advance ws).otpA = s.otpA := rfl
@[simp] theorem State.advance_otpB (s : State) (ws : List Word) : (s.advance ws).otpB = s.otpB := rfl
@[simp] theorem State.advance_gate (s : State) (ws : List Word) : (s.advance ws).gate = s.gate := rfl
@[simp] theorem State.advance_now (s : State) (ws : List Word) : (s.advance ws).now = s.now := rfl
@[simp] theorem State.advance_faults (s : State) (ws : List Word) : (s.advance ws).faults = s.faults := rfl
@[simp] theorem State.advance_refused (s : State) (ws : List Word) : (s.advance ws).refused = s.refused := rfl
@[simp] theorem State.advance_regsB (s : State) (ws : List Word) : (s.advance ws).regsB = s.regsB := rfl
@[simp] theorem State.advance_ctlB (s : State) (ws : List Word) : (s.advance ws).ctlB = s.ctlB := rfl
@[simp] theorem State.advance_regsA (s : State) (ws : List Word) : (s.advance ws).regsA = s.regsA := rfl
@[simp] theorem State.advance_ctlA (s : State) (ws : List Word) : (s.advance ws).ctlA = s.ctlA := rfl
@[simp] theorem State.advance_statusReads (s : State) (ws : List Word) : (s.advance ws).statusReads = s.statusReads := rfl
@[simp] theorem State.advance_v (s : State) (ws : List Word) : (s.advance ws).v = s.v := rfl
@[simp] theorem State.advance_out (s : State) (ws : List Word) : (s.advance ws).out = s.out := rfl
@[simp] theorem State.advance_scratch (s : State) (ws : List Word) : (s.advance ws).scratch = s.scratch := rfl
@[simp] theorem State.advance_program (s : State) (ws : List Word) : (s.advance ws).program = ws := rfl
@[simp] theorem State.advance_poll (s : State) (ws : List Word) : (s.advance ws).poll = s.poll := rfl
@[simp] theorem State.advance_env (s : State) (ws : List Word) : (s.advance ws).env = s.env := rfl

@[simp] theorem delayBy_cfg (n : Nat) (s : State) : (delayBy n s).cfg = s.cfg := rfl
@[simp] theorem delayBy_otpA (n : Nat) (s : State) : (delayBy n s).otpA = s.otpA := rfl
@[simp] theorem delayBy_otpB (n : Nat) (s : State) : (delayBy n s).otpB = s.otpB := rfl
@[simp] theorem delayBy_gate (n : Nat) (s : State) : (delayBy n s).gate = s.gate := rfl
@[simp] theorem delayBy_now (n : Nat) (s : State) : (delayBy n s).now = s.now + n := rfl
@[simp] theorem delayBy_faults (n : Nat) (s : State) : (delayBy n s).faults = s.faults := rfl
@[simp] theorem delayBy_refused (n : Nat) (s : State) : (delayBy n s).refused = s.refused := rfl
@[simp] theorem delayBy_regsB (n : Nat) (s : State) : (delayBy n s).regsB = s.regsB := rfl
@[simp] theorem delayBy_ctlB (n : Nat) (s : State) : (delayBy n s).ctlB = s.ctlB := rfl
@[simp] theorem delayBy_regsA (n : Nat) (s : State) : (delayBy n s).regsA = s.regsA := rfl
@[simp] theorem delayBy_ctlA (n : Nat) (s : State) : (delayBy n s).ctlA = s.ctlA := rfl
@[simp] theorem delayBy_statusReads (n : Nat) (s : State) : (delayBy n s).statusReads = s.statusReads := rfl
@[simp] theorem delayBy_v (n : Nat) (s : State) : (delayBy n s).v = s.v := rfl
@[simp] theorem delayBy_out (n : Nat) (s : State) : (delayBy n s).out = s.out := rfl
@[simp] theorem delayBy_scratch (n : Nat) (s : State) : (delayBy n s).scratch = s.scratch := rfl
@[simp] theorem delayBy_program (n : Nat) (s : State) : (delayBy n s).program = s.program := rfl
@[simp] theorem delayBy_poll (n : Nat) (s : State) : (delayBy n s).poll = s.poll := rfl
@[simp] theorem delayBy_env (n : Nat) (s : State) : (delayBy n s).env = s.env := rfl

@[simp] theorem clkDisable_cfg (d : Domain) (s : State) : (clkDisable d s).cfg = s.cfg := rfl
@[simp] theorem clkDisable_otpA (d : Domain) (s : State) : (clkDisable d s).otpA = s.otpA := rfl
@[simp] theorem clkDisable_otpB (d : Domain) (s : State) : (clkDisable d s).otpB = s.otpB := rfl
@[simp] theorem clkDisable_gate (d : Domain) (s : State) : (clkDisable d s).gate = s.gate.setClk d false := rfl
@[simp] theorem clkDisable_now (d : Domain) (s : State) : (clkDisable d s).now = s.now := rfl
@[simp] theorem clkDisable_faults (d : Domain) (s : State) : (clkDisable d s).faults = s.faults := rfl
@[simp] theorem clkDisable_refused (d : Domain) (s : State) : (clkDisable d s).refused = s.refused := rfl
@[simp] theorem clkDisable_regsB (d : Domain) (s : State) : (clkDisable d s).regsB = s.regsB := rfl
@[simp] theorem clkDisable_ctlB (d : Domain) (s : State) : (clkDisable d s).ctlB = s.ctlB := rfl
@[simp] theorem clkDisable_regsA (d : Domain) (s : State) : (clkDisable d s).regsA = s.regsA := rfl
@[simp] theorem clkDisable_ctlA (d : Domain) (s : State) : (clkDisable d s).ctlA = s.ctlA := rfl
@[simp] theorem clkDisable_statusReads (d : Domain) (s : State) : (clkDisable d s).statusReads = s.statusReads := rfl
@[simp] theorem clkDisable_v (d : Domain) (s : State) : (clkDisable d s).v = s.v := rfl
@[simp] theorem clkDisable_out (d : Domain) (s : State) : (clkDisable d s).out = s.out := rfl
@[simp] theorem clkDisable_scratch (d : Domain) (s : State) : (clkDisable d s).scratch = s.scratch := rfl
@[simp] theorem clkDisable_program (d : Domain) (s : State) : (clkDisable d s).program = s.program := rfl
@[simp] theorem clkDisable_poll (d : Domain) (s : State) : (clkDisable d s).poll = s.poll := rfl
@[simp] theorem clkDisable_env (d : Domain) (s : State) : (clkDisable d s).env = s.env := rfl

/-- A host variable reads back what was put into it. -/
theorem State.getVar_setVar_same (s : State) (n : Var) (x : Option Word) :
    (s.setVar n x).getVar n = x := by
  simp [State.getVar, State.setVar]

/-- Putting a value into one host variable leaves the others. -/
theorem State.getVar_setVar_other (s : State) (n m : Var) (x : Option Word) (h : m ≠ n) :
    (s.setVar n x).getVar m = s.getVar m := by
  have h' : n.val ≠ m.val := fun e => h (Fin.ext e.symm)
  simp [State.getVar, State.setVar, h']

/-- A recorded kind is there, and the others are as they were (R264). -/
theorem FaultSet.has_add (f : FaultSet) (k j : FaultKind) :
    (f.add k).has j = (decide (j = k) || f.has j) := by
  cases k <;> cases j <;> rfl

/-- Recording a kind where `p` holds. -/
theorem FaultSet.has_addIf (f : FaultSet) (p : Bool) (k j : FaultKind) :
    (f.addIf p k).has j = ((p && decide (j = k)) || f.has j) := by
  cases p <;> simp [FaultSet.addIf, FaultSet.has_add]

/-- Two fault sets with the same kinds are the same data. -/
theorem FaultSet.ext_has (f g : FaultSet) (h : ∀ k, f.has k = g.has k) : f = g := by
  cases f
  cases g
  have a := h .clockOff
  have b := h .inReset
  have c := h .illegalModeCommand
  have d := h .illegalTransition
  have e := h .busyWrite
  have f := h .userModeOff
  have g := h .settleViolation
  have i := h .resetHoldViolation
  have j := h .writeReadOnly
  have k := h .badWidth
  have l := h .variantAbsent
  simp_all [FaultSet.has]

end Sys2Proof.Machine
end

