-- ==== Sys2Proof/Laws/Bits.lean ====
section
/-! SUPPORT. The operand forms and the status words bit by bit. -/

namespace Sys2Proof

/-- The bits of `BIT(n)`. -/
theorem getLsbD_bit (n i : Nat) : (bit n).getLsbD i = (decide (i < 32) && decide (i = n)) := by
  unfold bit
  by_cases h : i < 32
  · simp only [BitVec.getLsbD_shiftLeft, h, decide_true, Bool.true_and, BitVec.getLsbD_one]
    by_cases h1 : i < n
    · have : i ≠ n := by omega
      simp [h1, this]
    · by_cases h2 : i = n
      · simp [h2]
      · have : ¬ (i - n = 0) := by omega
        simp [this, h2]
  · simp [h]

/-- The bits of a conditional `BIT(n)`. -/
theorem getLsbD_bitIf (p : Bool) (n i : Nat) :
    (bitIf p n).getLsbD i = (p && (decide (i < 32) && decide (i = n))) := by
  cases p <;> simp [bitIf, getLsbD_bit]

/-- The bits of `ones w`. -/
theorem getLsbD_ones (w i : Nat) : (ones w).getLsbD i = (decide (i < 32) && decide (i < w)) := by
  rw [ones, BitVec.getLsbD_ofNat, Nat.testBit_two_pow_sub_one]

/-- The bits of `onesHalf w`. -/
theorem getLsbD_onesHalf (w i : Nat) :
    (onesHalf w).getLsbD i = (decide (i < 16) && decide (i < w)) := by
  rw [onesHalf, BitVec.getLsbD_ofNat, Nat.testBit_two_pow_sub_one]

/-- A read value takes the masked bits from the known value and the rest from the draw (R103). -/
theorem getLsbD_assemble (mask value x : Word) (i : Nat) :
    (assemble mask value x).getLsbD i =
      if mask.getLsbD i then value.getLsbD i else x.getLsbD i := by
  by_cases h : i < 32
  · simp only [assemble, BitVec.getLsbD_or, BitVec.getLsbD_and, BitVec.getLsbD_not, h]
    cases mask.getLsbD i <;> simp
  · have h1 := mask.getLsbD_of_ge i (by omega)
    have h2 := (assemble mask value x).getLsbD_of_ge i (by omega)
    have h3 := x.getLsbD_of_ge i (by omega)
    simp [h1, h2, h3]

/-- A field's data in a write-masked word (R92). -/
theorem getLsbD_maskedData (lo w : Nat) (d : Word) (i : Nat) :
    (maskedData lo w d).getLsbD i = (decide (i < 16) && decide (i < w) && d.getLsbD (lo + i)) := by
  simp only [maskedData, BitVec.getLsbD_and, BitVec.getLsbD_setWidth, BitVec.getLsbD_ushiftRight,
    getLsbD_onesHalf]
  cases decide (i < 16) <;> cases decide (i < w) <;> simp

/-- A field's enables in a write-masked word (R92). -/
theorem getLsbD_maskedEnable (lo w : Nat) (d : Word) (i : Nat) :
    (maskedEnable lo w d).getLsbD i =
      (decide (i < 16) && decide (i < w) && d.getLsbD (16 + lo + i)) := by
  simp only [maskedEnable, BitVec.getLsbD_and, BitVec.getLsbD_setWidth,
    BitVec.getLsbD_ushiftRight, getLsbD_onesHalf]
  cases decide (i < 16) <;> cases decide (i < w) <;> simp

/-- The masked update bit by bit (R102). -/
theorem getLsbD_maskedBits (lo w : Nat) (old : Half) (d : Word) (i : Nat) (hi : i < 16)
    (hw : i < w) :
    (maskedBits lo w old d).getLsbD i =
      if d.getLsbD (16 + lo + i) then d.getLsbD (lo + i) else old.getLsbD i := by
  simp only [maskedBits, BitVec.getLsbD_or, BitVec.getLsbD_and, BitVec.getLsbD_not,
    getLsbD_maskedData, getLsbD_maskedEnable, hi, hw, decide_true, Bool.true_and]
  cases d.getLsbD (16 + lo + i) <;> simp

/-- Outside the field a masked update keeps the old bits. -/
theorem getLsbD_maskedBits_above (lo w : Nat) (old : Half) (d : Word) (i : Nat) (hw : w ≤ i) :
    (maskedBits lo w old d).getLsbD i = old.getLsbD i := by
  by_cases hi : i < 16
  · have : ¬ i < w := by omega
    simp only [maskedBits, BitVec.getLsbD_or, BitVec.getLsbD_and, BitVec.getLsbD_not,
      getLsbD_maskedData, getLsbD_maskedEnable, this, hi]
    simp
  · simp [BitVec.getLsbD_of_ge _ i (by omega : 16 ≤ i)]

/-- A value fits `w` bits exactly when every bit from `w` up is 0. -/
theorem toNat_lt_iff_getLsbD {n : Nat} (x : BitVec n) (w : Nat) :
    x.toNat < 2 ^ w ↔ ∀ i, w ≤ i → x.getLsbD i = false := by
  constructor
  · intro h i hi
    rw [BitVec.getLsbD]
    exact Nat.testBit_lt_two_pow (lt_of_lt_of_le h (Nat.pow_le_pow_right (by omega) hi))
  · intro h
    exact Nat.lt_pow_two_of_testBit x.toNat fun i hi => h i hi

/-- A word cut to its `w` low bits fits `w` bits. -/
theorem and_ones_fits (x : Word) (w : Nat) : (x &&& ones w).toNat < 2 ^ w := by
  rw [toNat_lt_iff_getLsbD]
  intro i hi
  have : ¬ i < w := by omega
  simp [getLsbD_ones, this]

/-- A low half cut to its `w` low bits fits `w` bits. -/
theorem and_onesHalf_fits (x : Half) (w : Nat) : (x &&& onesHalf w).toNat < 2 ^ w := by
  rw [toNat_lt_iff_getLsbD]
  intro i hi
  have : ¬ i < w := by omega
  simp [getLsbD_onesHalf, this]

/-- A masked update of a value that fits its field fits it. -/
theorem maskedBits_fits (lo w : Nat) (old : Half) (d : Word) (h : old.toNat < 2 ^ w) :
    (maskedBits lo w old d).toNat < 2 ^ w := by
  rw [toNat_lt_iff_getLsbD] at h ⊢
  intro i hi
  rw [getLsbD_maskedBits_above lo w old d i hi, h i hi]

/-- A masked update of a stored field that fits its width fits it. -/
theorem maskedField_fits (lo w : Nat) (old : Option Half) (d x : Word)
    (h : ∀ a, old = some a → a.toNat < 2 ^ w) (y : Half)
    (hy : maskedField lo w old d x = some y) : y.toNat < 2 ^ w := by
  unfold maskedField at hy
  split_ifs at hy with h0
  · exact h y hy
  · cases hy
    apply maskedBits_fits
    cases old with
    | none => exact and_onesHalf_fits _ _
    | some a => exact h a rfl

/-- No bit of a field is enabled (R92). -/
theorem maskedEnable_zero (lo w : Nat) (d : Word) :
    maskedEnable lo w d = 0 ↔ ∀ i, i < 16 → i < w → d.getLsbD (16 + lo + i) = false := by
  constructor
  · intro h i hi hw
    have := congrArg (fun x : Half => x.getLsbD i) h
    simp only [getLsbD_maskedEnable] at this
    simpa [hi, hw] using this
  · intro h
    apply BitVec.eq_of_getLsbD_eq
    intro i hi
    rw [getLsbD_maskedEnable]
    by_cases hw : i < w
    · simp [h i hi hw]
    · simp [hw]

/-- Every bit of a field is enabled (R92). -/
theorem maskedEnable_ones (lo w : Nat) (d : Word) :
    maskedEnable lo w d = onesHalf w ↔
      ∀ i, i < 16 → i < w → d.getLsbD (16 + lo + i) = true := by
  constructor
  · intro h i hi hw
    have := congrArg (fun x : Half => x.getLsbD i) h
    simp only [getLsbD_maskedEnable, getLsbD_onesHalf] at this
    simpa [hi, hw] using this
  · intro h
    apply BitVec.eq_of_getLsbD_eq
    intro i hi
    rw [getLsbD_maskedEnable, getLsbD_onesHalf]
    by_cases hw : i < w
    · simp [h i hi hw, hi, hw]
    · simp [hw]

/-- The masked update of a known field (R102). -/
theorem maskedField_some (lo w : Nat) (old : Half) (d x : Word) :
    maskedField lo w (some old) d x = some (maskedBits lo w old d) := by
  unfold maskedField
  split
  · rename_i h
    congr 1
    apply BitVec.eq_of_getLsbD_eq
    intro i hi
    by_cases hw : i < w
    · rw [getLsbD_maskedBits _ _ _ _ _ hi hw]
      simp [(maskedEnable_zero lo w d).1 h i hi hw]
    · rw [getLsbD_maskedBits_above _ _ _ _ _ (by omega)]
  · rfl

/-- The masked update of a known field draws nothing. -/
theorem maskedDraws_some (lo w : Nat) (old : Half) (d : Word) :
    maskedDraws lo w (some old) d = false := by
  simp [maskedDraws]

/-- A masked update that writes the whole field draws nothing. -/
theorem maskedDraws_full (lo w : Nat) (old : Option Half) (d : Word)
    (h : ∀ i, i < w → d.getLsbD (16 + lo + i) = true) : maskedDraws lo w old d = false := by
  have := (maskedEnable_ones lo w d).2 (fun i _ h2 => h i h2)
  simp [maskedDraws, this]

namespace Machine

/-- An acknowledge clears exactly the bits written 1 (R104). -/
theorem IrqSt.get_acknowledge (c : Cfg) (s : IrqSt) (d : Word) (b : IrqBit) :
    (IrqSt.acknowledge c s d).get b = if d.getLsbD (c.irqPos b) then some false else s.get b := by
  cases b <;> rfl

/-- An acknowledge clears exactly the bits written 1 (R119). -/
theorem IntStatus.get_acknowledge (c : Cfg) (s : IntStatus) (d : Word) (b : IntBit) :
    (IntStatus.acknowledge c s d).get b =
      if d.getLsbD (c.intPos b) then some false else s.get b := by
  cases b <;> rfl

/-- A completion sets its bit and leaves the others (R133). -/
theorem IrqSt.get_raise (s : IrqSt) (b j : IrqBit) :
    (s.raise b).get j = if j = b then some true else s.get j := by
  cases b <;> cases j <;> rfl

/-- A completion sets its bit and leaves the other (R161, R165). -/
theorem IntStatus.get_raise (s : IntStatus) (b j : IntBit) :
    (s.raise b).get j = if j = b then some true else s.get j := by
  cases b <;> cases j <;> rfl

/-- A position below 32. -/
theorem irqPos_lt (c : Cfg) (b : IrqBit) : c.irqPos b < 32 := by
  cases b <;> exact Fin.isLt _

/-- A position below 32. -/
theorem intPos_lt (c : Cfg) (b : IntBit) : c.intPos b < 32 := by
  cases b <;> exact Fin.isLt _

/-- Distinct IRQ_ST bits have distinct positions (R7). -/
theorem irqPos_inj (c : Cfg) (h : c.irqBitsDistinct = true) (a b : IrqBit)
    (e : c.irqPos a = c.irqPos b) : a = b := by
  simp only [Cfg.irqBitsDistinct, decide_eq_true_eq, List.nodup_cons, List.mem_cons,
    List.not_mem_nil, not_or, Fin.ext_iff] at h
  cases a <;> cases b <;> simp only [Cfg.irqPos] at e <;> first | rfl | (exfalso; omega)

/-- The two INT_STATUS bits have distinct positions (R7). -/
theorem intPos_inj (c : Cfg) (h : c.intBitsDistinct = true) (a b : IntBit)
    (e : c.intPos a = c.intPos b) : a = b := by
  simp only [Cfg.intBitsDistinct, decide_eq_true_eq, Ne, Fin.ext_iff] at h
  cases a <;> cases b <;> simp only [Cfg.intPos] at e <;> first | rfl | (exfalso; omega)

/-- A bit of the known positions: some defined bit stands there with a known value. -/
theorem IrqSt.getLsbD_known (c : Cfg) (s : IrqSt) (i : Nat) :
    (s.known c).getLsbD i = true ↔ ∃ b, i = c.irqPos b ∧ (s.get b).isSome = true := by
  simp only [IrqSt.known, BitVec.getLsbD_or, getLsbD_bitIf, Bool.or_eq_true, Bool.and_eq_true,
    decide_eq_true_eq]
  constructor
  · rintro ((((⟨h, _, e⟩ | ⟨h, _, e⟩) | ⟨h, _, e⟩) | ⟨h, _, e⟩) | ⟨h, _, e⟩)
    · exact ⟨.rdm, e, h⟩
    · exact ⟨.dp2stb, e, h⟩
    · exact ⟨.stb2act, e, h⟩
    · exact ⟨.act2stb, e, h⟩
    · exact ⟨.stb2dp, e, h⟩
  · rintro ⟨b, rfl, h⟩
    have hl := irqPos_lt c b
    cases b <;> simp_all [Cfg.irqPos, IrqSt.get]

/-- A bit of the set positions: some defined bit stands there and is set. -/
theorem IrqSt.getLsbD_bits (c : Cfg) (s : IrqSt) (i : Nat) :
    (s.bits c).getLsbD i = true ↔ ∃ b, i = c.irqPos b ∧ s.get b = some true := by
  simp only [IrqSt.bits, BitVec.getLsbD_or, getLsbD_bitIf, Bool.or_eq_true, Bool.and_eq_true,
    decide_eq_true_eq, beq_iff_eq]
  constructor
  · rintro ((((⟨h, _, e⟩ | ⟨h, _, e⟩) | ⟨h, _, e⟩) | ⟨h, _, e⟩) | ⟨h, _, e⟩)
    · exact ⟨.rdm, e, h⟩
    · exact ⟨.dp2stb, e, h⟩
    · exact ⟨.stb2act, e, h⟩
    · exact ⟨.act2stb, e, h⟩
    · exact ⟨.stb2dp, e, h⟩
  · rintro ⟨b, rfl, h⟩
    have hl := irqPos_lt c b
    cases b <;> simp_all [Cfg.irqPos, IrqSt.get]

/-- A bit of the known positions: some defined bit stands there with a known value. -/
theorem IntStatus.getLsbD_known (c : Cfg) (s : IntStatus) (i : Nat) :
    (s.known c).getLsbD i = true ↔ ∃ b, i = c.intPos b ∧ (s.get b).isSome = true := by
  simp only [IntStatus.known, BitVec.getLsbD_or, getLsbD_bitIf, Bool.or_eq_true,
    Bool.and_eq_true, decide_eq_true_eq]
  constructor
  · rintro (⟨h, _, e⟩ | ⟨h, _, e⟩)
    · exact ⟨.sbpiDone, e, h⟩
    · exact ⟨.userDone, e, h⟩
  · rintro ⟨b, rfl, h⟩
    have hl := intPos_lt c b
    cases b <;> simp_all [Cfg.intPos, IntStatus.get]

/-- A bit of the set positions: some defined bit stands there and is set. -/
theorem IntStatus.getLsbD_bits (c : Cfg) (s : IntStatus) (i : Nat) :
    (s.bits c).getLsbD i = true ↔ ∃ b, i = c.intPos b ∧ s.get b = some true := by
  simp only [IntStatus.bits, BitVec.getLsbD_or, getLsbD_bitIf, Bool.or_eq_true,
    Bool.and_eq_true, decide_eq_true_eq, beq_iff_eq]
  constructor
  · rintro (⟨h, _, e⟩ | ⟨h, _, e⟩)
    · exact ⟨.sbpiDone, e, h⟩
    · exact ⟨.userDone, e, h⟩
  · rintro ⟨b, rfl, h⟩
    have hl := intPos_lt c b
    cases b <;> simp_all [Cfg.intPos, IntStatus.get]

/-- A read of IRQ_ST shows a known bit as held (R105). -/
theorem IrqSt.readValue_known (c : Cfg) (s : IrqSt) (x : Word) (h : c.irqBitsDistinct = true)
    (b : IrqBit) (v : Bool) (hb : s.get b = some v) :
    (s.readValue c x).getLsbD (c.irqPos b) = v := by
  have hk : (s.known c).getLsbD (c.irqPos b) = true :=
    (s.getLsbD_known c _).2 ⟨b, rfl, by simp [hb]⟩
  rw [IrqSt.readValue, getLsbD_assemble, if_pos hk, Bool.eq_iff_iff, IrqSt.getLsbD_bits]
  constructor
  · rintro ⟨b', e, h'⟩
    have := irqPos_inj c h _ _ e
    subst this
    simpa [hb] using h'
  · intro hv
    exact ⟨b, rfl, by simp [hb, hv]⟩

/-- A read of INT_STATUS shows a known bit as held (R120). -/
theorem IntStatus.readValue_known (c : Cfg) (s : IntStatus) (x : Word)
    (h : c.intBitsDistinct = true) (b : IntBit) (v : Bool) (hb : s.get b = some v) :
    (s.readValue c x).getLsbD (c.intPos b) = v := by
  have hk : (s.known c).getLsbD (c.intPos b) = true :=
    (s.getLsbD_known c _).2 ⟨b, rfl, by simp [hb]⟩
  rw [IntStatus.readValue, getLsbD_assemble, if_pos hk, Bool.eq_iff_iff, IntStatus.getLsbD_bits]
  constructor
  · rintro ⟨b', e, h'⟩
    have := intPos_inj c h _ _ e
    subst this
    simpa [hb] using h'
  · intro hv
    exact ⟨b, rfl, by simp [hb, hv]⟩

end Machine

end Sys2Proof
end

