-- ==== Sys2Proof/Laws/Encoding.lean ====
section
/-! SUPPORT. The header word field by field, and the codes of registers, domains and variables:
what decoding and encoding are put together from (spec/30_encoding.md R81 to R83). -/

namespace Sys2Proof

@[simp] theorem headerImm_header (c : BitVec 4) (r : BitVec 8) (d : BitVec 4) (i : BitVec 16) :
    headerImm (header c r d i) = i := by
  apply BitVec.eq_of_getLsbD_eq
  intro k hk
  rw [headerImm, BitVec.getLsbD_extractLsb', header]
  simp only [BitVec.getLsbD_append, Nat.zero_add, hk, decide_true, Bool.true_and, if_true]

@[simp] theorem headerDst_header (c : BitVec 4) (r : BitVec 8) (d : BitVec 4) (i : BitVec 16) :
    headerDst (header c r d i) = d := by
  apply BitVec.eq_of_getLsbD_eq
  intro k hk
  have h1 : ¬ 16 + k < 16 := by omega
  have h2 : 16 + k - 16 = k := by omega
  rw [headerDst, BitVec.getLsbD_extractLsb', header]
  simp only [BitVec.getLsbD_append, h1, if_false, h2, hk, decide_true, Bool.true_and, if_true]

@[simp] theorem headerReg_header (c : BitVec 4) (r : BitVec 8) (d : BitVec 4) (i : BitVec 16) :
    headerReg (header c r d i) = r := by
  apply BitVec.eq_of_getLsbD_eq
  intro k hk
  have h1 : ¬ 20 + k < 16 := by omega
  have h2 : 20 + k - 16 = 4 + k := by omega
  have h3 : ¬ 4 + k < 4 := by omega
  have h4 : 4 + k - 4 = k := by omega
  rw [headerReg, BitVec.getLsbD_extractLsb', header]
  simp only [BitVec.getLsbD_append, h1, if_false, h2, h3, h4, hk, decide_true, Bool.true_and,
    if_true]

@[simp] theorem headerClass_header (c : BitVec 4) (r : BitVec 8) (d : BitVec 4)
    (i : BitVec 16) : headerClass (header c r d i) = c := by
  apply BitVec.eq_of_getLsbD_eq
  intro k hk
  have h1 : ¬ 28 + k < 16 := by omega
  have h2 : 28 + k - 16 = 12 + k := by omega
  have h3 : ¬ 12 + k < 4 := by omega
  have h4 : 12 + k - 4 = 8 + k := by omega
  have h5 : ¬ 8 + k < 8 := by omega
  have h6 : 8 + k - 8 = k := by omega
  rw [headerClass, BitVec.getLsbD_extractLsb', header]
  simp only [BitVec.getLsbD_append, h1, if_false, h2, h3, h4, h5, h6, hk, decide_true,
    Bool.true_and]

/-- A header is its four fields. -/
theorem header_fields (h : Word) :
    header (headerClass h) (headerReg h) (headerDst h) (headerImm h) = h := by
  apply BitVec.eq_of_getLsbD_eq
  intro k hk
  simp only [header, BitVec.getLsbD_append, headerClass, headerReg, headerDst, headerImm,
    BitVec.getLsbD_extractLsb']
  split_ifs with h1 h2 h3
  · simp [h1]
  · have e : 16 + (k - 16) = k := by omega
    simp [h2, e]
  · have e : 20 + (k - 16 - 4) = k := by omega
    simp [h3, e]
  · have e : 28 + (k - 16 - 4 - 8) = k := by omega
    have l : k - 16 - 4 - 8 < 4 := by omega
    simp [l, e]

/-- A register's index names it (R82). -/
@[simp] theorem regOfIndex_regIndex (r : Reg) : regOfIndex (regIndex r) = some r := by
  cases r <;> rfl

/-- Only a register's own index names it (R82). -/
theorem regIndex_of_regOfIndex (x : BitVec 8) (r : Reg) (h : regOfIndex x = some r) :
    regIndex r = x := by
  revert h r
  revert x
  decide

/-- A domain's code names it (R83). -/
@[simp] theorem domainOfCode_domainCode (d : Domain) :
    domainOfCode ((domainCode d).extractLsb' 0 2) = some d := by
  cases d <;> rfl

/-- A domain's code has no bit above [1:0] (R83). -/
@[simp] theorem domainCode_high (d : Domain) : (domainCode d).extractLsb' 2 14 = 0 := by
  cases d <;> rfl

/-- An immediate with no bit above [1:0] that names a domain is that domain's code (R83). -/
theorem domainCode_of_domainOfCode (x : BitVec 16) (d : Domain)
    (h : domainOfCode (x.extractLsb' 0 2) = some d) (hx : x.extractLsb' 2 14 = 0) :
    domainCode d = x := by
  have hn : x.toNat < 4 := by
    have := congrArg BitVec.toNat hx
    simp only [BitVec.extractLsb'_toNat, Nat.shiftRight_eq_div_pow] at this
    have hl := x.isLt
    simp at this
    omega
  have hx' : x = BitVec.ofNat 16 x.toNat := by simp
  generalize x.toNat = m at hn hx'
  subst hx'
  interval_cases m <;> cases d <;> first | rfl | (exfalso; revert h; decide)

/-- A DST field is the variable it names (R81). -/
@[simp] theorem varField_toFin (n : Var) : (varField n).toFin = n := rfl

/-- The field of the variable a DST field names is that field (R81). -/
@[simp] theorem varField_of_toFin (x : BitVec 4) : varField x.toFin = x := rfl

/-- A form of two words is one whose header has class 0x1 or 0x9 (R96). -/
theorem headerLength_header (c : BitVec 4) (r : BitVec 8) (d : BitVec 4) (i : BitVec 16) :
    headerLength (header c r d i) = if c = 0x1 ∨ c = 0x9 then 2 else 1 := by
  simp only [headerLength, headerClass_header]
  revert c
  decide

end Sys2Proof
end

