-- ==== Sys2Proof/Laws/Ops.lean ====
section
/-! SUPPORT. What each shared operation can do, said once: the guarded access, the choice of the
agent, the completion, a register write and read, and a step. -/

namespace Sys2Proof.Machine

/-- The guard answers true exactly where the interface exists and the register is the variant's
(R100). -/
theorem guardOk_iff (r : Reg) (s : State) :
    guardOk r s = true ↔ s.gate.isOpen = true ∧ r.variant = s.cfg.variant := by
  simp [guardOk]

/-- With the guard passed an access is its effect (R100). -/
theorem access_open (r : Reg) (f : State → State) (s : State) (h : s.gate.isOpen = true)
    (hv : r.variant = s.cfg.variant) : access r f s = f s := by
  rw [access, if_pos ((guardOk_iff r s).2 ⟨h, hv⟩)]

/-- An access is its effect with the guard passed, or the guard's faults (R100). -/
theorem access_cases (r : Reg) (f : State → State) (s : State) :
    (s.gate.isOpen = true ∧ r.variant = s.cfg.variant ∧ access r f s = f s) ∨
      access r f s = guardFaults r s := by
  unfold access
  split
  · rename_i h
    exact .inl ⟨((guardOk_iff r s).1 h).1, ((guardOk_iff r s).1 h).2, rfl⟩
  · exact .inr rfl

/-- The kinds a failed guard leaves recorded (R100). -/
theorem guardFaults_has (r : Reg) (s : State) (k : FaultKind) :
    (guardFaults r s).faults.has k = true ↔
      s.faults.has k = true ∨ (k = .clockOff ∧ s.gate.clocksOn = false) ∨
        (k = .inReset ∧ s.gate.rst = true) ∨
        (k = .variantAbsent ∧ r.variant ≠ s.cfg.variant) := by
  simp only [guardFaults, FaultSet.has_addIf, Bool.or_eq_true, Bool.and_eq_true,
    decide_eq_true_eq, Bool.not_eq_true']
  tauto

/-- A read-access is pending (R106). -/
theorem readPending_iff (s : State) :
    s.readPending = true ↔ ∃ w, s.ctlB.pend = some (.read w) := by
  unfold State.readPending
  split <;> simp_all

/-- An SBPI command is pending (R113). -/
theorem sbpiPending_iff (s : State) :
    s.sbpiPending = true ↔ ∃ a c d, s.ctlA.pend = some (.sbpi a c d) := by
  unfold State.sbpiPending
  split <;> simp_all

/-- A user read is pending (R122). -/
theorem userPending_iff (s : State) :
    s.userPending = true ↔ ∃ w, s.ctlA.pend = some (.user w) := by
  unfold State.userPending
  split <;> simp_all

/-- No read-access is pending (R106). -/
theorem readPending_false (s : State) :
    s.readPending = false ↔ ∀ w, s.ctlB.pend ≠ some (.read w) := by
  rw [← Bool.not_eq_true, readPending_iff]
  simp

/-- No SBPI command is pending (R113). -/
theorem sbpiPending_false (s : State) :
    s.sbpiPending = false ↔ ∀ a c d, s.ctlA.pend ≠ some (.sbpi a c d) := by
  rw [← Bool.not_eq_true, sbpiPending_iff]
  simp

/-- No user read is pending (R122). -/
theorem userPending_false (s : State) :
    s.userPending = false ↔ ∀ w, s.ctlA.pend ≠ some (.user w) := by
  rw [← Bool.not_eq_true, userPending_iff]
  simp

/-- The choice of the agent moves the schedule alone. -/
theorem turnTaken_eq (s : State) (b : Bool) :
    s.turnTaken b = { s with env := (s.turnTaken b).env } := by
  unfold State.turnTaken
  split <;> rfl

/-- Between two host steps the controller completes the pending operation or only the schedule
moves (R73). -/
theorem interleave_cases (b : Bool) (s : State) :
    interleave b s = s.turnTaken b ∨
      (s.canComplete = true ∧ interleave b s = complete (s.turnTaken b)) := by
  unfold interleave
  split
  · rename_i h
    simp only [State.controllerMoves, Bool.and_eq_true] at h
    exact .inr ⟨h.1, rfl⟩
  · exact .inl rfl

/-- A completion touches the live controller, its registers and the model's own fields (R133,
R134, R161, R165). -/
theorem complete_frame (s : State) :
    complete s = { s with
      regsB := (complete s).regsB, ctlB := (complete s).ctlB,
      regsA := (complete s).regsA, ctlA := (complete s).ctlA,
      statusReads := (complete s).statusReads, env := (complete s).env } := by
  unfold complete completeA completeB completeTransition completeSbpi completeRead completeUser
  dsimp only
  repeat' split
  all_goals rfl

/-- A step: the completion, the next line of a poll, a refused encoding, or the decoded
operation. -/
theorem step_cases (s t : State) (h : step s = .next t) :
    (s.canComplete = true ∧ t = complete (s.turnTaken (nextIsStatusRead s))) ∨
      (∃ p, s.poll = some p ∧ t = pollStep p (s.turnTaken (nextIsStatusRead s))) ∨
      (s.poll = none ∧ t = refuseEncoding (s.turnTaken (nextIsStatusRead s))) ∨
      ∃ i rest, s.poll = none ∧ decode s.program = some (.ok (i, rest)) ∧
        exec i ((s.turnTaken (nextIsStatusRead s)).advance rest) = .next t := by
  unfold step at h
  split at h
  · rename_i hm
    simp only [State.controllerMoves, Bool.and_eq_true] at hm
    injection h with h
    exact .inl ⟨hm.1, h.symm⟩
  · have hp : (s.turnTaken (nextIsStatusRead s)).program = s.program := by
      rw [turnTaken_eq]
    have hq : (s.turnTaken (nextIsStatusRead s)).poll = s.poll := by
      rw [turnTaken_eq]
    unfold hostStep fetch at h
    rw [hp, hq] at h
    cases hl : s.poll with
    | some p =>
      rw [hl] at h
      injection h with h
      exact .inr (.inl ⟨p, rfl, h.symm⟩)
    | none =>
      rw [hl] at h
      cases hd : decode s.program with
      | none => rw [hd] at h; cases h
      | some x =>
        rw [hd] at h
        cases x with
        | error e => injection h with h; exact .inr (.inr (.inl ⟨rfl, h.symm⟩))
        | ok p => exact .inr (.inr (.inr ⟨p.1, p.2, rfl, rfl, h⟩))

/-- The `w32` row of a register is a write of it (R84, R129). -/
theorem exec_w32Row (r : Reg) (d : Word) (s : State) :
    exec (w32Row r d) s = .next (regWrite r d s) := by
  cases r <;> rfl

/-- The `r32` row of a register is a read of it (R85, R129). -/
theorem exec_r32Row (r : Reg) (n : Var) (s : State) :
    exec (r32Row r n) s = .next (readInto r n s) := by
  cases r <;> rfl

/-- The `r8` row of a register (R85, R125, R128). -/
theorem exec_r8Row (r : Reg) (n : Var) (s : State) :
    exec (r8Row r n) s =
      .next (if r = .userQ then read8Into n s else read8Other r n s) := by
  cases r <;> rfl

/-- A read leaves the block as it was: its guard's faults, a draw and a status-read count are
all it moves (R66). -/
theorem readEffect_frame (r : Reg) (s : State) :
    readEffect r s = { s with
      faults := (readEffect r s).faults, statusReads := (readEffect r s).statusReads,
      env := (readEffect r s).env } := by
  unfold readEffect
  rcases access_cases r (fun s => s.spend.countStatusRead r) s with ⟨_, _, h⟩ | h <;> rw [h]
  · unfold State.countStatusRead
    split <;> rfl
  · rfl

/-- A register write leaves the gate, the time, the host's own state and the memories (R66). -/
theorem regWrite_frame (r : Reg) (d : Word) (s : State) :
    regWrite r d s = { s with
      regsB := (regWrite r d s).regsB, ctlB := (regWrite r d s).ctlB,
      regsA := (regWrite r d s).regsA, ctlA := (regWrite r d s).ctlA,
      statusReads := (regWrite r d s).statusReads, faults := (regWrite r d s).faults,
      refused := (regWrite r d s).refused, env := (regWrite r d s).env } := by
  cases r <;>
    simp only [regWrite, writeModeCtrl, writeIrqSt, writeAccessAddr, writeRdData,
      writeReprRdTransNum, writeSbpiCtrl, writeSbpiCmdValidPre, writeSbpiCmd0, writeSbpiCmd1,
      writeIntStatus, writeUserCtrl, writeUserAddr, writeUserEnable, writeUserQ, access, issueMode,
      issueReadAccess, startSbpi, updateDap, updateCmdValid, updateUaddr, issueUserRead] <;>
    repeat' split
  all_goals rfl

/-- The read line of a poll moves the poll's position, its variable, the fault set and the model's own
fields (R190). -/
theorem pollRead_frame (p : Poll) (s : State) :
    pollRead p s = { s with
      poll := (pollRead p s).poll, v := (pollRead p s).v, faults := (pollRead p s).faults,
      statusReads := (pollRead p s).statusReads, env := (pollRead p s).env } := by
  unfold pollRead
  rw [readEffect_frame]
  dsimp only
  split
  · rfl
  · split <;> rfl

/-- A line of a poll leaves every variable but the poll's own (R190). -/
theorem pollStep_getVar (p : Poll) (s : State) (k : Var) (h : k ≠ p.dst) :
    (pollStep p s).getVar k = s.getVar k := by
  have hr : (readEffect p.status s).v = s.v := by rw [readEffect_frame]
  have hw : (regWrite p.status p.mask s).v = s.v := by rw [regWrite_frame]
  have hd : p.dst.val ≠ k.val := fun e => h (Fin.ext e.symm)
  unfold pollStep pollRead pollAcknowledge pollDelay
  split
  · dsimp only
    split
    · simp [State.getVar, hr]
    · split
      · simp [State.getVar, State.setVar, hr, hd]
      · simp [State.getVar, hr]
  · simp [State.getVar, State.setVar, hw, hd]
  · rfl

/-- A `waitfor` starts as a read line, or sets the refusal (R88, R190). -/
theorem startPoll_cases (r : Reg) (n : Var) (m : Word) (s : State) :
    (r.variant = s.cfg.variant ∧ startPoll r n m s =
        pollRead { status := r, dst := n, mask := m, delays := 0, line := .read } s) ∨
      startPoll r n m s = s.refuse .reservedEncoding := by
  unfold startPoll
  split
  · rename_i h
    exact .inl ⟨h, rfl⟩
  · exact .inr rfl

end Sys2Proof.Machine
end

