-- ==== Sys2Proof/Laws/Kept.lean ====
section
/-! SUPPORT. One induction over everything a step is made of: a property that each named operation
keeps is kept by every poll, every operation and every step. -/

namespace Sys2Proof.Machine

/-- The named operations of the machine keep `P`. -/
structure Kept (P : State → Prop) : Prop where
  completion : ∀ s, P s → s.canComplete = true → P (complete s)
  schedule : ∀ b s, P s → P (s.turnTaken b)
  fetched : ∀ ws s, P s → P (s.advance ws)
  mark : ∀ k s, P s → P (s.refuse k)
  setsVar : ∀ n x s, P s → P (s.setVar n x)
  pollOver : ∀ s, P s → P { s with poll := none }
  pollOn : ∀ p s, P s → (pollFits s → pollAllowed s p) → P { s with poll := some p }
  read : ∀ r s, P s → P (readEffect r s)
  width : ∀ r s, P s → P (access r (fun s => s.raise .badWidth) s)
  write : ∀ r d s, P s → P (regWrite r d s)
  delay : ∀ n s, P s → P (delayBy n s)
  clockOn : ∀ d s, P s → P (clkEnable d s)
  clockOff : ∀ d s, P s → P (clkDisable d s)
  resetOn : ∀ s, P s → P (rstAssert s)
  resetOff : ∀ s, P s → P (rstDeassert s)

/-- Between two host steps `P` is kept (R73). -/
theorem Kept.interleave {P : State → Prop} (k : Kept P) (b : Bool) (s : State) (h : P s) :
    P (Machine.interleave b s) := by
  rcases interleave_cases b s with e | ⟨hc, e⟩ <;> rw [e]
  · exact k.schedule b s h
  · refine k.completion _ (k.schedule b s h) ?_
    rw [turnTaken_eq]
    exact hc

/-- A poll keeps what its lines keep: the controller's moves, its reads, its delays and its one
acknowledge (R190). -/
theorem pollLoop_keeps {P : State → Prop} (r : Reg) (m : Word)
    (hi : ∀ b s, P s → P (Machine.interleave b s)) (hr : ∀ s, P s → P (readEffect r s))
    (hd : ∀ s, P s → P (delayBy pollInterval s)) (hw : ∀ s, P s → P (regWrite r m s))
    (left made : Nat) (s : State) (h : P s) : P (pollLoop r m left made s).state := by
  induction left generalizing made s with
  | zero =>
    unfold pollLoop
    dsimp only
    split
    · exact hw _ (hi _ _ (hr _ (hi _ _ h)))
    · exact hr _ (hi _ _ h)
  | succ left ih =>
    unfold pollLoop
    dsimp only
    split
    · exact hw _ (hi _ _ (hr _ (hi _ _ h)))
    · exact ih _ _ (hd _ (hi _ _ (hr _ (hi _ _ h))))

/-- A poll keeps `P` (R190). -/
theorem Kept.poll {P : State → Prop} (k : Kept P) (r : Reg) (m : Word) (left made : Nat)
    (s : State) (h : P s) : P (pollLoop r m left made s).state :=
  pollLoop_keeps r m k.interleave (k.read r) (k.delay pollInterval) (k.write r m) left made s h

/-- The read line of an allowed poll keeps `P` (R190). -/
theorem Kept.pollRead {P : State → Prop} (k : Kept P) (p : Poll) (s : State) (h : P s)
    (hp : pollFits s → pollAllowed s p) : P (Machine.pollRead p s) := by
  have hr : P (readEffect p.status s) := k.read _ _ h
  have hf : pollFits (readEffect p.status s) → pollAllowed s p := fun hf => by
    rw [readEffect_frame] at hf
    exact hp hf
  have hc : (readEffect p.status s).cfg = s.cfg := by rw [readEffect_frame]
  have ha : ∀ q : Poll, q.status = p.status → q.delays = p.delays →
      (q.line = .delay → p.delays < pollTimeout / pollInterval) →
      pollFits (readEffect p.status s) → pollAllowed (readEffect p.status s) q :=
    fun q e e' e'' g => ⟨by rw [e, State.statusRead, hc]; exact (hf g).1, e'.trans_le (hf g).2.1,
      fun l => by rw [e']; exact e'' l⟩
  unfold Machine.pollRead
  dsimp only
  split
  · exact k.pollOn _ _ hr (ha _ rfl rfl fun l => by cases l)
  · split
    · exact k.pollOver _ (k.setsVar _ _ _ hr)
    · exact k.pollOn _ _ hr (ha _ rfl rfl fun _ => by omega)

/-- Every line of the poll the host is inside of keeps `P` (R190). -/
theorem Kept.pollStep {P : State → Prop} (k : Kept P) (p : Poll) (s : State) (h : P s)
    (hp : s.poll = some p) : P (Machine.pollStep p s) := by
  unfold Machine.pollStep
  split
  · exact k.pollRead p s h fun hf => hf p hp
  · exact k.pollOver _ (k.setsVar _ _ _ (k.write _ _ _ h))
  · rename_i hl
    refine k.pollOn _ _ (k.delay _ _ h) fun hf => ?_
    obtain ⟨h1, -, h3⟩ := hf p hp
    exact ⟨h1, h3 hl, fun l => by cases l⟩

/-- The first line of a `waitfor` keeps `P`. -/
theorem Kept.startPoll {P : State → Prop} (k : Kept P) (r : Reg) (hs : r.isStatus = true) (n : Var)
    (m : Word) (s : State) (h : P s) : P (Machine.startPoll r n m s) := by
  unfold Machine.startPoll
  split
  · rename_i hv
    exact k.pollRead _ s h fun _ =>
      ⟨by simp [State.statusRead, hs, hv], Nat.zero_le _, fun l => by cases l⟩
  · exact k.mark _ _ h

/-- Every operation keeps `P`. -/
theorem Kept.exec {P : State → Prop} (k : Kept P) (i : Instr) (s t : State) (h : P s)
    (he : Machine.exec i s = .next t) : P t := by
  cases i with
  | clkon n d => cases he; exact k.setsVar _ _ _ (k.clockOn _ _ h)
  | clkoff d => cases he; exact k.clockOff _ _ h
  | rsta n => cases he; exact k.setsVar _ _ _ (k.resetOn _ h)
  | rstd n =>
    cases he
    split
    · exact k.setsVar _ _ _ (k.resetOff _ h)
    · exact k.resetOff _ h
  | delay n => cases he; exact k.delay _ _ h
  | waitforIrqSt n m => cases he; exact k.startPoll _ rfl _ _ _ h
  | waitforIntStatus n m => cases he; exact k.startPoll _ rfl _ _ _ h
  | r8UserQ n => cases he; exact k.setsVar _ _ _ (k.read _ _ h)
  | r8Other r n => cases he; exact k.setsVar _ _ _ (k.width _ _ h)
  | w32ModeCtrl d => cases he; exact k.write .modeCtrl d _ h
  | w32IrqSt d => cases he; exact k.write .irqSt d _ h
  | w32AccessAddr d => cases he; exact k.write .accessAddr d _ h
  | w32RdData d => cases he; exact k.write .rdData d _ h
  | w32ReprRdTransNum d => cases he; exact k.write .reprRdTransNum d _ h
  | w32SbpiCtrl d => cases he; exact k.write .sbpiCtrl d _ h
  | w32SbpiCmdValidPre d => cases he; exact k.write .sbpiCmdValidPre d _ h
  | w32SbpiCmd0 d => cases he; exact k.write .sbpiCmd0 d _ h
  | w32SbpiCmd1 d => cases he; exact k.write .sbpiCmd1 d _ h
  | w32IntStatus d => cases he; exact k.write .intStatus d _ h
  | w32UserCtrl d => cases he; exact k.write .userCtrl d _ h
  | w32UserAddr d => cases he; exact k.write .userAddr d _ h
  | w32UserEnable d => cases he; exact k.write .userEnable d _ h
  | w32UserQ d => cases he; exact k.write .userQ d _ h
  | r32ModeCtrl n => cases he; exact k.setsVar _ _ _ (k.read _ _ h)
  | r32IrqSt n => cases he; exact k.setsVar _ _ _ (k.read _ _ h)
  | r32AccessAddr n => cases he; exact k.setsVar _ _ _ (k.read _ _ h)
  | r32RdData n => cases he; exact k.setsVar _ _ _ (k.read _ _ h)
  | r32ReprRdTransNum n => cases he; exact k.setsVar _ _ _ (k.read _ _ h)
  | r32SbpiCtrl n => cases he; exact k.setsVar _ _ _ (k.read _ _ h)
  | r32SbpiCmdValidPre n => cases he; exact k.setsVar _ _ _ (k.read _ _ h)
  | r32SbpiCmd0 n => cases he; exact k.setsVar _ _ _ (k.read _ _ h)
  | r32SbpiCmd1 n => cases he; exact k.setsVar _ _ _ (k.read _ _ h)
  | r32IntStatus n => cases he; exact k.setsVar _ _ _ (k.read _ _ h)
  | r32UserCtrl n => cases he; exact k.setsVar _ _ _ (k.read _ _ h)
  | r32UserAddr n => cases he; exact k.setsVar _ _ _ (k.read _ _ h)
  | r32UserEnable n => cases he; exact k.setsVar _ _ _ (k.read _ _ h)
  | r32UserQ n => cases he; exact k.setsVar _ _ _ (k.read _ _ h)

/-- Every step keeps `P`. -/
theorem Kept.step {P : State → Prop} (k : Kept P) (s t : State) (h : P s)
    (he : Machine.step s = .next t) : P t := by
  have ht := k.schedule (nextIsStatusRead s) s h
  rcases step_cases s t he with ⟨hc, rfl⟩ | ⟨p, hp, rfl⟩ | ⟨-, rfl⟩ | ⟨i, rest, -, -, hx⟩
  · refine k.completion _ ht ?_
    rw [turnTaken_eq]
    exact hc
  · exact k.pollStep p _ ht (by rw [turnTaken_eq]; exact hp)
  · exact k.mark _ _ (k.fetched _ _ ht)
  · exact k.exec i _ t (k.fetched _ _ ht) hx

/-- A register write line of a host procedure keeps `P`. -/
theorem Kept.lineWrite {P : State → Prop} (k : Kept P) (r : Reg) (d : Word) (s : State)
    (h : P s) : P (Machine.lineWrite r d s) :=
  k.write _ _ _ (k.interleave _ _ h)

/-- A mode command and its wait keep `P` (R140, R141). -/
theorem Kept.modeStep {P : State → Prop} (k : Kept P) (code mask : Word) (s : State) (h : P s) :
    P (Machine.modeStep code mask s).state :=
  k.poll _ _ _ _ _ (k.lineWrite _ _ _ h)

/-- `WALK_UP` keeps `P` (R140). -/
theorem Kept.walkUp {P : State → Prop} (k : Kept P) (s : State) (h : P s) :
    P (Machine.walkUp s).2 := by
  have hfs : ∀ t, P t → P (walkUpFromStandby t).2 := fun t ht => k.modeStep _ _ t ht
  have h1 : P (lineRead .modeCtrl s).2 := k.read _ _ (k.interleave _ _ h)
  unfold Machine.walkUp
  split
  · rename_i t e
    rw [e] at h1
    exact h1
  · rename_i m t e
    rw [e] at h1
    dsimp only
    split
    · split
      · exact hfs _ (k.modeStep _ _ _ h1)
      · exact k.modeStep _ _ _ h1
    · split
      · exact hfs _ h1
      · exact h1

/-- `WALK_DOWN` keeps `P` (R141). -/
theorem Kept.walkDown {P : State → Prop} (k : Kept P) (s : State) (h : P s) :
    P (Machine.walkDown s).2 := by
  have hfs : ∀ t, P t → P (walkDownFromStandby t).2 := fun t ht => k.modeStep _ _ t ht
  have h1 : P (lineRead .modeCtrl s).2 := k.read _ _ (k.interleave _ _ h)
  unfold Machine.walkDown
  split
  · rename_i t e
    rw [e] at h1
    exact h1
  · rename_i m t e
    rw [e] at h1
    dsimp only
    split
    · split
      · exact hfs _ (k.modeStep _ _ _ h1)
      · exact k.modeStep _ _ _ h1
    · split
      · exact hfs _ h1
      · exact h1

end Sys2Proof.Machine
end

