-- ==== Sys2Proof/Laws/Memory.lean ====
section
/-! SUPPORT. The laws of the byte memories: a read after a write, the canonical form kept, equal
memories are equal data. -/

namespace Sys2Proof.Machine

/-- Reading after a write: the byte written at its address, every other address as before. -/
theorem Memory.read_write (m : Memory) (a b : Nat) (x : Byte) :
    (Memory.write m a x).read b = if b = a then some x else Memory.read m b := by
  induction m with
  | nil => simp [Memory.write, Memory.read, eq_comm]
  | cons c m ih =>
    obtain ⟨k, y⟩ := c
    simp only [Memory.write]
    by_cases h1 : a < k
    · rw [if_pos h1]
      by_cases hb : b = a
      · simp [Memory.read, hb]
      · simp [Memory.read, hb, Ne.symm hb]
    · rw [if_neg h1]
      by_cases h2 : a = k
      · subst h2
        by_cases hb : b = a
        · simp [Memory.read, hb]
        · simp [Memory.read, hb, Ne.symm hb]
      · rw [if_neg h2]
        simp only [Memory.read]
        by_cases hb : k = b
        · subst hb
          simp [Ne.symm h2]
        · rw [if_neg hb, if_neg hb, ih]

/-- An address below every listed one lists nothing. -/
theorem Memory.read_below (m : Memory) (lo a : Nat) (h : Memory.risesFrom lo m = true)
    (ha : a < lo) : m.read a = none := by
  induction m generalizing lo with
  | nil => rfl
  | cons c m ih =>
    obtain ⟨k, y⟩ := c
    simp only [Memory.risesFrom, Bool.and_eq_true, decide_eq_true_eq] at h
    simp only [Memory.read]
    rw [if_neg (by omega)]
    exact ih (k + 1) h.2 (by omega)

/-- A lower start is a weaker bound. -/
theorem Memory.risesFrom_mono (m : Memory) (lo hi : Nat) (h : Memory.risesFrom hi m = true)
    (hl : lo ≤ hi) : Memory.risesFrom lo m = true := by
  cases m with
  | nil => rfl
  | cons c m =>
    obtain ⟨k, y⟩ := c
    simp only [Memory.risesFrom, Bool.and_eq_true, decide_eq_true_eq] at h ⊢
    exact ⟨by omega, h.2⟩

/-- A write keeps the addresses rising from a start at or below its own. -/
theorem Memory.write_risesFrom (m : Memory) (lo a : Nat) (x : Byte)
    (h : Memory.risesFrom lo m = true) (hl : lo ≤ a) :
    Memory.risesFrom lo (m.write a x) = true := by
  induction m generalizing lo with
  | nil => simp [Memory.write, Memory.risesFrom, hl]
  | cons c m ih =>
    obtain ⟨k, y⟩ := c
    simp only [Memory.risesFrom, Bool.and_eq_true, decide_eq_true_eq] at h
    simp only [Memory.write]
    split_ifs with h1 h2
    · simp [Memory.risesFrom, hl, h.2]
      omega
    · subst h2
      simp [Memory.risesFrom, hl, h.2]
    · simp only [Memory.risesFrom, Bool.and_eq_true, decide_eq_true_eq]
      exact ⟨h.1, ih (k + 1) h.2 (by omega)⟩

/-- Every write keeps the canonical form. -/
theorem Memory.write_wf (m : Memory) (a : Nat) (x : Byte) (h : m.wf = true) :
    (m.write a x).wf = true :=
  Memory.write_risesFrom m 0 a x h (Nat.zero_le a)

/-- Writing a list of bytes keeps the canonical form. -/
theorem Memory.writeList_wf (xs : List Byte) (m : Memory) (a : Nat) (h : m.wf = true) :
    (m.writeList a xs).wf = true := by
  induction xs generalizing m a with
  | nil => exact h
  | cons x xs ih => exact ih (m.write a x) (a + 1) (Memory.write_wf m a x h)

/-- Reading after a list of bytes was written from `a`: the bytes there, every other address as
before. -/
theorem Memory.read_writeList (xs : List Byte) (m : Memory) (a b : Nat) :
    (m.writeList a xs).read b =
      if a ≤ b ∧ b < a + xs.length then xs[b - a]? else m.read b := by
  induction xs generalizing m a with
  | nil =>
    rw [if_neg (by simp only [List.length_nil]; omega)]
    rfl
  | cons x xs ih =>
    rw [Memory.writeList, ih, Memory.read_write]
    simp only [List.length_cons]
    by_cases h1 : a + 1 ≤ b ∧ b < a + 1 + xs.length
    · rw [if_pos h1, if_pos (by omega)]
      have e : b - a = (b - (a + 1)) + 1 := by omega
      rw [e, List.getElem?_cons_succ]
    · rw [if_neg h1]
      by_cases h2 : b = a
      · subst h2
        rw [if_pos rfl, if_pos (by omega)]
        simp
      · rw [if_neg h2, if_neg (by omega)]

/-- Equal contents are equal data: two canonical memories that list the same bytes are the same
list. -/
theorem Memory.ext_read (m n : Memory) (lo : Nat) (hm : Memory.risesFrom lo m = true)
    (hn : Memory.risesFrom lo n = true) (h : ∀ a, m.read a = n.read a) : m = n := by
  induction m generalizing n lo with
  | nil =>
    cases n with
    | nil => rfl
    | cons c n =>
      obtain ⟨k, y⟩ := c
      have := h k
      simp [Memory.read] at this
  | cons c m ih =>
    obtain ⟨k, y⟩ := c
    cases n with
    | nil =>
      have := h k
      simp [Memory.read] at this
    | cons d n =>
      obtain ⟨j, z⟩ := d
      simp only [Memory.risesFrom, Bool.and_eq_true, decide_eq_true_eq] at hm hn
      have hkj : k = j := by
        rcases Nat.lt_trichotomy k j with hlt | heq | hgt
        · have := h k
          simp only [Memory.read, if_true] at this
          rw [if_neg (by omega), Memory.read_below n (j + 1) k hn.2 (by omega)] at this
          cases this
        · exact heq
        · have := h j
          simp only [Memory.read, if_true] at this
          rw [if_neg (by omega), Memory.read_below m (k + 1) j hm.2 (by omega)] at this
          cases this
      subst hkj
      have hyz : y = z := by
        have := h k
        simpa [Memory.read] using this
      subst hyz
      congr 1
      refine ih n (k + 1) hm.2 hn.2 ?_
      intro a
      by_cases ha : k = a
      · subst ha
        rw [Memory.read_below m (k + 1) k hm.2 (by omega),
          Memory.read_below n (k + 1) k hn.2 (by omega)]
      · have := h a
        simpa [Memory.read, ha] using this

/-- The memories of State.reset are canonical. -/
theorem reset_memories_canonical : memoriesCanonical State.reset := by
  refine ⟨rfl, rfl, rfl⟩

end Sys2Proof.Machine
end

