-- ==== Sys2Proof/Laws/PerInstr.lean ====
section
/-! SUPPORT. The per-instruction family RowForm: the words of every operation are a header and, for
the classes 0x1 and 0x9 alone, one operand word (spec/30_encoding.md R84 to R88, R96). -/

namespace Sys2Proof.Laws.RowForm

/-- The words of `i` begin with a header whose class gives their number (R96). -/
def Statement (i : Instr) : Prop :=
  ∃ h rest, encode i = h :: rest ∧ (encode i).length = headerLength h

theorem w32ModeCtrl (d : Word) : Statement (.w32ModeCtrl d) :=
  ⟨_, _, rfl, by simp [encode, encodeW32, headerLength_header]⟩

theorem w32IrqSt (d : Word) : Statement (.w32IrqSt d) :=
  ⟨_, _, rfl, by simp [encode, encodeW32, headerLength_header]⟩

theorem w32AccessAddr (d : Word) : Statement (.w32AccessAddr d) :=
  ⟨_, _, rfl, by simp [encode, encodeW32, headerLength_header]⟩

theorem w32RdData (d : Word) : Statement (.w32RdData d) :=
  ⟨_, _, rfl, by simp [encode, encodeW32, headerLength_header]⟩

theorem w32ReprRdTransNum (d : Word) : Statement (.w32ReprRdTransNum d) :=
  ⟨_, _, rfl, by simp [encode, encodeW32, headerLength_header]⟩

theorem w32SbpiCtrl (d : Word) : Statement (.w32SbpiCtrl d) :=
  ⟨_, _, rfl, by simp [encode, encodeW32, headerLength_header]⟩

theorem w32SbpiCmdValidPre (d : Word) : Statement (.w32SbpiCmdValidPre d) :=
  ⟨_, _, rfl, by simp [encode, encodeW32, headerLength_header]⟩

theorem w32SbpiCmd0 (d : Word) : Statement (.w32SbpiCmd0 d) :=
  ⟨_, _, rfl, by simp [encode, encodeW32, headerLength_header]⟩

theorem w32SbpiCmd1 (d : Word) : Statement (.w32SbpiCmd1 d) :=
  ⟨_, _, rfl, by simp [encode, encodeW32, headerLength_header]⟩

theorem w32IntStatus (d : Word) : Statement (.w32IntStatus d) :=
  ⟨_, _, rfl, by simp [encode, encodeW32, headerLength_header]⟩

theorem w32UserCtrl (d : Word) : Statement (.w32UserCtrl d) :=
  ⟨_, _, rfl, by simp [encode, encodeW32, headerLength_header]⟩

theorem w32UserAddr (d : Word) : Statement (.w32UserAddr d) :=
  ⟨_, _, rfl, by simp [encode, encodeW32, headerLength_header]⟩

theorem w32UserEnable (d : Word) : Statement (.w32UserEnable d) :=
  ⟨_, _, rfl, by simp [encode, encodeW32, headerLength_header]⟩

theorem w32UserQ (d : Word) : Statement (.w32UserQ d) :=
  ⟨_, _, rfl, by simp [encode, encodeW32, headerLength_header]⟩

theorem r32ModeCtrl (n : Var) : Statement (.r32ModeCtrl n) :=
  ⟨_, _, rfl, by simp [encode, encodeR32, headerLength_header]⟩

theorem r32IrqSt (n : Var) : Statement (.r32IrqSt n) :=
  ⟨_, _, rfl, by simp [encode, encodeR32, headerLength_header]⟩

theorem r32AccessAddr (n : Var) : Statement (.r32AccessAddr n) :=
  ⟨_, _, rfl, by simp [encode, encodeR32, headerLength_header]⟩

theorem r32RdData (n : Var) : Statement (.r32RdData n) :=
  ⟨_, _, rfl, by simp [encode, encodeR32, headerLength_header]⟩

theorem r32ReprRdTransNum (n : Var) : Statement (.r32ReprRdTransNum n) :=
  ⟨_, _, rfl, by simp [encode, encodeR32, headerLength_header]⟩

theorem r32SbpiCtrl (n : Var) : Statement (.r32SbpiCtrl n) :=
  ⟨_, _, rfl, by simp [encode, encodeR32, headerLength_header]⟩

theorem r32SbpiCmdValidPre (n : Var) : Statement (.r32SbpiCmdValidPre n) :=
  ⟨_, _, rfl, by simp [encode, encodeR32, headerLength_header]⟩

theorem r32SbpiCmd0 (n : Var) : Statement (.r32SbpiCmd0 n) :=
  ⟨_, _, rfl, by simp [encode, encodeR32, headerLength_header]⟩

theorem r32SbpiCmd1 (n : Var) : Statement (.r32SbpiCmd1 n) :=
  ⟨_, _, rfl, by simp [encode, encodeR32, headerLength_header]⟩

theorem r32IntStatus (n : Var) : Statement (.r32IntStatus n) :=
  ⟨_, _, rfl, by simp [encode, encodeR32, headerLength_header]⟩

theorem r32UserCtrl (n : Var) : Statement (.r32UserCtrl n) :=
  ⟨_, _, rfl, by simp [encode, encodeR32, headerLength_header]⟩

theorem r32UserAddr (n : Var) : Statement (.r32UserAddr n) :=
  ⟨_, _, rfl, by simp [encode, encodeR32, headerLength_header]⟩

theorem r32UserEnable (n : Var) : Statement (.r32UserEnable n) :=
  ⟨_, _, rfl, by simp [encode, encodeR32, headerLength_header]⟩

theorem r32UserQ (n : Var) : Statement (.r32UserQ n) :=
  ⟨_, _, rfl, by simp [encode, encodeR32, headerLength_header]⟩

theorem r8UserQ (n : Var) : Statement (.r8UserQ n) :=
  ⟨_, _, rfl, by simp [encode, encodeR8, headerLength_header]⟩

theorem r8Other (r : Reg) (n : Var) : Statement (.r8Other r n) :=
  ⟨_, _, rfl, by simp [encode, encodeR8, headerLength_header]⟩

theorem clkon (n : Var) (d : Domain) : Statement (.clkon n d) :=
  ⟨_, _, rfl, by simp [encode, headerLength_header]⟩

theorem clkoff (d : Domain) : Statement (.clkoff d) :=
  ⟨_, _, rfl, by simp [encode, headerLength_header]⟩

theorem rsta (n : Var) : Statement (.rsta n) :=
  ⟨_, _, rfl, by simp [encode, headerLength_header]⟩

theorem rstd (n : Var) : Statement (.rstd n) :=
  ⟨_, _, rfl, by simp [encode, headerLength_header]⟩

theorem delay (n : BitVec 16) : Statement (.delay n) :=
  ⟨_, _, rfl, by simp [encode, headerLength_header]⟩

theorem waitforIrqSt (n : Var) (m : Word) : Statement (.waitforIrqSt n m) :=
  ⟨_, _, rfl, by simp [encode, encodeWaitfor, headerLength_header]⟩

theorem waitforIntStatus (n : Var) (m : Word) : Statement (.waitforIntStatus n m) :=
  ⟨_, _, rfl, by simp [encode, encodeWaitfor, headerLength_header]⟩

end Sys2Proof.Laws.RowForm
end

