-- ==== Sys2Proof/Laws/Poll.lean ====
section
/-! SUPPORT. What a poll's lines and the steps between them can do: the operations a poll is made of
do not see the host's position, a poll round by round, and one host step with the controller's step
before it. -/

namespace Sys2Proof.Machine

/-- The choice of the agent does not see the host's position. -/
theorem turnTaken_position (b : Bool) (q : Option Poll) (w : List Word) (s : State) :
    ({ s with poll := q, program := w } : State).turnTaken b =
      { s.turnTaken b with poll := q, program := w } := by
  have hc : ({ s with poll := q, program := w } : State).canComplete = s.canComplete := rfl
  have hr : ({ s with poll := q, program := w } : State).boundReached = s.boundReached := rfl
  unfold State.turnTaken
  rw [hc, hr]
  split <;> rfl

/-- A completion does not see the host's position. -/
theorem complete_position (q : Option Poll) (w : List Word) (s : State) :
    complete { s with poll := q, program := w } =
      { complete s with poll := q, program := w } := by
  unfold complete
  dsimp only
  cases s.cfg.variant
  · unfold completeA
    dsimp only
    cases s.ctlA.pend with
    | none => rfl
    | some p =>
      cases p with
      | sbpi d c0 c1 => rfl
      | user a =>
        have h : readableByte { s with poll := q, program := w } a = readableByte s a := rfl
        unfold completeUser
        dsimp only
        rw [h]
        cases readableByte s a <;> rfl
  · unfold completeB
    dsimp only
    cases s.ctlB.pend with
    | none => rfl
    | some p =>
      cases p with
      | read a =>
        unfold completeRead
        dsimp only
        cases readableWord s.cfg a <;> rfl
      | _ => rfl

/-- What happens between two host steps does not see the host's position. -/
theorem interleave_position (b : Bool) (q : Option Poll) (w : List Word) (s : State) :
    interleave b { s with poll := q, program := w } =
      { interleave b s with poll := q, program := w } := by
  have h : ({ s with poll := q, program := w } : State).controllerMoves b =
      s.controllerMoves b := rfl
  unfold interleave
  rw [h, turnTaken_position, complete_position]
  split <;> rfl

/-- An access does not see the host's position where its effect does not. -/
theorem access_position (r : Reg) (f : State → State) (q : Option Poll) (w : List Word) (s : State)
    (hf : f { s with poll := q, program := w } = { f s with poll := q, program := w }) :
    access r f { s with poll := q, program := w } =
      { access r f s with poll := q, program := w } := by
  have h : guardOk r { s with poll := q, program := w } = guardOk r s := rfl
  unfold access
  rw [h]
  split
  · exact hf
  · rfl

/-- A read does not see the host's position. -/
theorem readEffect_position (r : Reg) (q : Option Poll) (w : List Word) (s : State) :
    readEffect r { s with poll := q, program := w } =
      { readEffect r s with poll := q, program := w } := by
  apply access_position
  have h : ({ s with poll := q, program := w } : State).spend.pending = s.spend.pending := rfl
  unfold State.countStatusRead
  rw [h]
  split <;> rfl

/-- The value of a read does not depend on the host's position. -/
theorem readResult_position (r : Reg) (q : Option Poll) (w : List Word) (s : State) :
    readResult r { s with poll := q, program := w } = readResult r s := by
  cases r <;> rfl

/-- The acknowledge of a poll does not see the host's position. -/
theorem regWrite_position (r : Reg) (hr : r.isStatus = true) (m : Word) (q : Option Poll)
    (w : List Word) (s : State) :
    regWrite r m { s with poll := q, program := w } =
      { regWrite r m s with poll := q, program := w } := by
  cases r <;> first | exact absurd hr (by decide) | skip
  · exact access_position .irqSt (fun s => { s with
      regsB := { s.regsB with irqSt := IrqSt.acknowledge s.cfg s.regsB.irqSt m } }) q w s rfl
  · exact access_position .intStatus (fun s => { s with
      regsA := { s.regsA with
        intStatus := IntStatus.acknowledge s.cfg s.regsA.intStatus m } }) q w s rfl

/-- A completion leaves nothing pending (R133, R134, R161, R165). -/
theorem complete_pending (s : State) : (complete s).pending = false := by
  unfold complete
  cases hv : s.cfg.variant
  · dsimp only
    unfold completeA
    cases hp : s.ctlA.pend with
    | none => simp [State.pending, hv, hp]
    | some p =>
      cases p with
      | sbpi d c0 c1 => simp [completeSbpi, State.pending, hv]
      | user a =>
        cases h : readableByte s a <;> simp [completeUser, State.pending, hv, h, State.spend]
  · dsimp only
    unfold completeB
    cases hp : s.ctlB.pend with
    | none => simp [State.pending, hv, hp]
    | some p =>
      cases p with
      | read a =>
        cases h : readableWord s.cfg a <;>
          simp [completeRead, State.pending, hv, h, State.spend]
      | _ => simp [completeTransition, State.pending, hv]

/-- With nothing pending nothing happens between two host steps. -/
theorem interleave_idle (b : Bool) (s : State) (h : s.pending = false) : interleave b s = s := by
  simp [interleave, State.controllerMoves, State.canComplete, h, State.turnTaken]

/-- With nothing pending the step is the host's. -/
theorem step_idle (s : State) (h : s.pending = false) : step s = hostStep s := by
  simp [step, State.controllerMoves, State.canComplete, h, State.turnTaken]

/-- What happens between two host steps leaves the host's position and the configuration. -/
theorem interleave_host (b : Bool) (s : State) :
    (interleave b s).poll = s.poll ∧ (interleave b s).program = s.program ∧
      (interleave b s).cfg = s.cfg := by
  rcases interleave_cases b s with e | ⟨_, e⟩ <;> rw [e]
  · rw [turnTaken_eq]
    exact ⟨rfl, rfl, rfl⟩
  · rw [complete_frame, turnTaken_eq]
    exact ⟨rfl, rfl, rfl⟩

/-- The register a poll reads is a status read before and after the controller's move. -/
theorem statusRead_interleave (b : Bool) (r : Reg) (s : State) :
    (interleave b s).statusRead r = s.statusRead r := by
  unfold State.statusRead
  rw [(interleave_host b s).2.2]

/-- Steps after steps. -/
theorem stepsTo_trans (j k : Nat) (s t u : State) (h1 : stepsTo j s t) (h2 : stepsTo k t u) :
    stepsTo (j + k) s u := by
  induction j generalizing s with
  | zero =>
    cases h1
    simpa using h2
  | succ j ih =>
    obtain ⟨x, e, h⟩ := h1
    rw [Nat.succ_add]
    exact ⟨x, e, ih x h⟩

/-- One host step with the controller free to move before it is one step of the machine, or two of
which the first completes what is pending and leaves nothing pending (R73). -/
theorem hostStep_steps (s t : State)
    (h : hostStep (interleave (nextIsStatusRead s) s) = .next t) :
    stepsTo 1 s t ∨
      (s.pending = true ∧ (interleave (nextIsStatusRead s) s).pending = false ∧
        stepsTo 2 s t) := by
  generalize hb : nextIsStatusRead s = b at h ⊢
  cases hm : s.controllerMoves b
  · refine .inl ⟨t, ?_, rfl⟩
    have e : interleave b s = s.turnTaken b := by simp [interleave, hm]
    unfold step
    rw [hb, hm, ← e]
    simpa using h
  · have e : interleave b s = complete (s.turnTaken b) := by simp [interleave, hm]
    have hp : (complete (s.turnTaken b)).pending = false := complete_pending _
    refine .inr ⟨?_, by rw [e]; exact hp, complete (s.turnTaken b), ?_, t, ?_, rfl⟩
    · simp only [State.controllerMoves, State.canComplete, Bool.and_eq_true] at hm
      exact hm.1.2
    · unfold step
      rw [hb, hm]
      rfl
    · rw [step_idle _ hp, ← e]
      exact h

/-- A round of a poll of the live variant's status register that matches (R190). -/
theorem pollLoop_match (r : Reg) (m : Word) (left made : Nat) (s : State)
    (hs : s.statusRead r = true)
    (h : pollMatches m (readResult r (interleave true s)) = true) :
    pollLoop r m left made s =
      { matched := true, reads := made + 1,
        state := regWrite r m (interleave false (readEffect r (interleave true s))) } := by
  unfold pollLoop
  rw [hs]
  simp [h]

/-- The last round of a poll, without a match (R193). -/
theorem pollLoop_last (r : Reg) (m : Word) (made : Nat) (s : State) (hs : s.statusRead r = true)
    (h : pollMatches m (readResult r (interleave true s)) = false) :
    pollLoop r m 0 made s =
      { matched := false, reads := made + 1, state := readEffect r (interleave true s) } := by
  unfold pollLoop
  rw [hs]
  simp [h]

/-- A round of a poll that does not match and is not the last (R190). -/
theorem pollLoop_round (r : Reg) (m : Word) (left made : Nat) (s : State)
    (hs : s.statusRead r = true)
    (h : pollMatches m (readResult r (interleave true s)) = false) :
    pollLoop r m (left + 1) made s =
      pollLoop r m left (made + 1)
        (delayBy pollInterval (interleave false (readEffect r (interleave true s)))) := by
  conv_lhs => unfold pollLoop
  rw [hs]
  simp [h]

end Sys2Proof.Machine
end

