-- ==== Sys2Proof/Tests/Slice0.lean ====
section
/-! SUPPORT. Tests of the model. Expected results come from spec/95_test_vectors.md (the vector's
name stands in the comment) or are worked by hand from the rule named; the words are written from
the encoding tables of spec/30_encoding.md. The last part shows, for each statement with
hypotheses, a state and operands that meet them. -/

open Sys2Proof Sys2Proof.Machine

namespace Sys2Proof.Tests

/-! ### States -/

/-- `Cfg_T` with variant A. -/
def cfgA : Cfg := { launchCfg with variant := .A }

/-- Draws of 0 and the turns given, with free values after them. -/
def envOf (script : List Word) (turns : List Agent) : Env :=
  { script := script ++ List.replicate 30 0, drawn := 0, turns := turns, turned := 0 }

/-- Every controller step right after the operation that enables it: the prompt schedule. -/
def prompt : List Agent := List.replicate 40 .controller

/-- Every clock on, no reset. -/
def openGate : Gate := { func := true, bus := true, phy := true, rst := false, rstAt := none }

/-- The first fuse bytes of spec/95_test_vectors.md, variant A. -/
def bytesA : Memory := [(0, 0x40), (1, 0x41), (2, 0x42), (3, 0x43)]

/-- The first fuse bytes of spec/95_test_vectors.md, variant B: words 224 and 225. -/
def bytesB : Memory :=
  [(896, 0), (897, 1), (898, 2), (899, 3), (900, 4), (901, 5), (902, 6), (903, 7)]

/-- After launch of `Cfg_T`, clocks off. -/
def offB : State := State.launch launchCfg bytesA bytesB (envOf [] prompt) []

/-- Variant B, gate up, in mode `m` with `p` pending. -/
def stB (m : Mode) (p : Option PendB) : State :=
  { offB with
    gate := openGate, ctlB := { mode := m, pend := p }, env := envOf [5] prompt,
    regsB := { RegsB.resetValue .zero with transNum := some 1, accessAddr := some 0xE0 } }

/-- Variant A, gate up, with `p` pending. -/
def stA (p : Option PendA) : State :=
  { State.launch cfgA bytesA bytesB (envOf [] prompt) [] with
    gate := openGate, ctlA := { eccEn := false, pend := p, userOnAt := none },
    env := envOf [0xFFFF1234] prompt }

/-- Variant A with the ECC command in its registers (vector A1). -/
def stCmd (cmd1 : Word) : State :=
  { stA none with
    regsA := { RegsA.resetValue .zero with
      dap := some 2, cmdValid := some 1, cmd0 := some 0xFA, cmd1 := some cmd1 } }

/-- Variant A in user mode since time 2, now at `t` (vectors A6, A7). -/
def stUser (t : Nat) (p : Option PendA) : State :=
  { stA p with
    now := t, ctlA := { eccEn := false, pend := p, userOnAt := some 2 },
    regsA := { RegsA.resetValue .zero with useUser := true, uaddr := some 3 } }

/-- `s` with a program. -/
def withProgram (s : State) (ws : List Word) : State := { s with program := ws }

/-- The state after an operation; the state before it where there is none. -/
def after (i : Instr) (s : State) : State :=
  match exec i s with
  | .next t => t
  | _ => s

/-- The state after a step; the state before it where there is none. -/
def stepped (s : State) : State :=
  match step s with
  | .next t => t
  | _ => s

/-- The state after `k` steps. -/
def steps : Nat → State → State
  | 0, s => s
  | k + 1, s => steps k (stepped s)

/-! ### Well-formedness: the smoke tests -/

theorem test_wf_instr : (Instr.r8Other .userQ 0).wf = false ∧ (Instr.r8Other .rdData 0).wf = true := by
  decide

theorem test_wf_cfg : launchCfg.wf = true ∧ cfgA.wf = true := by decide

theorem test_wf_codes : ({ launchCfg with encRA := 1 } : Cfg).wf = false := by decide

theorem test_wf_irq_bits : ({ launchCfg with bitRdm := 8 } : Cfg).wf = false := by decide

theorem test_wf_int_bits : ({ launchCfg with bitUserDone := 1 } : Cfg).wf = false := by decide

theorem test_wf_widths :
    ({ launchCfg with accessAddrW := 8 } : Cfg).wf = false ∧
    ({ launchCfg with accessAddrW := 33 } : Cfg).wf = false ∧
    ({ launchCfg with userAddrW := 17 } : Cfg).wf = false ∧
    ({ launchCfg with dapLo := 9 } : Cfg).wf = false ∧
    ({ launchCfg with dapEcc := 0x100 } : Cfg).wf = false := by decide

theorem test_wf_payloads : ({ launchCfg with eccEnable := 9 } : Cfg).wf = false := by decide

theorem test_wf_sizes :
    ({ launchCfg with sizeB := 0x7E } : Cfg).wf = false ∧
    ({ launchCfg with otpWords := 255 } : Cfg).wf = false := by decide

theorem test_wf_offsets :
    ({ launchCfg with off := launchCfg.off.set 1 0x2002 } : Cfg).wf = false ∧
    ({ launchCfg with off := launchCfg.off.set 1 0x2000 } : Cfg).wf = false ∧
    ({ launchCfg with off := launchCfg.off.set 6 0x0020 } : Cfg).wf = false := by decide

theorem test_named_words :
    launchCfg.sbpiSelWord = 0xFF000200 ∧ launchCfg.sbpiCmdvWord = 0xFFFF0001 ∧
    launchCfg.sbpiCmd0Word = 0xFA ∧ launchCfg.sbpiCmd1Off = 0x09 ∧
    launchCfg.sbpiGoWord = 0x00010001 ∧ launchCfg.userOnWord = 0x00010001 ∧
    launchCfg.fsmGoWord = 0x00010001 ∧ launchCfg.userOffWord = 0x00010000 ∧
    launchCfg.addrEnMask = 0xFFFF0000 ∧ launchCfg.mRdm = 1 ∧ launchCfg.mStb2act = 0x80 ∧
    launchCfg.mDp2stb = 0x100 ∧ launchCfg.mAct2stb = 0x200 ∧ launchCfg.mStb2dp = 0x400 ∧
    launchCfg.mSbpiDone = 2 ∧ launchCfg.mUserDone = 4 := by decide

/-! ### Decoding: every constructor from a word written from R81 to R88 -/

theorem test_decode_w32_b :
    decode [0x10000000, 0xA0, 9] = some (.ok (.w32ModeCtrl 0xA0, [9])) ∧
    decode [0x10100000, 0xA1, 9] = some (.ok (.w32IrqSt 0xA1, [9])) ∧
    decode [0x10200000, 0xA2, 9] = some (.ok (.w32AccessAddr 0xA2, [9])) ∧
    decode [0x10300000, 0xA3, 9] = some (.ok (.w32RdData 0xA3, [9])) ∧
    decode [0x10400000, 0xA4, 9] = some (.ok (.w32ReprRdTransNum 0xA4, [9])) :=
  ⟨rfl, rfl, rfl, rfl, rfl⟩

theorem test_decode_w32_a :
    decode [0x11000000, 0xA5, 9] = some (.ok (.w32SbpiCtrl 0xA5, [9])) ∧
    decode [0x11100000, 0xA6, 9] = some (.ok (.w32SbpiCmdValidPre 0xA6, [9])) ∧
    decode [0x11200000, 0xA7, 9] = some (.ok (.w32SbpiCmd0 0xA7, [9])) ∧
    decode [0x11300000, 0xA8, 9] = some (.ok (.w32SbpiCmd1 0xA8, [9])) ∧
    decode [0x11400000, 0xA9, 9] = some (.ok (.w32IntStatus 0xA9, [9])) ∧
    decode [0x11500000, 0xAA, 9] = some (.ok (.w32UserCtrl 0xAA, [9])) ∧
    decode [0x11600000, 0xAB, 9] = some (.ok (.w32UserAddr 0xAB, [9])) ∧
    decode [0x11700000, 0xAC, 9] = some (.ok (.w32UserEnable 0xAC, [9])) ∧
    decode [0x11800000, 0xAD, 9] = some (.ok (.w32UserQ 0xAD, [9])) :=
  ⟨rfl, rfl, rfl, rfl, rfl, rfl, rfl, rfl, rfl⟩

theorem test_decode_r32_b :
    decode [0x20000000, 9] = some (.ok (.r32ModeCtrl 0, [9])) ∧
    decode [0x20110000, 9] = some (.ok (.r32IrqSt 1, [9])) ∧
    decode [0x20220000, 9] = some (.ok (.r32AccessAddr 2, [9])) ∧
    decode [0x20330000, 9] = some (.ok (.r32RdData 3, [9])) ∧
    decode [0x20440000, 9] = some (.ok (.r32ReprRdTransNum 4, [9])) :=
  ⟨rfl, rfl, rfl, rfl, rfl⟩

theorem test_decode_r32_a :
    decode [0x21050000, 9] = some (.ok (.r32SbpiCtrl 5, [9])) ∧
    decode [0x21160000, 9] = some (.ok (.r32SbpiCmdValidPre 6, [9])) ∧
    decode [0x21270000, 9] = some (.ok (.r32SbpiCmd0 7, [9])) ∧
    decode [0x21380000, 9] = some (.ok (.r32SbpiCmd1 8, [9])) ∧
    decode [0x21490000, 9] = some (.ok (.r32IntStatus 9, [9])) ∧
    decode [0x215A0000, 9] = some (.ok (.r32UserCtrl 10, [9])) ∧
    decode [0x216B0000, 9] = some (.ok (.r32UserAddr 11, [9])) ∧
    decode [0x217C0000, 9] = some (.ok (.r32UserEnable 12, [9])) ∧
    decode [0x218D0000, 9] = some (.ok (.r32UserQ 13, [9])) :=
  ⟨rfl, rfl, rfl, rfl, rfl, rfl, rfl, rfl, rfl⟩

theorem test_decode_r8 :
    decode [0x31830000] = some (.ok (.r8UserQ 3, [])) ∧
    decode [0x300F0000] = some (.ok (.r8Other .modeCtrl 15, [])) ∧
    decode [0x31700000] = some (.ok (.r8Other .userEnable 0, [])) :=
  ⟨rfl, rfl, rfl⟩

theorem test_decode_system :
    decode [0x40030000] = some (.ok (.clkon 3 .func, [])) ∧
    decode [0x40030001] = some (.ok (.clkon 3 .bus, [])) ∧
    decode [0x400F0002] = some (.ok (.clkon 15 .phy, [])) ∧
    decode [0x50000000] = some (.ok (.clkoff .func, [])) ∧
    decode [0x50000002] = some (.ok (.clkoff .phy, [])) ∧
    decode [0x60050000] = some (.ok (.rsta 5, [])) ∧
    decode [0x70060000] = some (.ok (.rstd 6, [])) ∧
    decode [0x8000FFFF] = some (.ok (.delay 0xFFFF, [])) :=
  ⟨rfl, rfl, rfl, rfl, rfl, rfl, rfl, rfl⟩

theorem test_decode_waitfor :
    decode [0x90120000, 0x100] = some (.ok (.waitforIrqSt 2 0x100, [])) ∧
    decode [0x91420000, 4, 7] = some (.ok (.waitforIntStatus 2 4, [7])) :=
  ⟨rfl, rfl⟩

/-- V24, V25, V26, V28, V29, and one word for each other bullet of R89. -/
theorem test_decode_reserved :
    decode [0x00000000] = some (.error .reservedClass) ∧
    decode [0xA0000000] = some (.error .reservedClass) ∧
    decode [0x20500000] = some (.error .reservedRegister) ∧
    decode [0x21900000] = some (.error .reservedRegister) ∧
    decode [0x40000003] = some (.error .reservedDomain) ∧
    decode [0x10000000] = some (.error .truncated) ∧
    decode [0x80010003] = some (.error .nonZeroField) ∧
    decode [0x10010000, 0] = some (.error .nonZeroField) ∧
    decode [0x20000001] = some (.error .nonZeroField) ∧
    decode [0x60100000] = some (.error .nonZeroField) ∧
    decode [0x90000000, 1] = some (.error .notStatusRegister) :=
  ⟨rfl, rfl, rfl, rfl, rfl, rfl, rfl, rfl, rfl, rfl, rfl⟩

theorem test_table_word :
    decodeTableWord 64 0x000000E010200000 = some (.w32AccessAddr 0xE0) ∧
    decodeTableWord 32 0x20010000 = some (.r32ModeCtrl 1) ∧
    decodeTableWord 32 0x90100000 = some (.waitforIrqSt 0 0) ∧
    decodeTableWord 32 0x00000000 = none := by decide

theorem test_encode :
    encode (.w32UserAddr 0xFFFF0005) = [0x11600000, 0xFFFF0005] ∧
    encode (.r8UserQ 3) = [0x31830000] ∧ encode (.clkon 0 .phy) = [0x40000002] ∧
    encode (.waitforIrqSt 2 0x100) = [0x90120000, 0x100] := by decide

/-! ### One step -/

/-- The first step from reset runs the word placed there (R80). -/
theorem test_first_step :
    (stepped (State.reset.withFetchWord 32 0x80000002)).now = 2 ∧
    (stepped (State.reset.withFetchWord 32 0x50000001)).gate.bus = false ∧
    (stepped (State.reset.withFetchWord 64 0x0000000110000000)).faults.has .clockOff = true := by
  decide

/-- The placed word runs although an operation is pending and the schedule would complete it. -/
theorem test_placed_word_runs_next :
    (stepped ((stB .DS (some .dpToStb)).withFetchWord 32 0x80000002)).now = 2 := by decide

theorem test_step_completes :
    (stepped (withProgram (stB .DS (some .dpToStb)) [0x80000002])).ctlB =
      { mode := .SB, pend := none } := by decide

theorem test_step_ends : step offB = .fault .runEnded := rfl

/-- V27: the status register of the other variant. -/
theorem test_wait_on_other_variant :
    (after (.waitforIntStatus 0 4) (stB .DS none)).refused = some .reservedEncoding := by decide

/-- V25: refused, the word passed, nothing else. -/
theorem test_step_refuses :
    stepped (withProgram offB [0x20500000, 0x80000002]) =
      { offB with refused := some .reservedEncoding, program := [0x80000002] } := by decide

/-! ### Registers of variant B -/

/-- V1. -/
theorem test_r32_clock_off :
    after (.r32ModeCtrl 0) offB = { offB with faults := FaultSet.none.add .clockOff } := by decide

/-- V2. -/
theorem test_w32_in_reset :
    (after (.w32AccessAddr 0xE1)
      { stB .DS none with gate := { openGate with rst := true, rstAt := some 0 } }) =
      { stB .DS none with
        gate := { openGate with rst := true, rstAt := some 0 },
        faults := FaultSet.none.add .inReset } := by decide

/-- V3. -/
theorem test_r32_clock_off_in_reset :
    (after (.r32IrqSt 0) { offB with gate := { offB.gate with rst := true, rstAt := some 0 } }).faults
      = (FaultSet.none.add .clockOff).add .inReset := by decide

/-- V4, V15. -/
theorem test_variant_absent :
    (after (.r32UserQ 0) (stB .DS none)).faults = FaultSet.none.add .variantAbsent ∧
    (after (.r8Other .modeCtrl 0) (stA none)).faults = FaultSet.none.add .variantAbsent := by decide

/-- V5. -/
theorem test_w32_irq_st :
    (after (.w32IrqSt 1) { stB .DS none with
      regsB := { (stB .DS none).regsB with irqSt :=
        { rdm := some true, dp2stb := some false, stb2act := none, act2stb := some false,
          stb2dp := some true } } }).regsB.irqSt =
      { rdm := some false, dp2stb := some false, stb2act := none, act2stb := some false,
        stb2dp := some true } := by decide

/-- V6. -/
theorem test_w32_irq_st_idle : after (.w32IrqSt 0xFFFFFFFF) (stB .DS none) = stB .DS none := by decide

/-- V7, V9. -/
theorem test_w32_access_addr :
    (after (.w32AccessAddr 0x123450E0) (stB .DS none)).regsB.accessAddr = some 0x50E0 ∧
    (after (.w32AccessAddr 0xE1) (stB .DS (some .dpToStb))).regsB.accessAddr = some 0xE1 := by
  decide

/-- V8. -/
theorem test_w32_access_addr_busy :
    after (.w32AccessAddr 0xE1) (stB .ACT (some (.read 0xE0))) =
      { stB .ACT (some (.read 0xE0)) with faults := FaultSet.none.add .busyWrite } := by decide

/-- V10. -/
theorem test_w32_trans_num :
    (after (.w32ReprRdTransNum 1) (stB .ACT (some (.read 0xE0)))).faults =
      FaultSet.none.add .busyWrite ∧
    (after (.w32ReprRdTransNum 7) (stB .DS none)).regsB.transNum = some 7 := by decide

/-- V11, V12: the value is the draw, 5 here. -/
theorem test_r32_rd_data :
    (after (.r32RdData 0) (stB .DS none)).getVar 0 = some 5 ∧
    (after (.r32RdData 0) { stB .ACT (some (.read 0xE0)) with
      regsB := { (stB .ACT none).regsB with rdData := some 9 } }).getVar 0 = some 5 := by decide

theorem test_r32_rd_data_known :
    (after (.r32RdData 1) { stB .ACT none with
      regsB := { (stB .ACT none).regsB with rdData := some 9 } }).getVar 1 = some 9 := by decide

/-- V13, V14. -/
theorem test_read_only_and_width :
    after (.w32RdData 0) (stB .DS none) =
      { stB .DS none with faults := FaultSet.none.add .writeReadOnly } ∧
    after (.r8Other .modeCtrl 0) (stB .DS none) =
      { stB .DS none with faults := FaultSet.none.add .badWidth } := by decide

/-- R107, R109: bits above the 16-bit address field are the draw's. -/
theorem test_r32_parameters :
    (after (.r32AccessAddr 0) { stB .DS none with env := envOf [0xABCD1234] [] }).getVar 0 =
      some 0xABCD00E0 ∧
    (after (.r32ReprRdTransNum 0) (stB .DS none)).getVar 0 = some 1 := by decide

/-- R105: known bits as held, the others from the draw. -/
theorem test_r32_irq_st :
    (after (.r32IrqSt 0) { stB .DS none with
      env := envOf [0xFFFFFFFF] [],
      regsB := { (stB .DS none).regsB with irqSt :=
        { rdm := some true, dp2stb := some false, stb2act := none, act2stb := some false,
          stb2dp := some false } } }).getVar 0 = some 0xFFFFF8FF := by decide

/-! ### Power modes -/

/-- M1, M5, M6, M8, M10. -/
theorem test_mode_issue :
    (after (.w32ModeCtrl 1) (stB .DS none)).ctlB = { mode := .DS, pend := some .dpToStb } ∧
    (after (.w32ModeCtrl 2) (stB .SB none)).ctlB = { mode := .SB, pend := some .stbToAct } ∧
    (after (.w32ModeCtrl 0) (stB .SB none)).ctlB = { mode := .SB, pend := some .stbToDp } ∧
    (after (.w32ModeCtrl 1) (stB .ACT none)).ctlB = { mode := .ACT, pend := some .actToStb } ∧
    (after (.w32ModeCtrl 3) (stB .ACT none)).ctlB =
      { mode := .ACT, pend := some (.read 0xE0) } := by decide

/-- M2, M3, M4, M7, M9, M11, M12, M13. -/
theorem test_mode_refused :
    (after (.w32ModeCtrl 2) (stB .DS none)).faults = FaultSet.none.add .illegalTransition ∧
    (after (.w32ModeCtrl 3) (stB .DS none)).faults = FaultSet.none.add .illegalTransition ∧
    (after (.w32ModeCtrl 0) (stB .DS none)).faults = FaultSet.none.add .illegalTransition ∧
    (after (.w32ModeCtrl 3) (stB .SB none)).faults = FaultSet.none.add .illegalTransition ∧
    (after (.w32ModeCtrl 0) (stB .ACT none)).faults = FaultSet.none.add .illegalTransition ∧
    (after (.w32ModeCtrl 3) { stB .ACT none with
      regsB := { (stB .ACT none).regsB with transNum := some 2 } }).refused =
        some .transNumUnsupported ∧
    (after (.w32ModeCtrl 7) (stB .ACT none)).faults = FaultSet.none.add .illegalModeCommand ∧
    (after (.w32ModeCtrl 2) (stB .SB (some .stbToAct))).faults =
      FaultSet.none.add .busyWrite := by decide

/-- M1, M8, M10: the completions. -/
theorem test_complete_b :
    (complete (stB .DS (some .dpToStb))).ctlB = { mode := .SB, pend := none } ∧
    (complete (stB .DS (some .dpToStb))).regsB.irqSt.dp2stb = some true ∧
    (complete (stB .ACT (some .actToStb))).regsB.irqSt.act2stb = some true ∧
    (complete (stB .ACT (some (.read 0xE0)))).regsB.rdData = some 0x03020100 ∧
    (complete (stB .ACT (some (.read 0xE0)))).regsB.irqSt.rdm = some true := by decide

/-- M16, M17: a secure word and a word past the array read as the draw, 5 here; M18: frozen. -/
theorem test_complete_b_edges :
    (complete (stB .ACT (some (.read 223)))).regsB.rdData = some 5 ∧
    (complete (stB .ACT (some (.read 256)))).regsB.rdData = some 5 ∧
    ({ stB .DS (some .dpToStb) with gate := { openGate with bus := false } } : State).canComplete =
      false := by decide

/-- M14, M15. -/
theorem test_r32_mode_ctrl :
    (after (.r32ModeCtrl 0) (stB .DS (some .dpToStb))).getVar 0 = some 0 ∧
    (after (.r32ModeCtrl 0) (stB .ACT (some (.read 1)))).getVar 0 = some 2 := by decide

/-! ### The poller -/

/-- Q1, Q6: RDM set, the mask has RDM and DP2STB. The first read matches, the next step
acknowledges. -/
theorem test_waitfor_irq_st :
    stepped (after (.waitforIrqSt 0 0x101) { stB .DS none with
      regsB := { (stB .DS none).regsB with irqSt :=
        { IrqSt.resetValue .zero with rdm := some true } } }) =
      { stB .DS none with
        v := (stB .DS none).v.set 0 (some 1), env := (stB .DS none).env.spend } := by decide

/-- Q3 with k = 2: read, delay, read, the completion, delay, read, acknowledge. -/
theorem test_waitfor_irq_st_late :
    let s := withProgram { stB .DS (some .dpToStb) with
      env := envOf [] [.host, .host, .host, .controller] } [0x90100000, 0x100]
    (steps 6 s).now = 2 ∧ (steps 6 s).getVar 0 = none ∧ (steps 7 s).getVar 0 = some 1 ∧
    (steps 7 s).poll = none ∧ (steps 7 s).regsB.irqSt.dp2stb = some false := by decide

/-- The completion, the read that matches, the acknowledge. -/
theorem test_waitfor_int_status :
    let t := steps 3 (withProgram (stUser 7 (some (.user 3))) [0x91430000, 4])
    t.getVar 3 = some 1 ∧ t.regsA.q = some 0x43 ∧ t.regsA.intStatus.userDone = some false ∧
    t.poll = none := by decide

/-- R193: no delay after the 10001st read, which ends the poll with 0; one after the 10000th. -/
theorem test_poll_bound :
    let p : Poll := { status := .irqSt, dst := 0, mask := 0, delays := 10000, line := .read }
    (pollStep p (stB .DS none)).getVar 0 = some 0 ∧ (pollStep p (stB .DS none)).poll = none ∧
    (pollStep { p with delays := 9999 } (stB .DS none)).poll =
      some { p with delays := 9999, line := .delay } := by decide

/-- R135: with a bound of 1 the completion comes before a status read of the live variant, and not
before an r32 of the other variant's status register. -/
theorem test_bound :
    let s := { stB .DS (some .dpToStb) with
      cfg := { launchCfg with completionBound := some 1 }, env := envOf [] [.host] }
    (stepped (withProgram s [0x20100000])).ctlB = { mode := .SB, pend := none } ∧
    (stepped (withProgram s [0x21400000])).ctlB.pend = some .dpToStb ∧
    (stepped (withProgram s [0x21400000])).faults.has .variantAbsent = true := by decide

/-! ### System operations -/

/-- G10 and a failed enable. -/
theorem test_clkon :
    (after (.clkon 0 .func) { offB with env := envOf [1] [] }).gate.func = true ∧
    (after (.clkon 0 .func) { offB with env := envOf [1] [] }).getVar 0 = some 1 ∧
    (after (.clkon 0 .func) { offB with env := envOf [2] [] }).gate.func = false ∧
    (after (.clkon 0 .func) { offB with env := envOf [2] [] }).getVar 0 = some 0 := by decide

theorem test_clkoff :
    (after (.clkoff .bus) (stB .DS none)).gate =
      { func := true, bus := false, phy := true, rst := false, rstAt := none } := by decide

theorem test_rsta :
    (after (.rsta 1) { stB .DS none with now := 3, env := envOf [1] [] }).gate =
      { openGate with rst := true, rstAt := some 3 } := by decide

/-- G7, G8. -/
theorem test_rstd_hold :
    (after (.rstd 1) { stB .DS none with
      now := 4, gate := { openGate with rst := true, rstAt := some 3 } }) =
      { stB .DS none with
        now := 4, gate := { openGate with rst := true, rstAt := some 3 },
        faults := FaultSet.none.add .resetHoldViolation } := by decide

/-- M19, G9: the draw after the answer gives the mode, 2 mod 3. -/
theorem test_rstd_resets :
    (after (.rstd 1) { stB .ACT (some (.read 0xE0)) with
      now := 5, env := envOf [1, 5] [],
      gate := { openGate with rst := true, rstAt := some 3 } }).ctlB =
        { mode := .ACT, pend := none } ∧
    (after (.rstd 1) { stB .ACT (some (.read 0xE0)) with
      now := 5, env := envOf [1, 5] [],
      gate := { openGate with rst := true, rstAt := some 3 } }).regsB =
        RegsB.resetValue .zero ∧
    (after (.rstd 1) { stB .SB none with env := envOf [1] [] }).ctlB.mode = .SB := by decide

/-- G11. -/
theorem test_delay :
    after (.delay 0) offB = offB ∧ (after (.delay 0xFFFF) offB).now = 0xFFFF := by decide

/-! ### Registers of variant A -/

/-- V16, V17. -/
theorem test_w32_user_addr :
    (after (.w32UserAddr 0x00000005) (stUser 7 none)).regsA.uaddr = some 3 ∧
    (after (.w32UserAddr 0xFFFF0005) (stUser 7 none)).regsA.uaddr = some 5 := by decide

/-- Partial masked writes over a known and over an unknown field (log entry 12). -/
theorem test_w32_cmd_valid_pre :
    (after (.w32SbpiCmdValidPre 0x00FF55AA) { stA none with
      regsA := { (stA none).regsA with cmdValid := some 0x1234 } }).regsA.cmdValid =
      some 0x12AA ∧
    (after (.w32SbpiCmdValidPre 0x00FF55AA) { stA none with
      env := envOf [0x9876] [] }).regsA.cmdValid = some 0x98AA := by decide

/-- V18, V19: the draw above the byte is 0xFFFF12 here. -/
theorem test_user_q :
    (after (.r8UserQ 3) { stA none with
      regsA := { (stA none).regsA with q := some 0x41 } }).getVar 3 = some 0x41 ∧
    (after (.r32UserQ 3) { stA none with
      regsA := { (stA none).regsA with q := some 0x41 } }).getVar 3 = some 0xFFFF1241 := by decide

/-- V20. -/
theorem test_w32_user_q :
    after (.w32UserQ 0) (stA none) =
      { stA none with faults := FaultSet.none.add .writeReadOnly } := by decide

/-- V21. -/
theorem test_w32_int_status :
    (after (.w32IntStatus 4) { stA none with
      regsA := { (stA none).regsA with
        intStatus := { sbpiDone := some true, userDone := some true } } }).regsA.intStatus =
      { sbpiDone := some true, userDone := some false } := by decide

theorem test_r32_int_status :
    (after (.r32IntStatus 0) { stA none with
      regsA := { (stA none).regsA with
        intStatus := { sbpiDone := some true, userDone := none } } }).getVar 0 =
      some 0xFFFF1236 := by decide

/-- V22: 0xFFFF__34 is the draw, with bit 0 shown 0. -/
theorem test_sbpi_ctrl_select :
    (after (.r32SbpiCtrl 0) (after (.w32SbpiCtrl 0xFF000200)
      { stA none with env := envOf [0xFFFF1235] [] })).getVar 0 = some 0xFFFF0234 := by decide

/-- V23, R121. -/
theorem test_r32_controls :
    (after (.r32UserEnable 0) { stA none with env := envOf [0xFFFFFFFF] [] }).getVar 0 =
      some 0xFFFFFFFE ∧
    (after (.r32UserCtrl 0) { stUser 7 none with env := envOf [0] [] }).getVar 0 = some 1 := by
  decide

theorem test_r32_stored_a :
    (after (.r32SbpiCmdValidPre 0) { stCmd 9 with env := envOf [0xABCD0000] [] }).getVar 0 =
      some 0xABCD0001 ∧
    (after (.r32SbpiCmd0 0) (stCmd 9)).getVar 0 = some 0xFA ∧
    (after (.r32SbpiCmd1 0) (stCmd 9)).getVar 0 = some 9 ∧
    (after (.r32UserAddr 0) { stUser 7 none with env := envOf [0xABCD0000] [] }).getVar 0 =
      some 0xABCD0003 := by decide

theorem test_w32_commands :
    (after (.w32SbpiCmd0 0xFA) (stA none)).regsA.cmd0 = some 0xFA ∧
    (after (.w32SbpiCmd1 9) (stA none)).regsA.cmd1 = some 9 := by decide

/-- A1, and its completion with the ECC state on before it. -/
theorem test_sbpi_start :
    (after (.w32SbpiCtrl 0x00010001) (stCmd 9)).ctlA.pend = some (.sbpi 2 0xFA 9) ∧
    (complete { stA (some (.sbpi 2 0xFA 9)) with
      ctlA := { eccEn := true, pend := some (.sbpi 2 0xFA 9), userOnAt := none } }).ctlA =
        { eccEn := false, pend := none, userOnAt := none } ∧
    (complete (stA (some (.sbpi 2 0xFA 9)))).regsA.intStatus.sbpiDone = some true ∧
    (complete (stA (some (.sbpi 2 0xFA 0)))).ctlA.eccEn = true := by decide

/-- A2, A3. -/
theorem test_sbpi_refused :
    (after (.w32SbpiCtrl 0x00010001) (stCmd 5)).refused = some .sbpiCommandUnsupported ∧
    (after (.w32SbpiCtrl 0x00010001) { stCmd 9 with
      regsA := { (stCmd 9).regsA with cmdValid := none } }).refused =
        some .sbpiCommandUnsupported := by decide

/-- R160, R265: a word that selects address 2 and starts; where the command is refused the select has
no effect either (log entry 13). -/
theorem test_sbpi_select_and_start :
    let s := { stCmd 9 with regsA := { (stCmd 9).regsA with dap := some 7 } }
    let u := { stCmd 5 with regsA := { (stCmd 5).regsA with dap := none } }
    (after (.w32SbpiCtrl 0xFF010201) s).regsA.dap = some 2 ∧
    (after (.w32SbpiCtrl 0xFF010201) s).ctlA.pend = some (.sbpi 2 0xFA 9) ∧
    after (.w32SbpiCtrl 0x0F010201) u =
      { u with refused := some .sbpiCommandUnsupported } := by decide

/-- A4. -/
theorem test_w32_cmd1_busy :
    (after (.w32SbpiCmd1 0) (stA (some (.sbpi 2 0xFA 9)))).faults =
      FaultSet.none.add .busyWrite := by decide

/-- A5, A6. -/
theorem test_user_enable_faults :
    (after (.w32UserEnable 0x00010001) (stA none)).faults = FaultSet.none.add .userModeOff ∧
    (after (.w32UserEnable 0x00010001) (stUser 6 none)).faults =
      FaultSet.none.add .settleViolation := by decide

/-- A7, A14: with ECC on the byte is the draw, 0x34 here. -/
theorem test_user_read :
    (after (.w32UserEnable 0x00010001) (stUser 7 none)).ctlA.pend = some (.user 3) ∧
    (complete (stUser 7 (some (.user 3)))).regsA.q = some 0x43 ∧
    (complete { stUser 7 (some (.user 3)) with
      ctlA := { eccEn := true, pend := some (.user 3), userOnAt := some 2 } }).regsA.q =
        some 0x34 := by decide

/-- A8. -/
theorem test_user_ctrl_busy :
    (after (.w32UserCtrl 0x00010000) (stUser 7 (some (.user 3)))).faults =
      FaultSet.none.add .busyWrite := by decide

/-- A15, and leaving. -/
theorem test_user_ctrl :
    (after (.w32UserCtrl 0x00010001) (stUser 9 none)).ctlA.userOnAt = some 2 ∧
    (after (.w32UserCtrl 0x00010001) { stA none with now := 4 }).ctlA.userOnAt = some 4 ∧
    (after (.w32UserCtrl 0x00010000) (stUser 9 none)).regsA.useUser = false := by decide

/-! ### Host procedures -/

/-- G1 to G6. -/
theorem test_acquire :
    (acquire { offB with env := envOf [1, 1, 1, 1, 1, 0] prompt }).1 = .ok ∧
    (acquire { offB with env := envOf [1, 1, 1, 1, 1, 0] prompt }).2.now = 2 ∧
    (acquire { offB with env := envOf [0] prompt }).1 = .resourceAcquireFailed .func ∧
    (acquire { offB with env := envOf [1, 0] prompt }).1 = .resourceAcquireFailed .bus ∧
    (acquire { offB with env := envOf [1, 0] prompt }).2.gate = Gate.launchValue ∧
    (acquire { offB with env := envOf [1, 1, 0] prompt }).1 = .resourceAcquireFailed .phy ∧
    (acquire { offB with env := envOf [1, 1, 1, 0] prompt }).1 = .resetFailed .assertion ∧
    (acquire { offB with env := envOf [1, 1, 1, 1, 0] prompt }).1 = .resetFailed .deassertion := by
  decide

/-- K1 to K6. -/
theorem test_walks :
    (walkUp (stB .DS none)).1 = .ok ∧ (walkUp (stB .DS none)).2.ctlB.mode = .ACT ∧
    (walkUp (stB .SB none)).2.ctlB.mode = .ACT ∧ (walkUp (stB .ACT none)).2.ctlB.mode = .ACT ∧
    (walkDown (stB .ACT none)).1 = .ok ∧ (walkDown (stB .ACT none)).2.ctlB.mode = .DS ∧
    (walkDown (stB .SB none)).2.ctlB.mode = .DS ∧ (walkDown (stB .DS none)).2.ctlB.mode = .DS := by
  decide

/-- W1 to W5, W7, W8, W11. -/
theorem test_window :
    window 0 4 = ⟨0, 0, 1⟩ ∧ window 1 5 = ⟨0, 1, 2⟩ ∧ window 3 1 = ⟨0, 3, 1⟩ ∧
    window 3 2 = ⟨0, 3, 2⟩ ∧ window 0x7E 2 = ⟨31, 2, 1⟩ ∧ window 0 0 = ⟨0, 0, 0⟩ ∧
    window 5 0 = ⟨1, 1, 1⟩ ∧ window 4 4 = ⟨1, 0, 1⟩ ∧ clampLength launchCfg 0x7E 4 = 2 := by decide

/-- W2 through the whole engine from launch, the reset draw giving deep-standby; W6. -/
theorem test_read_b :
    (readB 1 5 { offB with env := envOf [1, 1, 1, 1, 1, 0] prompt }).1 = .ok ∧
    (readB 1 5 { offB with env := envOf [1, 1, 1, 1, 1, 0] prompt }).2.1 = some .ok ∧
    (readB 1 5 { offB with env := envOf [1, 1, 1, 1, 1, 0] prompt }).2.2.out =
      [(0, 1), (1, 2), (2, 3), (3, 4), (4, 5)] ∧
    readB 0x80 1 offB = (.outOfRange, none, offB) := by decide

/-- A9 cut to two bytes, from launch, the reset draw leaving ECC on. -/
theorem test_read_a :
    (readA 0 2 { stA none with
      gate := Gate.launchValue, env := envOf [1, 1, 1, 1, 1, 1] prompt }).1 = .ok ∧
    (readA 0 2 { stA none with
      gate := Gate.launchValue, env := envOf [1, 1, 1, 1, 1, 1] prompt }).2.out =
      [(0, 0x40), (1, 0x41)] := by decide

/-- R65: an address of a register, a misaligned one, and one of no register. -/
theorem test_bus :
    launchCfg.regAt 0x200C = some .accessAddr ∧ launchCfg.regAt 0x200D = none ∧
    launchCfg.regAt 0x2004 = none ∧ cfgA.regAt 0x0124 = some .userQ ∧
    launchCfg.regAt 0x0124 = none := by decide

/-! ### Memory -/

theorem test_memory :
    Memory.read (Memory.write (Memory.write [] 5 1) 3 2) 5 = some 1 ∧
    Memory.write (Memory.write [] 5 1) 3 2 = [(3, 2), (5, 1)] ∧
    Memory.wf (Memory.write (Memory.write [] 5 1) 5 2) = true ∧
    Memory.wf [(5, 1), (5, 2)] = false := by decide

/-! ### Every statement's hypotheses can be met -/

/-- DecodeOfEncodeIsTheOperation, DecodedWordsAreTheEncoding. -/
theorem test_meets_encoding :
    (Instr.r8Other .rdData 15).wf = true ∧ (Instr.w32UserQ 0xFFFFFFFF).wf = true ∧
    decode [0x11600000, 7, 8] = some (.ok (.w32UserAddr 7, [8])) := ⟨rfl, rfl, rfl⟩

/-- ReservedEncodingIsRefused: the host moves whatever the program is, and the fields of a word
for each clause, at the ends of its ranges. -/
theorem test_meets_reserved :
    (∀ ws ∈ [[0x00000000, 1], [0x20500000]],
      (withProgram offB ws).controllerMoves (nextIsStatusRead (withProgram offB ws)) = false) ∧
    ((0x0FFFFFFF : Word).extractLsb' 28 4).toNat = 0 ∧
    ((0xA0000000 : Word).extractLsb' 28 4).toNat = 0xA ∧
    ((0xF0000000 : Word).extractLsb' 28 4).toNat = 0xF ∧
    ((0x10500000 : Word).extractLsb' 20 8).toNat = 0x05 ∧
    ((0x20F00000 : Word).extractLsb' 20 8).toNat = 0x0F ∧
    ((0x31900000 : Word).extractLsb' 20 8).toNat = 0x19 ∧
    ((0x9FF00000 : Word).extractLsb' 20 8).toNat = 0xFF ∧
    ((0x40100000 : Word).extractLsb' 20 8).toNat ≠ 0 ∧
    ((0x8FF00000 : Word).extractLsb' 20 8).toNat ≠ 0 ∧
    ((0x50010000 : Word).extractLsb' 16 4).toNat ≠ 0 ∧
    ((0x60000001 : Word).extractLsb' 0 16).toNat ≠ 0 ∧
    ((0x40000003 : Word).extractLsb' 0 16).toNat = 3 ∧
    ((0x5000FFFF : Word).extractLsb' 0 16).toNat = 0xFFFF ∧
    ((0x90200000 : Word).extractLsb' 28 4).toNat = 9 ∧
    ((0x90200000 : Word).extractLsb' 20 8).toNat ≠ 0x01 ∧
    ((0x90200000 : Word).extractLsb' 20 8).toNat ≠ 0x14 := by decide

/-- WaitOnOtherVariantsStatusIsRefused, PollChangesOnlyItsVariantAndTime,
DispatcherForwardsToTheEngine. -/
theorem test_meets_variants :
    (stA none).cfg.variant = .A ∧ (stB .DS none).cfg.variant = .B ∧
    (∃ t, exec (.waitforIrqSt 0 0x100) (stB .DS (some .dpToStb)) = .next t) ∧
    ∃ t, exec (.waitforIntStatus 0 4) (stUser 7 (some (.user 3))) = .next t :=
  ⟨rfl, rfl, ⟨_, rfl⟩, ⟨_, rfl⟩⟩

/-- Inside a poll of IRQ_ST, with the line `l` next. -/
def inPoll (s : State) (l : PollLine) : State :=
  { s with poll := some { status := .irqSt, dst := 0, mask := 0x100, delays := 3, line := l } }

/-- StepRunsTheDecodedOperation, with nothing pending and with an operation pending, outside and
inside a poll. -/
theorem test_meets_step_runs :
    decode (withProgram offB [0x80000002]).program = some (.ok (.delay 2, [])) ∧
    offB.poll = none ∧
    (∀ l ∈ [PollLine.read, .acknowledge, .delay],
      (inPoll { stB .DS (some .dpToStb) with env := envOf [] [.host] } l).controllerMoves
        (nextIsStatusRead
          (inPoll { stB .DS (some .dpToStb) with env := envOf [] [.host] } l)) = false) ∧
    (withProgram offB [0x80000002]).controllerMoves
      (nextIsStatusRead (withProgram offB [0x80000002])) = false ∧
    ({ stB .DS (some .dpToStb) with env := envOf [] [.host] } : State).controllerMoves false =
      false := ⟨rfl, rfl, by decide, by decide, by decide⟩

/-- ControllerMovesOnlyWhenEnabled: each clause. -/
theorem test_meets_controller_moves :
    (stB .DS (some .dpToStb)).controllerMoves false = true ∧
    (withProgram (stB .DS (some .dpToStb)) [0x80000002]).controllerMoves
      (nextIsStatusRead (withProgram (stB .DS (some .dpToStb)) [0x80000002])) = true ∧
    offB.gate.isOpen = false ∧ (stB .DS none).pending = false := by decide

/-- CompletionBoundForcesTheController and CompletionBoundMakesThePollMatch: each clause on each
variant, the bound at both ends. -/
theorem test_meets_bound :
    let bound (s : State) (k : Nat) (ws : List Word) : State :=
      { s with cfg := { s.cfg with completionBound := some k }, statusReads := k - 1, program := ws }
    let b := stB .DS (some .dpToStb)
    let a := stUser 7 (some (.user 3))
    (∀ k ∈ [1, 10001],
      (bound b k []).cfg.wf = true ∧ (bound a k []).cfg.wf = true ∧
      (bound b k []).gate.isOpen = true ∧ (bound a k []).gate.isOpen = true ∧
      (bound b k []).pending = true ∧ (bound a k []).pending = true ∧
      (bound b k []).statusReads + 1 = k ∧ (bound a k []).statusReads + 1 = k) ∧
    b.poll = none ∧ b.cfg.variant = .B ∧ a.poll = none ∧ a.cfg.variant = .A ∧
    (inPoll b .read).statusRead .irqSt = true ∧
    b.ctlB.pend = some .dpToStb ∧ b.regsB.irqSt.get PendB.dpToStb.statusBit = some false ∧
    a.ctlA.pend = some (.user 3) ∧
    a.regsA.intStatus.get (PendA.user 3).statusBit = some false := by decide

/-- The words of CompletionBoundForcesTheController's clauses: status reads, and next steps that are
none on variant B (the other variant's status register, another register, an 8-bit read, a delay, a line
of a poll that reads nothing). -/
theorem test_meets_bound_words :
    decode [0x20100000] = some (.ok (.r32IrqSt 0, [])) ∧
    decode [0x90100000, 1] = some (.ok (.waitforIrqSt 0 1, [])) ∧
    decode [0x21400000] = some (.ok (.r32IntStatus 0, [])) ∧
    decode [0x91400000, 1] = some (.ok (.waitforIntStatus 0 1, [])) ∧
    (∀ ws ∈ [[0x21400000], [0x20000000], [0x31800000], [0x80000001], []],
      nextIsStatusRead (withProgram (stB .DS (some .dpToStb)) ws) = false) ∧
    nextIsStatusRead (inPoll (stB .DS none) .delay) = false ∧
    nextIsStatusRead (inPoll (stB .DS none) .acknowledge) = false := by decide

/-- CompletionBoundForcesTheController: a bound of 3 after one status read, not due, and after two,
due; and no bound. -/
theorem test_meets_bound_due :
    let s (n : Nat) : State := { stB .DS (some .dpToStb) with
      cfg := { launchCfg with completionBound := some 3 }, statusReads := n }
    (¬∃ k, (s 1).cfg.completionBound = some k ∧ k ≤ (s 1).statusReads + 1) ∧
    (∃ k, (s 2).cfg.completionBound = some k ∧ k ≤ (s 2).statusReads + 1) ∧
    launchCfg.completionBound = none := by
  refine ⟨fun ⟨k, h, hk⟩ => ?_, ⟨3, rfl, by decide⟩, rfl⟩
  cases h
  revert hk
  decide

/-- RunEndsWithTheProgram. -/
theorem test_meets_run_ends :
    offB.program = [] ∧ offB.poll = none ∧ offB.controllerMoves false = false := by decide

/-- An invariant state of variant B: a mode transition pending, an operation to run. -/
theorem test_meets_invariant_b :
    Invariant (withProgram (stB .DS (some .dpToStb)) [0x80000002]) := by
  refine ⟨by decide, ⟨?_, ?_, ?_⟩, ?_, ⟨?_, ?_⟩, ⟨⟨rfl, ?_⟩, rfl, ?_⟩, rfl, fun p h => by cases h⟩
  · intro a h
    cases h
    decide
  · intro a h
    cases h
  · intro a h
    cases h
  · intro p h
    cases h
    exact ⟨rfl, fun w hw => by cases hw⟩
  · intro d c0 c1 h
    cases h
  · intro a h
    cases h
  · intro t h
    cases h
  · intro t h
    cases h

/-- An invariant state of variant A: a user read pending in user mode. -/
theorem test_meets_invariant_a : Invariant (stUser 7 (some (.user 3))) := by
  refine ⟨by decide, ⟨?_, ?_, ?_⟩, ?_, ⟨?_, ?_⟩, ⟨⟨rfl, ?_⟩, rfl, ?_⟩, rfl, fun p h => by cases h⟩
  · intro a h
    cases h
  · intro a h
    cases h
  · intro a h
    cases h
    decide
  · intro p h
    cases h
  · intro d c0 c1 h
    cases h
  · intro a h
    cases h
    exact ⟨rfl, by decide⟩
  · intro t h
    cases h
    decide
  · intro t h
    cases h

/-- A poll under way that the invariant allows, its delay line at the bound's end. -/
theorem test_meets_poll_fits :
    pollFits { stB .DS none with
      poll := some { status := .irqSt, dst := 0, mask := 1, delays := 9999, line := .delay } } ∧
    pollFits { stB .DS none with
      poll := some { status := .irqSt, dst := 0, mask := 1, delays := 10000, line := .read } } := by
  refine ⟨fun p h => ?_, fun p h => ?_⟩ <;> cases h <;> refine ⟨by decide, by decide, ?_⟩ <;>
    decide

/-- EveryStepKeepsTheInvariant, EveryStepKeepsTheBytes, MarksAreSticky: a step with a next state
from an invariant, canonical state, and from one with marks. -/
theorem test_meets_steps :
    (∃ t, step (withProgram (stB .DS (some .dpToStb)) [0x80000002]) = .next t) ∧
    (∃ t, step (stUser 7 (some (.user 3))) = .next t) ∧
    memoriesCanonical (withProgram (stB .DS (some .dpToStb)) [0x80000002]) ∧
    (∃ t, step (withProgram { offB with
      faults := FaultSet.none.add .busyWrite, refused := some .unmappedOffset } [0x80000002]) =
        .next t) ∧
    (FaultSet.none.add .busyWrite).has .busyWrite = true :=
  ⟨⟨_, rfl⟩, ⟨_, rfl⟩, ⟨rfl, rfl, rfl⟩, ⟨_, rfl⟩, rfl⟩

/-- LaunchSatisfiesTheInvariant, LaunchLeavesTheResetValues. -/
theorem test_meets_launch :
    launchCfg.wf = true ∧ cfgA.wf = true ∧ [[0x80000002#32]].length ≤ 1 ∧
    2 ≤ ([[], []] : List (List Word)).length := by decide

/-- OnlyDelaysAdvanceTime, HostNeverSetsAStatusBit, ModeChangesOnlyAtCompletionOrReset: an
operation of each kind that has a next state, and a set bit that a write, a poll's acknowledge and a
reset clear. -/
theorem test_meets_operations :
    (∃ t, exec (.delay 0xFFFF) offB = .next t) ∧ (∃ t, exec (.rsta 0) offB = .next t) ∧
    (∃ t, exec (.waitforIrqSt 0 1) (stB .DS none) = .next t) ∧
    (complete (stB .ACT (some (.read 0xE0)))).regsB.irqSt.get .rdm = some true ∧
    (after (.w32IrqSt 1) (complete (stB .ACT (some (.read 0xE0))))).regsB.irqSt.get .rdm =
      some false ∧
    (pollStep { status := .irqSt, dst := 0, mask := 1, delays := 0, line := .acknowledge }
      (complete (stB .ACT (some (.read 0xE0))))).regsB.irqSt.get .rdm = some false ∧
    (complete (stUser 7 (some (.user 3)))).regsA.intStatus.get .userDone = some true ∧
    (after (.w32IntStatus 4) (complete (stUser 7 (some (.user 3))))).regsA.intStatus.get
      .userDone = some false :=
  ⟨⟨_, rfl⟩, ⟨_, rfl⟩, ⟨_, rfl⟩, by decide, by decide, by decide, by decide, by decide⟩

/-- ReadAccessIsIssuedOnlyInActive. -/
theorem test_meets_read_issue :
    (stepped (withProgram (stB .ACT none) [0x10000000, 3])).ctlB.pend = some (.read 0xE0) ∧
    (stB .ACT none).ctlB.pend = none := by decide

/-- FailedGuardRecordsEveryFault: each clause. -/
theorem test_meets_failed_guard :
    offB.gate.func = false ∧ offB.gate.bus = false ∧ offB.gate.phy = false ∧
    (after (.rsta 0) { stB .DS none with env := envOf [1] [] }).gate.rst = true ∧
    Reg.userQ.variant ≠ (stB .DS none).cfg.variant := by decide

/-- The hypotheses the statements on variant B share, which are all of
StatusWriteClearsTheBitsWrittenOne, ModeCtrlReadsTheStableMode, StatusReadShowsTheKnownBits, ReadParametersReadBack and
ReadOnlyAndWidthFaults of variant B; and the modes, codes and parameters of
ModeCtrlWriteFollowsTheTable. -/
theorem test_meets_b :
    (∀ m ∈ [Mode.DS, .SB, .ACT],
      (stB m none).cfg.wf = true ∧ (stB m none).gate.isOpen = true ∧
      (stB m none).cfg.variant = .B ∧ (stB m none).ctlB.pend = none ∧
      (stB m none).ctlB.mode = m ∧ (stB m none).regsB.transNum = some launchCfg.transOne) ∧
    (stB .ACT none).regsB.accessAddr = some 0xE0 ∧
    ({ stB .ACT none with
      regsB := { (stB .ACT none).regsB with accessAddr := none } } : State).regsB.accessAddr =
        none ∧
    ({ stB .ACT none with
      regsB := { (stB .ACT none).regsB with transNum := none } } : State).regsB.transNum ≠
        some launchCfg.transOne ∧
    (stB .ACT (some (.read 0))).ctlB.pend = some (.read 0) ∧
    (stB .DS (some .dpToStb)).ctlB.pend ≠ none ∧
    ¬((4 : Word) = launchCfg.encDS ∨ (4 : Word) = launchCfg.encSB ∨
      (4 : Word) = launchCfg.encACT ∨ (4 : Word) = launchCfg.encRA) := by decide

/-- ReadParametersAreStoredUnlessReading, RdDataReadsTheLastWord: no read-access pending. -/
theorem test_meets_no_read :
    (∀ w, (stB .DS (some .dpToStb)).ctlB.pend ≠ some (.read w)) ∧
    (complete (stB .ACT (some (.read 0xE0)))).regsB.rdData = some 0x03020100 ∧
    (∀ w, (complete (stB .ACT (some (.read 0xE0)))).ctlB.pend ≠ some (.read w)) ∧
    (stB .DS none).regsB.rdData = none := by
  refine ⟨fun w h => ?_, by decide, fun w h => ?_, rfl⟩ <;> cases h

/-- The hypotheses the statements on variant A share, which are all of
StatusWriteClearsTheBitsWrittenOne, StatusReadShowsTheKnownBits, VariantAFieldsReadBack,
ControlRegistersReadTheirFields and ReadOnlyAndWidthFaults of variant A. -/
theorem test_meets_a :
    (stA none).cfg.wf = true ∧ (stA none).gate.isOpen = true ∧ (stA none).cfg.variant = .A ∧
    (stA none).ctlA.pend = none ∧ Reg.userAddr.variant = (stA none).cfg.variant ∧
    Reg.userAddr ≠ .userQ ∧ (stA none).regsA.q = none ∧ (stA none).regsA.uaddr = none ∧
    (stA none).regsA.cmdValid = none ∧ (stA none).regsA.dap = none ∧
    (complete (stUser 7 (some (.user 3)))).regsA.q = some 0x43 := by decide

/-- CommandWordsAreStoredUnlessSbpiPending, MaskedWritesTakeTheEnabledBits,
UserQReadsTheLastByte, UserCtrlEntersAndLeavesUserMode: what is and what is not pending. -/
theorem test_meets_pending_a :
    (∀ a c0 c1, (stUser 7 (some (.user 3))).ctlA.pend ≠ some (.sbpi a c0 c1)) ∧
    (∃ a c0 c1, (stA (some (.sbpi 2 0xFA 9))).ctlA.pend = some (.sbpi a c0 c1)) ∧
    (∀ a, (stA (some (.sbpi 2 0xFA 9))).ctlA.pend ≠ some (.user a)) ∧
    ∃ a, (stUser 7 (some (.user 3))).ctlA.pend = some (.user a) := by
  refine ⟨fun a c0 c1 h => ?_, ⟨_, _, _, rfl⟩, fun a h => ?_, ⟨_, rfl⟩⟩ <;> cases h

/-- MaskedWritesTakeTheEnabledBits, MaskedWriteOverAnUnknownField: masks with every bit, no bit
and some bits of the 16-bit fields and of the DAP field set; known fields, and fields that hold none
with nothing pending. -/
theorem test_meets_masks :
    (∀ i, i < 16 → (0xFFFF0000 : Word).getLsbD (16 + i) = true) ∧
    (∀ i, i < 16 → (0x0000FFFF : Word).getLsbD (16 + i) = false) ∧
    (0x00010000 : Word).getLsbD (16 + 0) = true ∧ (0x00010000 : Word).getLsbD (16 + 15) = false ∧
    cfgA.userAddrW = 16 ∧ cfgA.dapLo = 8 ∧ cfgA.dapW = 8 ∧
    (∀ i, i < 8 → (0xFF000000 : Word).getLsbD (16 + 8 + i) = true) ∧
    (∀ i, i < 8 → (0x0000FFFF : Word).getLsbD (16 + 8 + i) = false) ∧
    (0x01000000 : Word).getLsbD (16 + 8 + 0) = true ∧
    (0x01000000 : Word).getLsbD (16 + 8 + 7) = false ∧
    (0x01000000 : Word).getLsbD (16 + cfgA.sbpiEnBit.val) = false ∧
    (0xFF000000 : Word).getLsbD (16 + cfgA.sbpiEnBit.val) = false ∧
    (0x0000FFFF : Word).getLsbD (16 + cfgA.sbpiEnBit.val) = false ∧
    (stCmd 9).regsA.cmdValid = some 1 ∧ (stUser 7 none).regsA.uaddr = some 3 ∧
    (stCmd 9).regsA.dap = some 2 ∧ (stA none).regsA.cmdValid = none ∧
    (stA none).regsA.uaddr = none ∧ (stA none).regsA.dap = none ∧
    (stA none).ctlA.pend = none := by decide

/-- AddressWriteWraps, UserEnablePulseIssuesAUserRead: fields and times that fit. -/
theorem test_meets_fits : fieldsFit (stUser 7 none) ∧ timesFit (stUser 7 none) ∧
    timesFit (stA none) := by
  refine ⟨⟨?_, ?_, ?_⟩, ⟨⟨rfl, ?_⟩, rfl, ?_⟩, ⟨⟨rfl, ?_⟩, rfl, ?_⟩⟩
  · intro a h
    cases h
  · intro a h
    cases h
  · intro a h
    cases h
    decide
  · intro t h
    cases h
    decide
  all_goals
    intro t h
    cases h

/-- SbpiCtrlSelectsTheDapAddress, SbpiStartIssuesOnlyTheEccWrite: a write that starts, one that
selects all or a part of the field, one that does both, one that does neither; the field known and
not; the command ready and not ready. -/
theorem test_meets_sbpi :
    ((0x00010001 : Word).getLsbD (16 + cfgA.sbpiEnBit.val) = true ∧
      (0x00010001 : Word).getLsbD cfgA.sbpiEnBit.val = true ∧
      ∀ i, i < cfgA.dapW → (0x00010001 : Word).getLsbD (16 + cfgA.dapLo + i) = false) ∧
    (0xFF000200 : Word).getLsbD (16 + cfgA.dapLo + 7) = true ∧
    (0xFF000200 : Word).getLsbD (16 + cfgA.sbpiEnBit.val) = false ∧
    (∀ i, i < cfgA.dapW → (0 : Word).getLsbD (16 + cfgA.dapLo + i) = false) ∧
    (0xFF010201 : Word).getLsbD (16 + cfgA.sbpiEnBit.val) = true ∧
    (0xFF010201 : Word).getLsbD cfgA.sbpiEnBit.val = true ∧
    (0x0F010201 : Word).getLsbD (16 + cfgA.sbpiEnBit.val) = true ∧
    (0x0F010201 : Word).getLsbD cfgA.sbpiEnBit.val = true ∧
    (0x0F010201 : Word).getLsbD (16 + cfgA.dapLo + 0) = true ∧
    (∀ i, i < cfgA.dapW → (0xFF010201 : Word).getLsbD (16 + cfgA.dapLo + i) = true) ∧
    (0x0F010201 : Word).getLsbD (16 + cfgA.dapLo + 7) = false ∧
    (stA none).regsA.dap = none ∧ (stCmd 9).ctlA.pend = none ∧
    (stA (some (.sbpi 2 0xFA 9))).ctlA.pend ≠ none ∧
    (stCmd 9).regsA.cmdValid = some cfgA.cmdValidValue ∧ (stCmd 9).regsA.dap = some cfgA.dapEcc ∧
    (stCmd 9).regsA.cmd0 = some cfgA.sbpiCmd0Word ∧
    (stCmd 9).regsA.cmd1 = some cfgA.sbpiCmd1Off ∧
    (stCmd 0).regsA.cmd1 = some cfgA.sbpiCmd1On ∧ (stCmd 5).regsA.cmd1 ≠ some cfgA.sbpiCmd1Off ∧
    (stCmd 5).regsA.cmd1 ≠ some cfgA.sbpiCmd1On := by decide

/-- UserCtrlEntersAndLeavesUserMode, UserEnablePulseIssuesAUserRead: enabled or not, on or off,
settled or not (the two sides of 5 time-units), the address known or not. -/
theorem test_meets_user :
    (0x00010001 : Word).getLsbD (16 + cfgA.useUserBit.val) = true ∧
    (0x00010001 : Word).getLsbD cfgA.useUserBit.val = true ∧
    (0x00010000 : Word).getLsbD cfgA.useUserBit.val = false ∧
    (0x00000001 : Word).getLsbD (16 + cfgA.fsmEnBit.val) = false ∧
    (0x00010001 : Word).getLsbD cfgA.fsmEnBit.val = true ∧
    (stA none).regsA.useUser = false ∧ (stUser 7 none).regsA.useUser = true ∧
    (stUser 6 none).now < 2 + 5 ∧ 2 + 5 ≤ (stUser 7 none).now ∧
    (stUser 7 none).regsA.uaddr = some 3 ∧
    ({ stUser 7 none with
      regsA := { (stUser 7 none).regsA with uaddr := none } } : State).regsA.uaddr = none := by
  decide

/-- ReadsChangeOnlyTheirVariable, VariantBWritesChangeOnlyTheirField,
VariantAWritesChangeOnlyTheirField: each operation has a next state. -/
theorem test_meets_frames (d : Word) (n : Var) :
    (∀ r : Reg, ∃ t, exec (w32Row r d) (stA none) = .next t) ∧
    (∀ r : Reg, ∃ t, exec (r32Row r n) (stB .DS none) = .next t) ∧
    ∀ r : Reg, ∃ t, exec (r8Row r n) (stB .DS none) = .next t := by
  refine ⟨fun r => ?_, fun r => ?_, fun r => ?_⟩ <;> cases r <;> exact ⟨_, rfl⟩

/-- The reset line asserted at time 3, seen at time `t`; the next draw is 1. -/
def stRst (t : Nat) : State :=
  { stB .DS none with
    now := t, env := envOf [1] [], gate := { openGate with rst := true, rstAt := some 3 } }

/-- ClocksAndDelay, ResetAssertHoldsTheTime, ResetDeassertResetsTheController: both answers, and
the reset held for 1 and for 2 time-units. -/
theorem test_meets_services :
    ({ offB with env := envOf [1] [] } : State).fresh.getLsbD 0 = true ∧
    ({ offB with env := envOf [2] [] } : State).fresh.getLsbD 0 = false ∧
    (stRst 4).gate.rst = true ∧ (stRst 4).gate.rstAt = some 3 ∧ (stRst 4).now - 3 < 2 ∧
    (stRst 5).gate.rst = true ∧ (stRst 5).gate.rstAt = some 3 ∧ 2 ≤ (stRst 5).now - 3 ∧
    (stRst 5).fresh.getLsbD 0 = true ∧
    offB.gate.rst = false := by decide

/-- CompletionOfVariantB, CompletionOfVariantA: the words and bytes at the ends of the readable
ranges. -/
theorem test_meets_completions :
    (stB .ACT (some (.read 224))).ctlB.pend = some (.read 224) ∧
    (224 : Word).toNat < launchCfg.otpWords ∧ (255 : Word).toNat < launchCfg.otpWords ∧
    (223 : Word).toNat < 224 ∧ launchCfg.otpWords ≤ (256 : Word).toNat ∧
    (stA (some (.sbpi 2 0xFA 9))).ctlA.pend = some (.sbpi 2 0xFA 9) ∧
    (9 : Word) = cfgA.sbpiCmd1Off ∧ (0 : Word) = cfgA.sbpiCmd1On ∧
    (stUser 7 (some (.user 63))).ctlA.eccEn = false ∧ (63 : Half).toNat < cfgA.otpBytes ∧
    cfgA.otpBytes ≤ (64 : Half).toNat := by decide

/-- PollMatchesASetBitAtOnce, PollOutcomeTellsOfTheCompletion: a set bit with nothing pending, and
each pending operation of variant A with its bit clear; polls that match. -/
theorem test_meets_polls :
    (complete (stB .DS (some .dpToStb))).ctlB.pend = none ∧
    (complete (stB .DS (some .dpToStb))).regsB.irqSt.get .dp2stb = some true ∧
    (complete (stB .DS (some .dpToStb))).gate.isOpen = true ∧
    (0x100 : Word).getLsbD (launchCfg.irqPos .dp2stb) = true ∧
    (complete (stUser 7 (some (.user 3)))).ctlA.pend = none ∧
    (complete (stUser 7 (some (.user 3)))).regsA.intStatus.get .userDone = some true ∧
    (4 : Word).getLsbD (cfgA.intPos .userDone) = true ∧
    (stB .DS (some .dpToStb)).regsB.irqSt.get .dp2stb = some false ∧
    (waitFor .irqSt 0x100 (stB .DS (some .dpToStb))).matched = true ∧
    (stA (some (.sbpi 2 0xFA 9))).regsA.intStatus.get (PendA.sbpi 2 0xFA 9).statusBit =
      some false ∧
    (waitFor .intStatus 2 (stA (some (.sbpi 2 0xFA 9)))).matched = true ∧
    (stUser 7 (some (.user 3))).regsA.intStatus.get (PendA.user 3).statusBit = some false ∧
    (waitFor .intStatus 4 (stUser 7 (some (.user 3)))).matched = true := by decide

/-- WaitforStepsComeToThePollsOutcome, PollTimesOutWithoutAMatch: a waitfor at the head of the program
on each variant, with the gate open, a clock off and the reset asserted. -/
theorem test_meets_poll_begins :
    pollBegins (withProgram (stB .DS (some .dpToStb)) [0x90100000, 0]) .irqSt 0 0 [] ∧
    pollBegins (withProgram (stUser 7 (some (.user 3))) [0x91430000, 0]) .intStatus 3 0 [] ∧
    pollBegins (withProgram offB [0x90100000, 0x100]) .irqSt 0 0x100 [] ∧
    pollBegins (withProgram { stA none with gate := Gate.launchValue } [0x91430000, 4])
      .intStatus 3 4 [] ∧
    offB.gate.clocksOn = false ∧
    ({ openGate with rst := true, rstAt := some 3 } : Gate).isOpen = false :=
  ⟨⟨rfl, .inl ⟨rfl, rfl, rfl⟩⟩, ⟨rfl, .inr ⟨rfl, rfl, rfl⟩⟩, ⟨rfl, .inl ⟨rfl, rfl, rfl⟩⟩,
    ⟨rfl, .inr ⟨rfl, rfl, rfl⟩⟩, rfl, rfl⟩

/-- PollIsBounded: a poll that matches. PollTimesOutWithoutAMatch is its other case. -/
theorem test_meets_poll_bound :
    (waitFor .irqSt 0x100 (stB .DS (some .dpToStb))).reads = 1 := by decide

/-- AcquireIsAllOrNothing: both failures and no clock on before. -/
theorem test_meets_acquire :
    (∀ d ∈ [Domain.func, .bus, .phy], offB.gate.clk d = false) ∧
    (acquire { offB with env := envOf [1, 0] prompt }).1 = .resourceAcquireFailed .bus ∧
    (acquire { offB with env := envOf [1, 1, 1, 0] prompt }).1 = .resetFailed .assertion := by
  decide

/-- WalksReachTheirMode: status bits clear, and walks that return Ok. -/
theorem test_meets_walks :
    (∀ b, (stB .DS none).regsB.irqSt.get b = some false) ∧ (walkUp (stB .DS none)).1 = .ok ∧
    (walkDown (stB .ACT none)).1 = .ok := by
  refine ⟨fun b => ?_, by decide, by decide⟩
  cases b <;> rfl

/-- ReadBReturnsTheFuseBytes, ReadAReturnsTheFuseBytes: calls that return Ok, and offsets on both
sides of the declared size. -/
theorem test_meets_reads :
    launchCfg.sizeB ≤ 0x80 ∧ 0x7F < launchCfg.sizeB ∧ launchCfg.statusReset = .zero ∧
    (readB 1 5 { offB with env := envOf [1, 1, 1, 1, 1, 0] prompt }).1 = .ok ∧
    (0 + 1) % 2 ^ cfgA.userAddrW < cfgA.otpBytes ∧
    (readA 0 1 { stA none with
      gate := Gate.launchValue, env := envOf [1, 1, 1, 1, 1, 1] prompt }).1 = .ok := by decide

/-- BusAccessIsByAddress: a register's address, a misaligned one, and one of no register. -/
theorem test_meets_bus :
    launchCfg.base % 4 = 0 ∧ Reg.irqSt.variant = launchCfg.variant ∧ 0x200D % 4 ≠ 0 ∧
    ∀ r : Reg, r.variant = launchCfg.variant → launchCfg.busAddr r ≠ 0x2004 := by
  refine ⟨rfl, rfl, by decide, fun r => ?_⟩
  cases r <;> decide

end Sys2Proof.Tests
end

/-! ### The host's step, by the agent chosen and by what the host finds next -/

namespace Sys2Proof.Machine

/-- The choice of the agent leaves the host's program. -/
@[simp] theorem turnTaken_program (s : State) (b : Bool) : (s.turnTaken b).program = s.program := by
  rw [turnTaken_eq]

/-- The choice of the agent leaves the host's position inside a poll. -/
@[simp] theorem turnTaken_poll (s : State) (b : Bool) : (s.turnTaken b).poll = s.poll := by
  rw [turnTaken_eq]

/-- Where the controller does not move, the step is the host's (R9, R73). -/
theorem step_of_not_controllerMoves (s : State)
    (hm : s.controllerMoves (nextIsStatusRead s) = false) :
    step s = hostStep (s.turnTaken (nextIsStatusRead s)) :=
  if_neg (Bool.eq_false_iff.mp hm)

/-- A head of the program that decodes is what the host finds there (R80). -/
theorem fetch_of_decode_ok (s : State) (i : Instr) (rest : List Word)
    (hd : decode s.program = some (.ok (i, rest))) : fetch s = .op i rest := by
  unfold fetch
  rw [hd]

/-- Inside a poll the host's step is the poll's next line (R190, log entry 9). -/
theorem hostStep_of_poll (s : State) (p : Poll) (hp : s.poll = some p) :
    hostStep s = .next (pollStep p s) := by
  unfold hostStep
  rw [hp]

/-- Outside a poll the host's step is the operation it finds, past its words (R9, R80). -/
theorem hostStep_of_op (s : State) (i : Instr) (rest : List Word)
    (hp : s.poll = none) (hf : fetch s = .op i rest) :
    hostStep s = exec i (s.advance rest) := by
  unfold hostStep
  rw [hp, hf]

/-- Settles O6: the step is the host's, the choice of the agent leaves poll and program, and the
host's step is by what it finds there. -/
theorem stepRunsTheDecodedOperation : Obligations.StepRunsTheDecodedOperation := by
  unfold Obligations.StepRunsTheDecodedOperation
  refine ⟨fun s i rest hp hd hm => ⟨turnTaken_eq s _, ?_⟩,
    fun s p hp hm => ⟨turnTaken_eq s _, ?_⟩⟩
  · have hf : fetch (s.turnTaken (nextIsStatusRead s)) = .op i rest :=
      fetch_of_decode_ok _ i rest (by rw [turnTaken_program]; exact hd)
    rw [step_of_not_controllerMoves s hm]
    exact hostStep_of_op _ i rest (by rw [turnTaken_poll]; exact hp) hf
  · rw [step_of_not_controllerMoves s hm]
    exact hostStep_of_poll _ p (by rw [turnTaken_poll]; exact hp)

end Sys2Proof.Machine

/-! ### What an operation can do, said once

`step_cases` says what a step can be; these say the same of one host operation, of a register write
and of the reset, so that each claim about every operation is one case analysis. -/

namespace Sys2Proof.Machine

/-- What the host operation `i` leaves of `s`, by the shared operation it calls (R83, R129). -/
inductive OpResult (s : State) : Instr → State → Prop
  | write (r : Reg) (d : Word) : OpResult s (w32Row r d) (regWrite r d s)
  | read (r : Reg) (n : Var) : OpResult s (r32Row r n) (readInto r n s)
  | read8 (n : Var) : OpResult s (.r8UserQ n) (read8Into n s)
  | badWidth (r : Reg) (n : Var) : OpResult s (.r8Other r n) (read8Other r n s)
  | clkon (n : Var) (d : Domain) :
      OpResult s (.clkon n d) ((clkEnable d s).setVar n (some (answerWord (serviceOk s))))
  | clkoff (d : Domain) : OpResult s (.clkoff d) (clkDisable d s)
  | rsta (n : Var) :
      OpResult s (.rsta n) ((rstAssert s).setVar n (some (answerWord (serviceOk s))))
  | rstdAnswered (n : Var) (ok : Bool) (h : rstDeassertAnswer s = some ok) :
      OpResult s (.rstd n) ((rstDeassert s).setVar n (some (answerWord ok)))
  | rstdStopped (n : Var) (h : rstDeassertAnswer s = none) :
      OpResult s (.rstd n) (rstDeassert s)
  | delay (n : BitVec 16) : OpResult s (.delay n) (delayBy n.toNat s)
  | waitfor (r : Reg) (n : Var) (m : Word) (i : Instr) (h : waitforRow r n m = some i) :
      OpResult s i (startPoll r n m s)

/-- The next state of an operation is the result of the shared operation its row names. -/
theorem opResult_of_exec (i : Instr) (s t : State) (h : exec i s = .next t) : OpResult s i t := by
  cases i with
  | clkon n d => cases h; exact .clkon n d
  | clkoff d => cases h; exact .clkoff d
  | rsta n => cases h; exact .rsta n
  | rstd n =>
    cases h
    split
    case h_1 ok ha => exact .rstdAnswered n ok ha
    case h_2 ha => exact .rstdStopped n ha
  | delay n => cases h; exact .delay n
  | waitforIrqSt n m => cases h; exact .waitfor .irqSt n m _ rfl
  | waitforIntStatus n m => cases h; exact .waitfor .intStatus n m _ rfl
  | r8UserQ n => cases h; exact .read8 n
  | r8Other r n => cases h; exact .badWidth r n
  | w32ModeCtrl d => cases h; exact .write .modeCtrl d
  | w32IrqSt d => cases h; exact .write .irqSt d
  | w32AccessAddr d => cases h; exact .write .accessAddr d
  | w32RdData d => cases h; exact .write .rdData d
  | w32ReprRdTransNum d => cases h; exact .write .reprRdTransNum d
  | w32SbpiCtrl d => cases h; exact .write .sbpiCtrl d
  | w32SbpiCmdValidPre d => cases h; exact .write .sbpiCmdValidPre d
  | w32SbpiCmd0 d => cases h; exact .write .sbpiCmd0 d
  | w32SbpiCmd1 d => cases h; exact .write .sbpiCmd1 d
  | w32IntStatus d => cases h; exact .write .intStatus d
  | w32UserCtrl d => cases h; exact .write .userCtrl d
  | w32UserAddr d => cases h; exact .write .userAddr d
  | w32UserEnable d => cases h; exact .write .userEnable d
  | w32UserQ d => cases h; exact .write .userQ d
  | r32ModeCtrl n => cases h; exact .read .modeCtrl n
  | r32IrqSt n => cases h; exact .read .irqSt n
  | r32AccessAddr n => cases h; exact .read .accessAddr n
  | r32RdData n => cases h; exact .read .rdData n
  | r32ReprRdTransNum n => cases h; exact .read .reprRdTransNum n
  | r32SbpiCtrl n => cases h; exact .read .sbpiCtrl n
  | r32SbpiCmdValidPre n => cases h; exact .read .sbpiCmdValidPre n
  | r32SbpiCmd0 n => cases h; exact .read .sbpiCmd0 n
  | r32SbpiCmd1 n => cases h; exact .read .sbpiCmd1 n
  | r32IntStatus n => cases h; exact .read .intStatus n
  | r32UserCtrl n => cases h; exact .read .userCtrl n
  | r32UserAddr n => cases h; exact .read .userAddr n
  | r32UserEnable n => cases h; exact .read .userEnable n
  | r32UserQ n => cases h; exact .read .userQ n

/-- What a write of `d` to `r` leaves of the sticky marks and of the status bits: a mark more and
nothing else, or the same marks with the bits written 1 to a status register cleared (R102, R104,
R119). -/
inductive WriteResult (r : Reg) (d : Word) (s : State) : State → Prop
  | guarded : WriteResult r d s (guardFaults r s)
  | faulted (k : FaultKind) : WriteResult r d s (s.raise k)
  | refused (k : RefusalKind) : WriteResult r d s (s.refuse k)
  | done (t : State) (faults : t.faults = s.faults) (refused : t.refused = s.refused)
      (irqSt : t.regsB.irqSt =
        if r = .irqSt then IrqSt.acknowledge s.cfg s.regsB.irqSt d else s.regsB.irqSt)
      (intStatus : t.regsA.intStatus =
        if r = .intStatus then IntStatus.acknowledge s.cfg s.regsA.intStatus d
        else s.regsA.intStatus) : WriteResult r d s t

/-- A guarded access is a write result where its effect is one (R100). -/
theorem WriteResult.access {r : Reg} {d : Word} {s : State} {f : State → State}
    (h : WriteResult r d s (f s)) : WriteResult r d s (Machine.access r f s) := by
  rcases access_cases r f s with ⟨-, -, e⟩ | e <;> rw [e]
  · exact h
  · exact .guarded

/-- A draw made only where `p` holds moves the supply alone. -/
theorem spendIf_frame (p : Bool) (s : State) :
    (if p then s.spend else s) = { s with env := if p then s.env.spend else s.env } := by
  cases p <;> rfl

/-- The select part of a write of SBPI_CTRL moves the DAP field and the supply of draws (R160). -/
theorem updateDap_frame (d : Word) (s : State) :
    updateDap d s = { s with
      regsA := { s.regsA with dap := (updateDap d s).regsA.dap }, env := (updateDap d s).env } := by
  unfold updateDap
  rw [spendIf_frame]

/-- The start of an SBPI command issues it or sets the refusal (R160). -/
theorem startSbpi_result (d : Word) (s : State) :
    WriteResult .sbpiCtrl d s (startSbpi d s) := by
  unfold startSbpi
  dsimp only
  rw [updateDap_frame]
  split
  · exact .done _ rfl rfl rfl rfl
  · exact .refused _

/-- The read-access command issues a read or sets the refusal (R130). -/
theorem issueReadAccess_result (d : Word) (s : State) :
    WriteResult .modeCtrl d s (issueReadAccess s) := by
  unfold issueReadAccess
  split
  · split <;> exact .done _ rfl rfl rfl rfl
  · exact .refused _

/-- A mode command issues a transition or a read-access, or faults (R130, R132): the branches in
the order of the transition table. -/
theorem issueMode_result (d : Word) (c : ModeCmd) (s : State) :
    WriteResult .modeCtrl d s (issueMode c s) := by
  unfold issueMode
  split
  · exact .done _ rfl rfl rfl rfl
  · exact .done _ rfl rfl rfl rfl
  · exact .done _ rfl rfl rfl rfl
  · exact .done _ rfl rfl rfl rfl
  · exact issueReadAccess_result d s
  · exact .faulted _

/-- The start of a user read issues it (R164). -/
theorem issueUserRead_result (d : Word) (s : State) :
    WriteResult .userEnable d s (issueUserRead s) := by
  unfold issueUserRead
  split <;> exact .done _ rfl rfl rfl rfl

/-- Every register write adds marks and nothing else, or keeps them and acknowledges (R129). -/
theorem regWrite_result (r : Reg) (d : Word) (s : State) :
    WriteResult r d s (regWrite r d s) := by
  cases r with
  | modeCtrl =>
    rw [regWrite, writeModeCtrl]
    refine .access ?_
    split
    · exact .faulted _
    · split
      · exact .faulted _
      · exact issueMode_result d _ s
  | irqSt =>
    rw [regWrite, writeIrqSt]
    exact .access (.done _ rfl rfl rfl rfl)
  | accessAddr =>
    rw [regWrite, writeAccessAddr]
    refine .access ?_
    split
    · exact .faulted _
    · exact .done _ rfl rfl rfl rfl
  | rdData =>
    rw [regWrite, writeRdData]
    exact .access (.faulted _)
  | reprRdTransNum =>
    rw [regWrite, writeReprRdTransNum]
    refine .access ?_
    split
    · exact .faulted _
    · exact .done _ rfl rfl rfl rfl
  | sbpiCtrl =>
    rw [regWrite, writeSbpiCtrl]
    refine .access ?_
    dsimp only
    split
    · exact .faulted _
    · split
      · exact startSbpi_result d s
      · rw [updateDap_frame]
        exact .done _ rfl rfl rfl rfl
  | sbpiCmdValidPre =>
    rw [regWrite, writeSbpiCmdValidPre]
    refine .access ?_
    rw [updateCmdValid, spendIf_frame]
    split
    · exact .faulted _
    · exact .done _ rfl rfl rfl rfl
  | sbpiCmd0 =>
    rw [regWrite, writeSbpiCmd0]
    refine .access ?_
    split
    · exact .faulted _
    · exact .done _ rfl rfl rfl rfl
  | sbpiCmd1 =>
    rw [regWrite, writeSbpiCmd1]
    refine .access ?_
    split
    · exact .faulted _
    · exact .done _ rfl rfl rfl rfl
  | intStatus =>
    rw [regWrite, writeIntStatus]
    exact .access (.done _ rfl rfl rfl rfl)
  | userCtrl =>
    rw [regWrite, writeUserCtrl]
    refine .access ?_
    split
    · split
      · exact .faulted _
      · exact .done _ rfl rfl rfl rfl
    · exact .done _ rfl rfl rfl rfl
  | userAddr =>
    rw [regWrite, writeUserAddr]
    refine .access ?_
    rw [updateUaddr, spendIf_frame]
    split
    · exact .faulted _
    · exact .done _ rfl rfl rfl rfl
  | userEnable =>
    rw [regWrite, writeUserEnable]
    refine .access ?_
    split
    · split
      · exact .faulted _
      · split
        · exact .faulted _
        · split
          · exact .faulted _
          · exact issueUserRead_result d s
    · exact .done _ rfl rfl rfl rfl
  | userQ =>
    rw [regWrite, writeUserQ]
    exact .access (.faulted _)

/-- A clock enable moves the gate and the supply of draws (R200). -/
theorem clkEnable_frame (d : Domain) (s : State) :
    clkEnable d s = { s with gate := (clkEnable d s).gate, env := (clkEnable d s).env } := by
  unfold clkEnable
  split <;> rfl

/-- A reset assertion moves the gate and the supply of draws (R202). -/
theorem rstAssert_frame (s : State) :
    rstAssert s = { s with gate := (rstAssert s).gate, env := (rstAssert s).env } := by
  unfold rstAssert
  split <;> rfl

/-- A controller reset moves the controllers, their registers and the model's own fields (R290). -/
theorem controllerReset_frame (s : State) :
    s.controllerReset = { s with
      regsB := s.controllerReset.regsB, ctlB := s.controllerReset.ctlB,
      regsA := s.controllerReset.regsA, ctlA := s.controllerReset.ctlA,
      statusReads := s.controllerReset.statusReads, env := s.controllerReset.env } := by
  unfold State.controllerReset
  split <;> rfl

/-- A reset deassertion records the hold violation, or moves the gate and the supply of draws
alone, or resets the controller besides (R203, R290). -/
theorem rstDeassert_cases (s : State) :
    rstDeassert s = s.raise .resetHoldViolation ∨
      rstDeassert s =
        { s with gate := (rstDeassert s).gate, env := (rstDeassert s).env } ∨
      rstDeassert s =
        { s.spend.controllerReset with gate := { s.gate with rst := false, rstAt := none } } := by
  unfold rstDeassert
  split
  · exact .inl rfl
  · split
    · cases s.gate.rst
      · exact .inr (.inl rfl)
      · exact .inr (.inr rfl)
    · exact .inr (.inl rfl)

/-- A reset deassertion leaves the time, the host's own state and the memories (R203). -/
theorem rstDeassert_frame (s : State) :
    rstDeassert s = { s with
      gate := (rstDeassert s).gate, faults := (rstDeassert s).faults,
      regsB := (rstDeassert s).regsB, ctlB := (rstDeassert s).ctlB,
      regsA := (rstDeassert s).regsA, ctlA := (rstDeassert s).ctlA,
      statusReads := (rstDeassert s).statusReads, env := (rstDeassert s).env } := by
  rcases rstDeassert_cases s with e | e | e <;> rw [e]
  · rfl
  · rw [controllerReset_frame]
    rfl

/-- A `waitfor` moves the host's position, its variable, the marks and the model's own fields
(R88, R190). -/
theorem startPoll_frame (r : Reg) (n : Var) (m : Word) (s : State) :
    startPoll r n m s = { s with
      poll := (startPoll r n m s).poll, v := (startPoll r n m s).v,
      faults := (startPoll r n m s).faults, refused := (startPoll r n m s).refused,
      statusReads := (startPoll r n m s).statusReads, env := (startPoll r n m s).env } := by
  rcases startPoll_cases r n m s with ⟨-, e⟩ | e <;> rw [e]
  · rw [pollRead_frame]
  · rfl

/-- An access with the wrong width moves the fault set alone (R128). -/
theorem badWidth_frame (r : Reg) (s : State) :
    access r (fun s => s.raise .badWidth) s = { s with
      faults := (access r (fun s => s.raise .badWidth) s).faults } := by
  rcases access_cases r (fun s => s.raise .badWidth) s with ⟨-, -, e⟩ | e <;> rw [e] <;> rfl

end Sys2Proof.Machine

/-! ### The bytes and the configuration -/

namespace Sys2Proof.Machine

/-- What no step writes: the configuration, the fuse arrays and the host's two buffers. -/
def State.stores (s : State) : Cfg × Memory × Memory × Memory × List Byte :=
  (s.cfg, s.otpA, s.otpB, s.out, s.scratch)

/-- The named operations leave the stores as they are: each frame names other fields. -/
theorem stores_kept (c : Cfg × Memory × Memory × Memory × List Byte) :
    Kept fun t => t.stores = c where
  completion s h _ := by rw [complete_frame]; exact h
  schedule b s h := by rw [turnTaken_eq]; exact h
  fetched _ _ h := h
  mark _ _ h := h
  setsVar _ _ _ h := h
  pollOver _ h := h
  pollOn _ _ h _ := h
  read r s h := by rw [readEffect_frame]; exact h
  width r s h := by rw [badWidth_frame]; exact h
  write r d s h := by rw [regWrite_frame]; exact h
  delay _ _ h := h
  clockOn d s h := by rw [clkEnable_frame]; exact h
  clockOff _ _ h := h
  resetOn s h := by rw [rstAssert_frame]; exact h
  resetOff s h := by rw [rstDeassert_frame]; exact h

/-- Settles O12: every step keeps the stores, and the bytes are read from them alone. -/
theorem everyStepKeepsTheBytes : Obligations.EveryStepKeepsTheBytes := by
  unfold Obligations.EveryStepKeepsTheBytes
  intro s t h
  have hk : t.stores = s.stores := (stores_kept s.stores).step s t rfl h
  simp only [State.stores, Prod.mk.injEq] at hk
  obtain ⟨hcfg, hA, hB, hout, hscratch⟩ := hk
  refine ⟨⟨fun a => by rw [hout], fun a => ?_, fun w j => ?_, hscratch⟩, hcfg, hA, hB, fun hc => ?_⟩
  · rw [State.fuseA, State.fuseA, hA]
  · rw [State.fuseLaneB, State.fuseLaneB, hB]
  · rw [memoriesCanonical, hout, hA, hB]
    exact hc

end Sys2Proof.Machine

/-! ### The sticky marks -/

namespace Sys2Proof.Machine

/-- Every mark of `s` is a mark of `t` (R23). -/
def marksKept (s t : State) : Prop :=
  (∀ k, s.faults.has k = true → t.faults.has k = true) ∧
    (∀ k, s.refused = some k → t.refused = some k)

/-- States with the same marks keep them. -/
theorem marksKept_of_eq {s t : State} (hf : t.faults = s.faults) (hr : t.refused = s.refused) :
    marksKept s t :=
  ⟨fun k h => by rw [hf]; exact h, fun k h => by rw [hr]; exact h⟩

/-- Marks kept twice are kept. -/
theorem marksKept_trans {s t u : State} (h1 : marksKept s t) (h2 : marksKept t u) :
    marksKept s u :=
  ⟨fun k h => h2.1 k (h1.1 k h), fun k h => h2.2 k (h1.2 k h)⟩

/-- Recording a fault keeps the marks (R264). -/
theorem marksKept_raise (s : State) (k : FaultKind) : marksKept s (s.raise k) :=
  ⟨fun j h => by simp [FaultSet.has_add, h], fun _ h => h⟩

/-- A refusal keeps the marks: only the first is recorded (R265). -/
theorem marksKept_refuse (s : State) (k : RefusalKind) : marksKept s (s.refuse k) :=
  ⟨fun _ h => h, fun j h => by simp [h]⟩

/-- A failed guard keeps the marks (R100). -/
theorem marksKept_guardFaults (r : Reg) (s : State) : marksKept s (guardFaults r s) :=
  ⟨fun k h => (guardFaults_has r s k).2 (.inl h), fun _ h => h⟩

/-- An access keeps the marks where its effect does (R100). -/
theorem marksKept_access (r : Reg) (f : State → State) (s : State) (h : marksKept s (f s)) :
    marksKept s (access r f s) := by
  rcases access_cases r f s with ⟨-, -, e⟩ | e <;> rw [e]
  · exact h
  · exact marksKept_guardFaults r s

/-- A read keeps the marks (R66). -/
theorem marksKept_readEffect (r : Reg) (s : State) : marksKept s (readEffect r s) := by
  refine marksKept_access r _ s ?_
  unfold State.countStatusRead
  split <;> exact marksKept_of_eq rfl rfl

/-- A write result keeps the marks (R129). -/
theorem WriteResult.marksKept {r : Reg} {d : Word} {s t : State} (h : WriteResult r d s t) :
    marksKept s t := by
  cases h with
  | guarded => exact marksKept_guardFaults r s
  | faulted k => exact marksKept_raise s k
  | refused k => exact marksKept_refuse s k
  | done _ hf hr => exact marksKept_of_eq hf hr

/-- A reset deassertion keeps the marks: a controller reset clears none (R23, R203). -/
theorem marksKept_rstDeassert (s : State) : marksKept s (rstDeassert s) := by
  rcases rstDeassert_cases s with e | e | e <;> rw [e]
  · exact marksKept_raise s _
  · exact marksKept_of_eq rfl rfl
  · rw [controllerReset_frame]
    exact marksKept_of_eq rfl rfl

/-- Every named operation keeps the marks of the state `s` the step began in. -/
theorem marks_kept (s : State) : Kept (marksKept s) where
  completion u h _ := by rw [complete_frame]; exact h
  schedule b u h := by rw [turnTaken_eq]; exact h
  fetched _ _ h := h
  mark k u h := marksKept_trans h (marksKept_refuse u k)
  setsVar _ _ _ h := h
  pollOver _ h := h
  pollOn _ _ h _ := h
  read r u h := marksKept_trans h (marksKept_readEffect r u)
  width r u h := marksKept_trans h (marksKept_access r _ u (marksKept_raise u _))
  write r d u h := marksKept_trans h ((regWrite_result r d u).marksKept)
  delay _ _ h := h
  clockOn d u h := by rw [clkEnable_frame]; exact h
  clockOff _ _ h := h
  resetOn u h := by rw [rstAssert_frame]; exact h
  resetOff u h := marksKept_trans h (marksKept_rstDeassert u)

/-- Settles O13: the marks are kept by every named operation, hence by every step. -/
theorem marksAreSticky : Obligations.MarksAreSticky := by
  unfold Obligations.MarksAreSticky
  intro s t h
  exact (marks_kept s).step s t (marksKept_of_eq rfl rfl) h

end Sys2Proof.Machine

/-! ### The delay clock -/

namespace Sys2Proof.Machine

/-- A register write leaves the delay clock (R22). -/
@[simp] theorem regWrite_now (r : Reg) (d : Word) (s : State) : (regWrite r d s).now = s.now := by
  rw [regWrite_frame]

/-- A read leaves the delay clock (R22). -/
@[simp] theorem readEffect_now (r : Reg) (s : State) : (readEffect r s).now = s.now := by
  rw [readEffect_frame]

/-- Every operation but a delay leaves the delay clock (R22). -/
theorem exec_now_of_ne_delay (i : Instr) (s t : State) (h : exec i s = .next t)
    (hi : ∀ n, i ≠ .delay n) : t.now = s.now := by
  cases opResult_of_exec i s t h with
  | write r d => exact regWrite_now r d s
  | read r n => exact readEffect_now r s
  | read8 n => exact readEffect_now .userQ s
  | badWidth r n => rw [read8Other, badWidth_frame]; rfl
  | clkon n d => rw [clkEnable_frame]; rfl
  | clkoff d => rfl
  | rsta n => rw [rstAssert_frame]; rfl
  | rstdAnswered n ok _ => rw [rstDeassert_frame]; rfl
  | rstdStopped n _ => rw [rstDeassert_frame]
  | delay n => exact absurd rfl (hi n)
  | waitfor r n m _ _ => rw [startPoll_frame]

/-- The delay line of a poll advances the clock by one interval, its other lines leave it (R190). -/
theorem pollStep_now (p : Poll) (s : State) :
    (pollStep p s).now = if p.line = .delay then s.now + 1 else s.now := by
  unfold pollStep
  cases p.line with
  | read => dsimp only; rw [pollRead_frame]; rfl
  | acknowledge => exact regWrite_now p.status p.mask s
  | delay => rfl

/-- Settles O14: by the operation, by the poll's line, and by the completion's frame. -/
theorem onlyDelaysAdvanceTime : Obligations.OnlyDelaysAdvanceTime := by
  unfold Obligations.OnlyDelaysAdvanceTime
  refine ⟨fun s t i h => ⟨fun n hi => ?_, exec_now_of_ne_delay i s t h⟩, fun s p => pollStep_now p s,
    fun s => by rw [complete_frame]⟩
  subst hi
  cases h
  rfl

end Sys2Proof.Machine

/-! ### The status bits -/

namespace Sys2Proof.Machine

/-- A status bit is not set where it was not, and is cleared only where `named` holds (R45). -/
def onlyCleared (old new : Option Bool) (named : Prop) : Prop :=
  (new = some true → old = some true) ∧ (old = some true → new ≠ some true → named)

/-- A status bit left as it was. -/
theorem onlyCleared_of_eq {old new : Option Bool} (h : new = old) (named : Prop) :
    onlyCleared old new named := by
  subst h
  exact ⟨id, fun h h' => absurd h h'⟩

/-- What names a bit may be replaced by what follows from it. -/
theorem onlyCleared_mono {old new : Option Bool} {p q : Prop} (h : onlyCleared old new p)
    (hpq : p → q) : onlyCleared old new q :=
  ⟨h.1, fun ho hn => hpq (h.2 ho hn)⟩

/-- A write of `d` clears the bit at position `n` only where it is written 1 (R104, R119). -/
theorem onlyCleared_acknowledge (d : Word) (n : Nat) (old : Option Bool) :
    onlyCleared old (acknowledge d n old) (d.getLsbD n = true) := by
  unfold acknowledge
  split
  case isTrue hd => exact ⟨fun h => by simp at h, fun _ _ => hd⟩
  case isFalse => exact onlyCleared_of_eq rfl _

/-- Between `s` and `t` no status bit is set, and one is cleared only where `namedB` or `namedA`
names it (R45). -/
def bitsOnlyCleared (s t : State) (namedB : IrqBit → Prop) (namedA : IntBit → Prop) : Prop :=
  (∀ b, onlyCleared (s.regsB.irqSt.get b) (t.regsB.irqSt.get b) (namedB b)) ∧
    ∀ b, onlyCleared (s.regsA.intStatus.get b) (t.regsA.intStatus.get b) (namedA b)

/-- Where both status registers are as they were, no bit is set or cleared. -/
theorem bitsOnlyCleared_of_eq {s t : State} (hB : t.regsB.irqSt = s.regsB.irqSt)
    (hA : t.regsA.intStatus = s.regsA.intStatus) (namedB : IrqBit → Prop)
    (namedA : IntBit → Prop) : bitsOnlyCleared s t namedB namedA :=
  ⟨fun b => onlyCleared_of_eq (by rw [hB]) _, fun b => onlyCleared_of_eq (by rw [hA]) _⟩

/-- What names a bit may be replaced by what follows from it. -/
theorem bitsOnlyCleared_mono {s t : State} {pB qB : IrqBit → Prop} {pA qA : IntBit → Prop}
    (h : bitsOnlyCleared s t pB pA) (hB : ∀ b, pB b → qB b) (hA : ∀ b, pA b → qA b) :
    bitsOnlyCleared s t qB qA :=
  ⟨fun b => onlyCleared_mono (h.1 b) (hB b), fun b => onlyCleared_mono (h.2 b) (hA b)⟩

/-- A register write clears a status bit only by a 1 written to it in its register (R104, R119). -/
theorem WriteResult.bitsOnlyCleared {r : Reg} {d : Word} {s t : State}
    (h : WriteResult r d s t) : bitsOnlyCleared s t
      (fun b => r = .irqSt ∧ d.getLsbD (s.cfg.irqPos b) = true)
      (fun b => r = .intStatus ∧ d.getLsbD (s.cfg.intPos b) = true) := by
  cases h with
  | guarded => exact bitsOnlyCleared_of_eq rfl rfl _ _
  | faulted k => exact bitsOnlyCleared_of_eq rfl rfl _ _
  | refused k => exact bitsOnlyCleared_of_eq rfl rfl _ _
  | done _ _ _ hB hA =>
    refine ⟨fun b => ?_, fun b => ?_⟩
    · rw [hB]
      split
      case isTrue hr =>
        rw [IrqSt.get_acknowledge]
        exact onlyCleared_mono (onlyCleared_acknowledge d _ _) fun hd => ⟨hr, hd⟩
      case isFalse => exact onlyCleared_of_eq rfl _
    · rw [hA]
      split
      case isTrue hr =>
        rw [IntStatus.get_acknowledge]
        exact onlyCleared_mono (onlyCleared_acknowledge d _ _) fun hd => ⟨hr, hd⟩
      case isFalse => exact onlyCleared_of_eq rfl _

/-- No IRQ_ST bit is known to be set after a reset (R26). -/
theorem IrqSt.get_resetValue_ne (r : StatusReset) (b : IrqBit) :
    (IrqSt.resetValue r).get b ≠ some true := by
  cases r <;> cases b <;> decide

/-- No INT_STATUS bit is known to be set after a reset (R36). -/
theorem IntStatus.get_resetValue_ne (r : StatusReset) (b : IntBit) :
    (IntStatus.resetValue r).get b ≠ some true := by
  cases r <;> cases b <;> decide

/-- A controller reset sets no status bit (R26, R36, R290). -/
theorem controllerReset_bitsOnlyCleared (s : State) :
    bitsOnlyCleared s s.controllerReset (fun _ => True) (fun _ => True) := by
  unfold State.controllerReset
  split
  · exact ⟨fun b => ⟨fun h => absurd h (IrqSt.get_resetValue_ne _ b), fun _ _ => trivial⟩,
      fun b => onlyCleared_of_eq rfl _⟩
  · exact ⟨fun b => onlyCleared_of_eq rfl _,
      fun b => ⟨fun h => absurd h (IntStatus.get_resetValue_ne _ b), fun _ _ => trivial⟩⟩

/-- A reset deassertion sets no status bit (R203). -/
theorem rstDeassert_bitsOnlyCleared (s : State) :
    bitsOnlyCleared s (rstDeassert s) (fun _ => True) (fun _ => True) := by
  rcases rstDeassert_cases s with e | e | e <;> rw [e]
  · exact bitsOnlyCleared_of_eq rfl rfl _ _
  · exact bitsOnlyCleared_of_eq rfl rfl _ _
  · exact controllerReset_bitsOnlyCleared s.spend

/-- An operation clears a status bit only as a write of 1 to it or as a `rstd` (R45). -/
theorem exec_bitsOnlyCleared (i : Instr) (s t : State) (h : exec i s = .next t) :
    bitsOnlyCleared s t
      (fun b => (∃ d, i = .w32IrqSt d ∧ d.getLsbD (s.cfg.irqPos b) = true) ∨ ∃ n, i = .rstd n)
      (fun b => (∃ d, i = .w32IntStatus d ∧ d.getLsbD (s.cfg.intPos b) = true) ∨
        ∃ n, i = .rstd n) := by
  cases opResult_of_exec i s t h with
  | write r d =>
    refine bitsOnlyCleared_mono (regWrite_result r d s).bitsOnlyCleared (fun b => ?_) (fun b => ?_)
    · rintro ⟨rfl, hd⟩
      exact .inl ⟨d, rfl, hd⟩
    · rintro ⟨rfl, hd⟩
      exact .inl ⟨d, rfl, hd⟩
  | read r n =>
    rw [readInto, readEffect_frame]
    exact bitsOnlyCleared_of_eq rfl rfl _ _
  | read8 n =>
    rw [read8Into, readEffect_frame]
    exact bitsOnlyCleared_of_eq rfl rfl _ _
  | badWidth r n =>
    rw [read8Other, badWidth_frame]
    exact bitsOnlyCleared_of_eq rfl rfl _ _
  | clkon n d =>
    rw [clkEnable_frame]
    exact bitsOnlyCleared_of_eq rfl rfl _ _
  | clkoff d => exact bitsOnlyCleared_of_eq rfl rfl _ _
  | rsta n =>
    rw [rstAssert_frame]
    exact bitsOnlyCleared_of_eq rfl rfl _ _
  | rstdAnswered n ok _ =>
    exact bitsOnlyCleared_mono (rstDeassert_bitsOnlyCleared s)
      (fun _ _ => .inr ⟨n, rfl⟩) (fun _ _ => .inr ⟨n, rfl⟩)
  | rstdStopped n _ =>
    exact bitsOnlyCleared_mono (rstDeassert_bitsOnlyCleared s)
      (fun _ _ => .inr ⟨n, rfl⟩) (fun _ _ => .inr ⟨n, rfl⟩)
  | delay n => exact bitsOnlyCleared_of_eq rfl rfl _ _
  | waitfor r n m _ _ =>
    rw [startPoll_frame]
    exact bitsOnlyCleared_of_eq rfl rfl _ _

/-- A line of a poll clears a status bit only as the acknowledge of a mask that names it (R192). -/
theorem pollStep_bitsOnlyCleared (p : Poll) (s : State) :
    bitsOnlyCleared s (pollStep p s)
      (fun b => p.line = .acknowledge ∧ p.status = .irqSt ∧
        p.mask.getLsbD (s.cfg.irqPos b) = true)
      (fun b => p.line = .acknowledge ∧ p.status = .intStatus ∧
        p.mask.getLsbD (s.cfg.intPos b) = true) := by
  unfold pollStep
  cases p.line with
  | read =>
    dsimp only
    rw [pollRead_frame]
    exact bitsOnlyCleared_of_eq rfl rfl _ _
  | acknowledge =>
    exact bitsOnlyCleared_mono (regWrite_result p.status p.mask s).bitsOnlyCleared
      (fun _ h => ⟨rfl, h⟩) (fun _ h => ⟨rfl, h⟩)
  | delay => exact bitsOnlyCleared_of_eq rfl rfl _ _

/-- Settles O15: by the operation's result and by the poll's line, on both status registers. -/
theorem hostNeverSetsAStatusBit : Obligations.HostNeverSetsAStatusBit := by
  unfold Obligations.HostNeverSetsAStatusBit
  exact ⟨fun s t i h => exec_bitsOnlyCleared i s t h, fun s p => pollStep_bitsOnlyCleared p s⟩

end Sys2Proof.Machine

/-! ### The frames of reads and writes -/

namespace Sys2Proof.Machine

/-- States with the same stores hold the same bytes: they are read from the stores alone (R42). -/
theorem sameBytes_of_stores {s t : State} (h : t.stores = s.stores) : sameBytes s t := by
  simp only [State.stores, Prod.mk.injEq] at h
  obtain ⟨-, hA, hB, hout, hscratch⟩ := h
  refine ⟨fun a => by rw [hout], fun a => ?_, fun w j => ?_, hscratch⟩
  · rw [State.fuseA, State.fuseA, hA]
  · rw [State.fuseLaneB, State.fuseLaneB, hB]

/-- An operation stores no byte (R66). -/
theorem exec_sameBytes {i : Instr} {s t : State} (h : exec i s = .next t) : sameBytes s t :=
  sameBytes_of_stores ((stores_kept s.stores).exec i s t rfl h)

/-- Between `s` and `t` only the variable `n`, the fault set and the model's own supply of draws
and status-read count may differ (R66). -/
def readChanges (n : Var) (s t : State) : Prop :=
  t = { s with v := t.v, faults := t.faults, statusReads := t.statusReads, env := t.env } ∧
    ∀ m, m ≠ n → t.getVar m = s.getVar m

/-- A 32-bit read changes its variable and what its access moves (R66, R103). -/
theorem readInto_changes (r : Reg) (n : Var) (s : State) :
    readChanges n s (readInto r n s) := by
  rw [readInto, readEffect_frame]
  exact ⟨rfl, fun m hm => State.getVar_setVar_other _ n m _ hm⟩

/-- An 8-bit read of USER_Q changes its variable and what its access moves (R66, R125). -/
theorem read8Into_changes (n : Var) (s : State) : readChanges n s (read8Into n s) := by
  rw [read8Into, readEffect_frame]
  exact ⟨rfl, fun m hm => State.getVar_setVar_other _ n m _ hm⟩

/-- An 8-bit read of another register changes its variable and the fault set (R128). -/
theorem read8Other_changes (r : Reg) (n : Var) (s : State) :
    readChanges n s (read8Other r n s) := by
  rw [read8Other, badWidth_frame]
  exact ⟨rfl, fun m hm => State.getVar_setVar_other _ n m _ hm⟩

/-- Both read classes change what a read may change (R66). -/
theorem exec_read_changes {r : Reg} {n : Var} {i : Instr} {s t : State}
    (hi : i = r32Row r n ∨ i = r8Row r n) (h : exec i s = .next t) : readChanges n s t := by
  rcases hi with rfl | rfl
  · rw [exec_r32Row] at h
    cases h
    exact readInto_changes r n s
  · rw [exec_r8Row] at h
    cases h
    split
    · exact read8Into_changes n s
    · exact read8Other_changes r n s

/-- Settles O38: by the read class, and no operation stores a byte. -/
theorem readsChangeOnlyTheirVariable : Obligations.ReadsChangeOnlyTheirVariable := by
  unfold Obligations.ReadsChangeOnlyTheirVariable
  intro s t r n i hi h
  obtain ⟨hframe, hvars⟩ := exec_read_changes hi h
  exact ⟨hframe, hvars, exec_sameBytes h⟩

/-- What an access leaves is what its effect leaves, or the guard's faults (R100). -/
theorem access_eq_cases {r : Reg} {f : State → State} {s t : State} (h : access r f s = t) :
    t = f s ∨ t = guardFaults r s := by
  subst h
  exact (access_cases r f s).imp_left fun ⟨_, _, e⟩ => e

/-- The read-access command moves the pending operation, the count of status reads, the refusal
and the supply of draws (R130). -/
theorem issueReadAccess_frame (s : State) :
    issueReadAccess s = { s with
      ctlB := { s.ctlB with pend := (issueReadAccess s).ctlB.pend },
      statusReads := (issueReadAccess s).statusReads, refused := (issueReadAccess s).refused,
      env := (issueReadAccess s).env } := by
  unfold issueReadAccess
  split
  · split <;> rfl
  · rfl

/-- A mode command moves the pending operation, the marks and the model's own fields: the branches
in the order of the transition table (R130, R132). -/
theorem issueMode_frame (c : ModeCmd) (s : State) :
    issueMode c s = { s with
      ctlB := { s.ctlB with pend := (issueMode c s).ctlB.pend },
      statusReads := (issueMode c s).statusReads, faults := (issueMode c s).faults,
      refused := (issueMode c s).refused, env := (issueMode c s).env } := by
  unfold issueMode
  split
  · rfl
  · rfl
  · rfl
  · rfl
  · rw [issueReadAccess_frame]
  · rfl

/-- A write of MODE_CTRL moves what a mode command moves (R130). -/
theorem writeModeCtrl_frame {d : Word} {s t : State} (h : writeModeCtrl d s = t) :
    t = { s with
      ctlB := { s.ctlB with pend := t.ctlB.pend }, statusReads := t.statusReads,
      faults := t.faults, refused := t.refused, env := t.env } := by
  rcases access_eq_cases h with rfl | rfl
  · dsimp only
    split
    · rfl
    · split
      · rfl
      · rw [issueMode_frame]
  · rfl

/-- A write of IRQ_ST moves its bits and the fault set (R104). -/
theorem writeIrqSt_frame {d : Word} {s t : State} (h : writeIrqSt d s = t) :
    t = { s with regsB := { s.regsB with irqSt := t.regsB.irqSt }, faults := t.faults } := by
  rcases access_eq_cases h with rfl | rfl <;> rfl

/-- A write of ACCESS_ADDR moves its field, or the fault set (R106). -/
theorem writeAccessAddr_frame {d : Word} {s t : State} (h : writeAccessAddr d s = t) :
    t = { s with
      regsB := { s.regsB with accessAddr := t.regsB.accessAddr }, faults := t.faults } := by
  rcases access_eq_cases h with rfl | rfl
  · dsimp only
    split <;> rfl
  · rfl

/-- A write of RD_DATA moves the fault set (R111). -/
theorem writeRdData_frame {d : Word} {s t : State} (h : writeRdData d s = t) :
    t = { s with faults := t.faults } := by
  rcases access_eq_cases h with rfl | rfl <;> rfl

/-- A write of REPR_RD_TRANS_NUM moves its field, or the fault set (R108). -/
theorem writeReprRdTransNum_frame {d : Word} {s t : State} (h : writeReprRdTransNum d s = t) :
    t = { s with
      regsB := { s.regsB with transNum := t.regsB.transNum }, faults := t.faults } := by
  rcases access_eq_cases h with rfl | rfl
  · dsimp only
    split <;> rfl
  · rfl

/-- Settles O39: by the frame of each write, and no operation stores a byte. -/
theorem variantBWritesChangeOnlyTheirField : Obligations.VariantBWritesChangeOnlyTheirField := by
  unfold Obligations.VariantBWritesChangeOnlyTheirField
  exact fun s t d =>
    ⟨fun h => ⟨writeModeCtrl_frame (Host.Outcome.next.inj h), exec_sameBytes h⟩,
      fun h => ⟨writeIrqSt_frame (Host.Outcome.next.inj h), exec_sameBytes h⟩,
      fun h => ⟨writeAccessAddr_frame (Host.Outcome.next.inj h), exec_sameBytes h⟩,
      fun h => ⟨writeRdData_frame (Host.Outcome.next.inj h), exec_sameBytes h⟩,
      fun h => ⟨writeReprRdTransNum_frame (Host.Outcome.next.inj h), exec_sameBytes h⟩⟩

/-- The start of an SBPI command moves the DAP field, the pending operation, the refusal and the
model's own fields (R160). -/
theorem startSbpi_frame (d : Word) (s : State) :
    startSbpi d s = { s with
      regsA := { s.regsA with dap := (startSbpi d s).regsA.dap },
      ctlA := { s.ctlA with pend := (startSbpi d s).ctlA.pend },
      statusReads := (startSbpi d s).statusReads, refused := (startSbpi d s).refused,
      env := (startSbpi d s).env } := by
  unfold startSbpi
  dsimp only
  rw [updateDap_frame]
  split <;> rfl

/-- A write of SBPI_CTRL moves what its select or the start of a command moves, or the fault set
(R160). -/
theorem writeSbpiCtrl_frame {d : Word} {s t : State} (h : writeSbpiCtrl d s = t) :
    t = { s with
      regsA := { s.regsA with dap := t.regsA.dap },
      ctlA := { s.ctlA with pend := t.ctlA.pend }, statusReads := t.statusReads,
      faults := t.faults, refused := t.refused, env := t.env } := by
  rcases access_eq_cases h with rfl | rfl
  · dsimp only
    split
    · rfl
    · split
      · rw [startSbpi_frame]
      · rw [updateDap_frame]
  · rfl

/-- A write of SBPI_CMD_VALID_PRE moves its field and the supply of draws, or the fault set
(R113). -/
theorem writeSbpiCmdValidPre_frame {d : Word} {s t : State}
    (h : writeSbpiCmdValidPre d s = t) :
    t = { s with
      regsA := { s.regsA with cmdValid := t.regsA.cmdValid }, faults := t.faults,
      env := t.env } := by
  rcases access_eq_cases h with rfl | rfl
  · rw [updateCmdValid, spendIf_frame]
    split <;> rfl
  · rfl

/-- A write of SBPI_CMD0 moves its field, or the fault set (R115). -/
theorem writeSbpiCmd0_frame {d : Word} {s t : State} (h : writeSbpiCmd0 d s = t) :
    t = { s with regsA := { s.regsA with cmd0 := t.regsA.cmd0 }, faults := t.faults } := by
  rcases access_eq_cases h with rfl | rfl
  · dsimp only
    split <;> rfl
  · rfl

/-- A write of SBPI_CMD1 moves its field, or the fault set (R117). -/
theorem writeSbpiCmd1_frame {d : Word} {s t : State} (h : writeSbpiCmd1 d s = t) :
    t = { s with regsA := { s.regsA with cmd1 := t.regsA.cmd1 }, faults := t.faults } := by
  rcases access_eq_cases h with rfl | rfl
  · dsimp only
    split <;> rfl
  · rfl

/-- A write of INT_STATUS moves its bits and the fault set (R119). -/
theorem writeIntStatus_frame {d : Word} {s t : State} (h : writeIntStatus d s = t) :
    t = { s with
      regsA := { s.regsA with intStatus := t.regsA.intStatus }, faults := t.faults } := by
  rcases access_eq_cases h with rfl | rfl <;> rfl

/-- A write of USER_CTRL moves the user mode and its time of entry, or the fault set (R163). -/
theorem writeUserCtrl_frame {d : Word} {s t : State} (h : writeUserCtrl d s = t) :
    t = { s with
      regsA := { s.regsA with useUser := t.regsA.useUser },
      ctlA := { s.ctlA with userOnAt := t.ctlA.userOnAt }, faults := t.faults } := by
  rcases access_eq_cases h with rfl | rfl
  · dsimp only
    split
    · split <;> rfl
    · rfl
  · rfl

/-- A write of USER_ADDR moves its field and the supply of draws, or the fault set (R122). -/
theorem writeUserAddr_frame {d : Word} {s t : State} (h : writeUserAddr d s = t) :
    t = { s with
      regsA := { s.regsA with uaddr := t.regsA.uaddr }, faults := t.faults, env := t.env } := by
  rcases access_eq_cases h with rfl | rfl
  · rw [updateUaddr, spendIf_frame]
    split <;> rfl
  · rfl

/-- The start of a user read moves the pending operation and the model's own fields (R164). -/
theorem issueUserRead_frame (s : State) :
    issueUserRead s = { s with
      ctlA := { s.ctlA with pend := (issueUserRead s).ctlA.pend },
      statusReads := (issueUserRead s).statusReads, env := (issueUserRead s).env } := by
  unfold issueUserRead
  split <;> rfl

/-- A write of USER_ENABLE moves what the start of a user read moves, or the fault set (R164). -/
theorem writeUserEnable_frame {d : Word} {s t : State} (h : writeUserEnable d s = t) :
    t = { s with
      ctlA := { s.ctlA with pend := t.ctlA.pend }, statusReads := t.statusReads,
      faults := t.faults, env := t.env } := by
  rcases access_eq_cases h with rfl | rfl
  · dsimp only
    split
    · split
      · rfl
      · split
        · rfl
        · split
          · rfl
          · rw [issueUserRead_frame]
    · rfl
  · rfl

/-- A write of USER_Q moves the fault set (R127). -/
theorem writeUserQ_frame {d : Word} {s t : State} (h : writeUserQ d s = t) :
    t = { s with faults := t.faults } := by
  rcases access_eq_cases h with rfl | rfl <;> rfl

/-- Settles O40: by the frame of each write, and no operation stores a byte. -/
theorem variantAWritesChangeOnlyTheirField : Obligations.VariantAWritesChangeOnlyTheirField := by
  unfold Obligations.VariantAWritesChangeOnlyTheirField
  exact fun s t d =>
    ⟨fun h => ⟨writeSbpiCtrl_frame (Host.Outcome.next.inj h), exec_sameBytes h⟩,
      fun h => ⟨writeSbpiCmdValidPre_frame (Host.Outcome.next.inj h), exec_sameBytes h⟩,
      fun h => ⟨writeSbpiCmd0_frame (Host.Outcome.next.inj h), exec_sameBytes h⟩,
      fun h => ⟨writeSbpiCmd1_frame (Host.Outcome.next.inj h), exec_sameBytes h⟩,
      fun h => ⟨writeIntStatus_frame (Host.Outcome.next.inj h), exec_sameBytes h⟩,
      fun h => ⟨writeUserCtrl_frame (Host.Outcome.next.inj h), exec_sameBytes h⟩,
      fun h => ⟨writeUserAddr_frame (Host.Outcome.next.inj h), exec_sameBytes h⟩,
      fun h => ⟨writeUserEnable_frame (Host.Outcome.next.inj h), exec_sameBytes h⟩,
      fun h => ⟨writeUserQ_frame (Host.Outcome.next.inj h), exec_sameBytes h⟩⟩

end Sys2Proof.Machine

/-! ### The register at a bus address -/

namespace Sys2Proof

/-- The registers stand in `Reg.all` in the order of their places. -/
theorem Reg.all_getElem_slot (r : Reg) : Reg.all[r.slot] = r := by
  cases r <;> rfl

/-- No two registers have the same place. -/
theorem Reg.slot_injective : Function.Injective Reg.slot :=
  Function.LeftInverse.injective (g := fun k => Reg.all[k]) Reg.all_getElem_slot

/-- Every register is in the list of them. -/
theorem Reg.mem_all (r : Reg) : r ∈ Reg.all := by
  rw [← Reg.all_getElem_slot r]
  exact List.getElem_mem _

/-- The first five places are variant B's. -/
theorem Reg.slot_lt_five_iff (r : Reg) : r.slot.val < 5 ↔ r.variant = .B := by
  cases r <;> decide

/-- What `offsetsFit` says of the offsets: aligned, and distinct within each variant's part. -/
theorem Cfg.offsets_of_wf {c : Cfg} (h : c.wf = true) :
    (∀ o ∈ c.off.toList, o.toNat % 4 = 0) ∧ (c.off.toList.take 5).Nodup ∧
      (c.off.toList.drop 5).Nodup := by
  simp only [Cfg.wf, Cfg.offsetsFit, Bool.and_eq_true, List.all_eq_true, decide_eq_true_eq] at h
  obtain ⟨-, ⟨haligned, hB⟩, hA⟩ := h
  exact ⟨haligned, hB, hA⟩

/-- With an aligned base every register has an aligned bus address (R61). -/
theorem Cfg.busAddr_aligned {c : Cfg} (h : c.wf = true) (hb : c.base % 4 = 0) (r : Reg) :
    c.busAddr r % 4 = 0 := by
  have ho : (c.off[r.slot]).toNat % 4 = 0 :=
    (Cfg.offsets_of_wf h).1 _ (by simp)
  rw [Cfg.busAddr]
  omega

/-- Two registers of one variant have different bus addresses (R61). -/
theorem Cfg.busAddr_inj {c : Cfg} (h : c.wf = true) {r q : Reg} (hv : r.variant = q.variant)
    (ha : c.busAddr r = c.busAddr q) : r = q := by
  obtain ⟨-, hB, hA⟩ := Cfg.offsets_of_wf h
  have ho : c.off.toList[r.slot.val]'(by simp) = c.off.toList[q.slot.val]'(by simp) :=
    BitVec.eq_of_toNat_eq (by simpa [Cfg.busAddr] using ha)
  refine Reg.slot_injective (Fin.ext ?_)
  have hr := r.slot_lt_five_iff
  have hq := q.slot_lt_five_iff
  by_cases hlt : r.slot.val < 5
  · have hlt' : q.slot.val < 5 := hq.2 (hv ▸ hr.1 hlt)
    refine (hB.getElem_inj_iff (hi := by simp; omega) (hj := by simp; omega)).1 ?_
    simpa only [List.getElem_take] using ho
  · have hge : ¬ q.slot.val < 5 := fun hlt' => hlt (hr.2 (hv ▸ hq.1 hlt'))
    have hsub : r.slot.val - 5 = q.slot.val - 5 := by
      refine (hA.getElem_inj_iff (hi := by simp; omega) (hj := by simp; omega)).1 ?_
      simp only [List.getElem_drop, Nat.add_sub_of_le (Nat.not_lt.1 hlt),
        Nat.add_sub_of_le (Nat.not_lt.1 hge)]
      exact ho
    omega

/-- The register found at a bus address is one of the variant that has it (R65). -/
theorem Cfg.regAt_sound {c : Cfg} {a : Nat} {r : Reg} (h : c.regAt a = some r) :
    r.variant = c.variant ∧ c.busAddr r = a ∧ a % 4 = 0 := by
  unfold Cfg.regAt at h
  split at h
  case isTrue ha => simpa [ha] using List.find?_some h
  case isFalse => cases h

/-- At the address of a register of the variant that register is found (R65, R91). -/
theorem Cfg.regAt_busAddr {c : Cfg} (h : c.wf = true) (hb : c.base % 4 = 0) {r : Reg}
    (hv : r.variant = c.variant) : c.regAt (c.busAddr r) = some r := by
  have hsome : (c.regAt (c.busAddr r)).isSome = true := by
    rw [Cfg.regAt, if_pos (Cfg.busAddr_aligned h hb r), List.find?_isSome]
    exact ⟨r, Reg.mem_all r, by simp [hv]⟩
  obtain ⟨q, hq⟩ := Option.isSome_iff_exists.1 hsome
  obtain ⟨hqv, hqa, -⟩ := Cfg.regAt_sound hq
  rw [hq, Cfg.busAddr_inj h (hqv.trans hv.symm) hqa]

/-- No register is found at a misaligned address, or where none of the variant's has its address
(R65, log entry 19). -/
theorem Cfg.regAt_eq_none {c : Cfg} {a : Nat}
    (h : a % 4 ≠ 0 ∨ ∀ r : Reg, r.variant = c.variant → c.busAddr r ≠ a) :
    c.regAt a = none := by
  refine Option.eq_none_iff_forall_ne_some.2 fun r hr => ?_
  obtain ⟨hv, ha, haligned⟩ := Cfg.regAt_sound hr
  exact h.elim (fun hmis => hmis haligned) fun hno => hno r hv ha

end Sys2Proof

namespace Sys2Proof.Machine

/-- Where a register is found the access is its operation (R91). -/
theorem busAccess_of_regAt {s : State} {a : Nat} {r : Reg} (h : s.cfg.regAt a = some r)
    (op : BusOp) : busAccess a op s = busOperation r op s := by
  rw [busAccess, h]

/-- Where no register is found the access is refused (R65, R265). -/
theorem busAccess_of_regAt_none {s : State} {a : Nat} (h : s.cfg.regAt a = none) (op : BusOp) :
    busAccess a op s = s.refuse .unmappedOffset := by
  rw [busAccess, h]

/-- Settles O59: by the register found at the address. -/
theorem busAccessIsByAddress : Obligations.BusAccessIsByAddress := by
  unfold Obligations.BusAccessIsByAddress
  refine fun s d n hwf => ⟨fun r hv hb => ?_, fun a op h => ?_⟩
  · have hr := Cfg.regAt_busAddr hwf hb hv
    rw [busAccess_of_regAt hr, busAccess_of_regAt hr, busAccess_of_regAt hr]
    exact ⟨exec_w32Row r d s, exec_r32Row r n s, exec_r8Row r n s⟩
  · exact busAccess_of_regAt_none (Cfg.regAt_eq_none h) op

end Sys2Proof.Machine

/-! ### The encoding as a relation

`Encodes i ws` lists the forms R84 to R88 give the operations. The encoder gives such a form, the
decoder reads every form back and reads nothing else; what is reserved (R89) has no form. -/

namespace Sys2Proof

/-- `ws` are the words of the operation `i`, one constructor for each class of R83. -/
inductive Encodes : Instr → List Word → Prop
  | w32 (r : Reg) (d : Word) : Encodes (w32Row r d) (encodeW32 r d)
  | r32 (r : Reg) (n : Var) : Encodes (r32Row r n) (encodeR32 r n)
  | r8 (r : Reg) (n : Var) : Encodes (r8Row r n) (encodeR8 r n)
  | clkon (n : Var) (d : Domain) :
      Encodes (.clkon n d) [header 0x4 0 (varField n) (domainCode d)]
  | clkoff (d : Domain) : Encodes (.clkoff d) [header 0x5 0 0 (domainCode d)]
  | rsta (n : Var) : Encodes (.rsta n) [header 0x6 0 (varField n) 0]
  | rstd (n : Var) : Encodes (.rstd n) [header 0x7 0 (varField n) 0]
  | delay (n : BitVec 16) : Encodes (.delay n) [header 0x8 0 0 n]
  | waitfor (r : Reg) (n : Var) (m : Word) (i : Instr) (h : waitforRow r n m = some i) :
      Encodes i (encodeWaitfor r n m)

/-- The `r8` row of a register other than USER_Q is the row of the others (R97). -/
theorem r8Row_of_ne {r : Reg} (h : r ≠ .userQ) (n : Var) : r8Row r n = .r8Other r n := by
  cases r with
  | userQ => exact absurd rfl h
  | _ => rfl

/-- The encoder gives a well-formed operation one of the forms (R84 to R88). -/
theorem encodes_encode (i : Instr) (h : i.wf = true) : Encodes i (encode i) := by
  cases i with
  | w32ModeCtrl d => exact .w32 .modeCtrl d
  | w32IrqSt d => exact .w32 .irqSt d
  | w32AccessAddr d => exact .w32 .accessAddr d
  | w32RdData d => exact .w32 .rdData d
  | w32ReprRdTransNum d => exact .w32 .reprRdTransNum d
  | w32SbpiCtrl d => exact .w32 .sbpiCtrl d
  | w32SbpiCmdValidPre d => exact .w32 .sbpiCmdValidPre d
  | w32SbpiCmd0 d => exact .w32 .sbpiCmd0 d
  | w32SbpiCmd1 d => exact .w32 .sbpiCmd1 d
  | w32IntStatus d => exact .w32 .intStatus d
  | w32UserCtrl d => exact .w32 .userCtrl d
  | w32UserAddr d => exact .w32 .userAddr d
  | w32UserEnable d => exact .w32 .userEnable d
  | w32UserQ d => exact .w32 .userQ d
  | r32ModeCtrl n => exact .r32 .modeCtrl n
  | r32IrqSt n => exact .r32 .irqSt n
  | r32AccessAddr n => exact .r32 .accessAddr n
  | r32RdData n => exact .r32 .rdData n
  | r32ReprRdTransNum n => exact .r32 .reprRdTransNum n
  | r32SbpiCtrl n => exact .r32 .sbpiCtrl n
  | r32SbpiCmdValidPre n => exact .r32 .sbpiCmdValidPre n
  | r32SbpiCmd0 n => exact .r32 .sbpiCmd0 n
  | r32SbpiCmd1 n => exact .r32 .sbpiCmd1 n
  | r32IntStatus n => exact .r32 .intStatus n
  | r32UserCtrl n => exact .r32 .userCtrl n
  | r32UserAddr n => exact .r32 .userAddr n
  | r32UserEnable n => exact .r32 .userEnable n
  | r32UserQ n => exact .r32 .userQ n
  | r8UserQ n => exact .r8 .userQ n
  | r8Other r n =>
    rw [encode, ← r8Row_of_ne (of_decide_eq_true h) n]
    exact .r8 r n
  | clkon n d => exact .clkon n d
  | clkoff d => exact .clkoff d
  | rsta n => exact .rsta n
  | rstd n => exact .rstd n
  | delay n => exact .delay n
  | waitforIrqSt n m => exact .waitfor .irqSt n m _ rfl
  | waitforIntStatus n m => exact .waitfor .intStatus n m _ rfl

/-- A `waitfor` row is one of the two status registers (R88). -/
theorem waitforRow_eq_some {r : Reg} {n : Var} {m : Word} {i : Instr}
    (h : waitforRow r n m = some i) :
    (r = .irqSt ∧ i = .waitforIrqSt n m) ∨ (r = .intStatus ∧ i = .waitforIntStatus n m) := by
  unfold waitforRow at h
  split at h
  · exact .inl ⟨rfl, (Option.some.inj h).symm⟩
  · exact .inr ⟨rfl, (Option.some.inj h).symm⟩
  · cases h

/-- An operation that has words is well formed, and the encoder gives it those words. -/
theorem Encodes.eq_encode {i : Instr} {ws : List Word} (h : Encodes i ws) :
    i.wf = true ∧ ws = encode i := by
  cases h with
  | w32 r d => cases r <;> exact ⟨rfl, rfl⟩
  | r32 r n => cases r <;> exact ⟨rfl, rfl⟩
  | r8 r n => cases r <;> exact ⟨rfl, rfl⟩
  | waitfor r n m i h => obtain ⟨rfl, rfl⟩ | ⟨rfl, rfl⟩ := waitforRow_eq_some h <;> exact ⟨rfl, rfl⟩
  | _ => exact ⟨rfl, rfl⟩

/-- The decoder reads every form back and leaves the words after it (R83, R96). -/
theorem Encodes.decode_append {i : Instr} {ws : List Word} (h : Encodes i ws) (rest : List Word) :
    decode (ws ++ rest) = some (.ok (i, rest)) := by
  cases h with
  | w32 r d => simp [decode, decodeFrom, encodeW32]
  | r32 r n => simp [decode, decodeFrom, encodeR32]
  | r8 r n => simp [decode, decodeFrom, encodeR8]
  | clkon n d => simp [decode, decodeFrom]
  | clkoff d => simp [decode, decodeFrom]
  | rsta n => simp [decode, decodeFrom]
  | rstd n => simp [decode, decodeFrom]
  | delay n => simp [decode, decodeFrom]
  | waitfor r n m i h => simp [decode, decodeFrom, encodeWaitfor, h]

/-- A word whose fields are known is the header with those fields (R81). -/
theorem eq_header {h : Word} {c : BitVec 4} {r : BitVec 8} {d : BitVec 4} {i : BitVec 16}
    (hc : (headerClass h).toNat = c.toNat) (hr : headerReg h = r) (hd : headerDst h = d)
    (hi : headerImm h = i) : h = header c r d i := by
  subst hr hd hi
  rw [← BitVec.eq_of_toNat_eq hc, header_fields]

/-- Where a test that refuses lets a value through, the test failed. -/
theorem ok_of_guard {α : Type} {p : Prop} [Decidable p] {e : Reject} {x : Except Reject α} {a : α}
    (h : (if p then .error e else x) = .ok a) : ¬p ∧ x = .ok a := by
  split at h
  case isTrue => cases h
  case isFalse hp => exact ⟨hp, h⟩

/-- What the decoder reads is one of the forms, followed by the words left: class by class, the
tests R89 lists fix every field of the header. -/
theorem encodes_of_decodeFrom {h : Word} {rest rest' : List Word} {i : Instr}
    (hd : decodeFrom h rest = .ok (i, rest')) :
    ∃ ws, Encodes i ws ∧ h :: rest = ws ++ rest' := by
  unfold decodeFrom at hd
  dsimp only at hd
  split at hd
  case h_1 hc =>
    split at hd
    case h_1 => cases hd
    case h_2 r hr =>
      obtain ⟨hz, hd⟩ := ok_of_guard hd
      simp only [ne_eq, not_or, not_not] at hz
      obtain ⟨hdst, himm⟩ := hz
      have hh := eq_header (c := 0x1) hc (regIndex_of_regOfIndex _ r hr).symm hdst himm
      cases rest with
      | nil => cases hd
      | cons d ws =>
        cases hd
        exact ⟨_, .w32 r d, congrArg (· :: d :: _) hh⟩
  case h_2 hc =>
    split at hd
    case h_1 => cases hd
    case h_2 r hr =>
      obtain ⟨himm, hd⟩ := ok_of_guard hd
      cases hd
      exact ⟨_, .r32 r _, congrArg (· :: rest)
        (eq_header hc (regIndex_of_regOfIndex _ r hr).symm rfl (not_not.mp himm))⟩
  case h_3 hc =>
    split at hd
    case h_1 => cases hd
    case h_2 r hr =>
      obtain ⟨himm, hd⟩ := ok_of_guard hd
      cases hd
      exact ⟨_, .r8 r _, congrArg (· :: rest)
        (eq_header hc (regIndex_of_regOfIndex _ r hr).symm rfl (not_not.mp himm))⟩
  case h_4 hc =>
    obtain ⟨hz, hd⟩ := ok_of_guard hd
    simp only [ne_eq, not_or, not_not] at hz
    obtain ⟨hreg, hhigh⟩ := hz
    split at hd
    case h_1 => cases hd
    case h_2 d hdom =>
      cases hd
      exact ⟨_, .clkon _ d, congrArg (· :: rest)
        (eq_header hc hreg rfl (domainCode_of_domainOfCode _ d hdom hhigh).symm)⟩
  case h_5 hc =>
    obtain ⟨hz, hd⟩ := ok_of_guard hd
    simp only [ne_eq, not_or, not_not] at hz
    obtain ⟨hreg, hdst, hhigh⟩ := hz
    split at hd
    case h_1 => cases hd
    case h_2 d hdom =>
      cases hd
      exact ⟨_, .clkoff d, congrArg (· :: rest)
        (eq_header hc hreg hdst (domainCode_of_domainOfCode _ d hdom hhigh).symm)⟩
  case h_6 hc =>
    obtain ⟨hz, hd⟩ := ok_of_guard hd
    simp only [ne_eq, not_or, not_not] at hz
    obtain ⟨hreg, himm⟩ := hz
    cases hd
    exact ⟨_, .rsta _, congrArg (· :: rest) (eq_header hc hreg rfl himm)⟩
  case h_7 hc =>
    obtain ⟨hz, hd⟩ := ok_of_guard hd
    simp only [ne_eq, not_or, not_not] at hz
    obtain ⟨hreg, himm⟩ := hz
    cases hd
    exact ⟨_, .rstd _, congrArg (· :: rest) (eq_header hc hreg rfl himm)⟩
  case h_8 hc =>
    obtain ⟨hz, hd⟩ := ok_of_guard hd
    simp only [ne_eq, not_or, not_not] at hz
    obtain ⟨hreg, hdst⟩ := hz
    cases hd
    exact ⟨_, .delay _, congrArg (· :: rest) (eq_header hc hreg hdst rfl)⟩
  case h_9 hc =>
    split at hd
    case h_1 => cases hd
    case h_2 r hr =>
      obtain ⟨himm, hd⟩ := ok_of_guard hd
      have hh := eq_header (c := 0x9) hc (regIndex_of_regOfIndex _ r hr).symm rfl (not_not.mp himm)
      cases rest with
      | nil =>
        dsimp only at hd
        split at hd <;> cases hd
      | cons m ws =>
        dsimp only at hd
        split at hd
        case h_1 => cases hd
        case h_2 j hrow =>
          cases hd
          exact ⟨_, .waitfor r _ m i hrow, congrArg (· :: m :: _) hh⟩
  case h_10 => cases hd

/-- What `decode` reads is one of the forms, followed by the words left (R80, R89). -/
theorem encodes_of_decode {ws rest : List Word} {i : Instr}
    (hd : decode ws = some (.ok (i, rest))) : ∃ vs, Encodes i vs ∧ ws = vs ++ rest := by
  cases ws with
  | nil => cases hd
  | cons h ws => exact encodes_of_decodeFrom (Option.some.inj hd)

/-- Settles O1: the encoder gives a form, and the decoder reads every form back. -/
theorem decodeOfEncodeIsTheOperation : Obligations.DecodeOfEncodeIsTheOperation := by
  unfold Obligations.DecodeOfEncodeIsTheOperation
  exact fun i rest h => (encodes_encode i h).decode_append rest

/-- Settles O2: the decoder reads nothing but the forms, and a form is what the encoder gives. -/
theorem decodedWordsAreTheEncoding : Obligations.DecodedWordsAreTheEncoding := by
  unfold Obligations.DecodedWordsAreTheEncoding
  intro ws i rest hd
  obtain ⟨vs, henc, hws⟩ := encodes_of_decode hd
  obtain ⟨hwf, rfl⟩ := henc.eq_encode
  exact ⟨hwf, hws⟩

/-- Settles O3: each operation's form is the words the program writes out, and decodes. -/
theorem specProgramWordsDecode : Obligations.SpecProgramWordsDecode := by
  unfold Obligations.SpecProgramWordsDecode
  exact ⟨(Encodes.clkon 0 .phy).decode_append [], (Encodes.clkoff .bus).decode_append [],
    (Encodes.rsta 0).decode_append [], (Encodes.rstd 0).decode_append [],
    (Encodes.delay 2).decode_append [], (Encodes.r32 .modeCtrl 1).decode_append [],
    (Encodes.w32 .accessAddr 0xE0).decode_append [],
    (Encodes.waitfor .irqSt 2 0x100 _ rfl).decode_append [],
    (Encodes.r8 .userQ 4).decode_append [],
    (Encodes.waitfor .intStatus 2 4 _ rfl).decode_append [7]⟩

end Sys2Proof

/-! ### Reserved encodings -/

namespace Sys2Proof

/-- The reserved encodings of R89, for the header `h` with the words `rest` after it. -/
def Reserved (h : Word) (rest : List Word) : Prop :=
  let c := (headerClass h).toNat
  let r := (headerReg h).toNat
  let dst := (headerDst h).toNat
  let i := (headerImm h).toNat
  (c = 0 ∨ 0xA ≤ c) ∨
    ((c = 1 ∨ c = 2 ∨ c = 3 ∨ c = 9) ∧ ((0x05 ≤ r ∧ r ≤ 0x0F) ∨ 0x19 ≤ r)) ∨
    ((4 ≤ c ∧ c ≤ 8) ∧ r ≠ 0) ∨
    ((c = 1 ∨ c = 5 ∨ c = 8) ∧ dst ≠ 0) ∨
    ((c = 1 ∨ c = 2 ∨ c = 3 ∨ c = 6 ∨ c = 7 ∨ c = 9) ∧ i ≠ 0) ∨
    ((c = 4 ∨ c = 5) ∧ 3 ≤ i) ∨
    (c = 9 ∧ r ≠ 0x01 ∧ r ≠ 0x14) ∨
    ((c = 1 ∨ c = 9) ∧ rest = [])

/-- No register has a reserved index (R82). -/
theorem regIndex_not_reserved (r : Reg) :
    ¬((0x05 ≤ (regIndex r).toNat ∧ (regIndex r).toNat ≤ 0x0F) ∨ 0x19 ≤ (regIndex r).toNat) := by
  cases r <;> decide

/-- No domain has the reserved code 3 (R83). -/
theorem domainCode_lt_three (d : Domain) : (domainCode d).toNat < 3 := by
  cases d <;> decide

/-- No form of an operation is a reserved encoding (R89). -/
theorem Encodes.not_reserved {i : Instr} {ws vs rest : List Word} {h : Word} (e : Encodes i ws)
    (hws : h :: rest = ws ++ vs) : ¬ Reserved h rest := by
  cases e with
  | w32 r d =>
    cases hws
    simpa [Reserved] using regIndex_not_reserved r
  | r32 r n =>
    cases hws
    simpa [Reserved] using regIndex_not_reserved r
  | r8 r n =>
    cases hws
    simpa [Reserved] using regIndex_not_reserved r
  | clkon n d =>
    cases hws
    simpa [Reserved] using domainCode_lt_three d
  | clkoff d =>
    cases hws
    simpa [Reserved] using domainCode_lt_three d
  | rsta n =>
    cases hws
    simp [Reserved]
  | rstd n =>
    cases hws
    simp [Reserved]
  | delay n =>
    cases hws
    simp [Reserved]
  | waitfor r n m i hrow =>
    cases hws
    obtain ⟨rfl, -⟩ | ⟨rfl, -⟩ := waitforRow_eq_some hrow <;> simp [Reserved, regIndex]

/-- The decoder refuses a reserved encoding: what it reads has a form (R89). -/
theorem decode_of_reserved {h : Word} {rest : List Word} (hr : Reserved h rest) :
    ∃ e, decode (h :: rest) = some (.error e) := by
  cases hd : decodeFrom h rest with
  | error e => exact ⟨e, congrArg some hd⟩
  | ok p =>
    obtain ⟨ws, e, hws⟩ := encodes_of_decodeFrom (i := p.1) (rest' := p.2) hd
    exact absurd hr (e.not_reserved hws)

/-- The words left after a refused encoding, by its class (R96, log entry 8). -/
theorem skipRefused_cons (h : Word) (rest : List Word) :
    skipRefused (h :: rest) =
      if (headerClass h).toNat = 1 ∨ (headerClass h).toNat = 9 then rest.drop 1 else rest := by
  rw [skipRefused, headerLength]
  split
  case h_1 h1 => rw [h1]; rfl
  case h_2 h9 => rw [h9]; rfl
  case h_3 h1 h9 => exact (if_neg (not_or.mpr ⟨h1, h9⟩)).symm

end Sys2Proof

namespace Sys2Proof.Machine

/-- A head of the program that the decoder refuses is refused (R89). -/
theorem fetch_of_decode_error (s : State) (e : Reject)
    (hd : decode s.program = some (.error e)) : fetch s = .refused := by
  unfold fetch
  rw [hd]

/-- With no word left the program has ended (R80). -/
theorem fetch_of_nil (s : State) (hp : s.program = []) : fetch s = .ended := by
  unfold fetch
  rw [hp]
  rfl

/-- Outside a poll a refused head is passed with the refusal recorded (R89, R265). -/
theorem hostStep_of_refused (s : State) (hp : s.poll = none) (hf : fetch s = .refused) :
    hostStep s = .next (refuseEncoding s) := by
  unfold hostStep
  rw [hp, hf]

/-- Outside a poll the run has ended with the program (R264). -/
theorem hostStep_of_ended (s : State) (hp : s.poll = none) (hf : fetch s = .ended) :
    hostStep s = .fault .runEnded := by
  unfold hostStep
  rw [hp, hf]

/-- With no word left and no poll under way the host reads no status next (R80). -/
theorem nextIsStatusRead_of_ended (s : State) (hp : s.poll = none) (hf : fetch s = .ended) :
    nextIsStatusRead s = false := by
  unfold nextIsStatusRead nextStatusReg
  rw [hp, hf]

/-- A `waitfor` on the other variant's status register sets the refusal (R88, R89). -/
theorem startPoll_of_other {r : Reg} (n : Var) (m : Word) {s : State}
    (h : r.variant ≠ s.cfg.variant) : startPoll r n m s = s.refuse .reservedEncoding :=
  if_neg h

/-- Settles O4: the decoder refuses the head, so the host's step is the refusal, past the words
the class gives. -/
theorem reservedEncodingIsRefused : Obligations.ReservedEncodingIsRefused := by
  unfold Obligations.ReservedEncodingIsRefused
  intro s h rest c r dst i hpoll hprog hm hres
  obtain ⟨e, hd⟩ := decode_of_reserved (h := h) (rest := rest) hres
  have hf : fetch (s.turnTaken (nextIsStatusRead s)) = .refused :=
    fetch_of_decode_error _ e (by rw [turnTaken_program, hprog, hd])
  rw [step_of_not_controllerMoves s hm,
    hostStep_of_refused _ (by rw [turnTaken_poll, hpoll]) hf, refuseEncoding, turnTaken_program,
    hprog, skipRefused_cons, turnTaken_eq]
  rfl

/-- Settles O5: neither register is one of the other variant's. -/
theorem waitOnOtherVariantsStatusIsRefused : Obligations.WaitOnOtherVariantsStatusIsRefused := by
  unfold Obligations.WaitOnOtherVariantsStatusIsRefused
  refine fun s n m => ⟨fun hv => ?_, fun hv => ?_⟩
  · have hr : Reg.irqSt.variant ≠ s.cfg.variant := by rw [hv]; decide
    exact congrArg Host.Outcome.next (startPoll_of_other n m hr)
  · have hr : Reg.intStatus.variant ≠ s.cfg.variant := by rw [hv]; decide
    exact congrArg Host.Outcome.next (startPoll_of_other n m hr)

/-- Settles O9: the host reads no status next, so the step is the host's, and it finds no word. -/
theorem runEndsWithTheProgram : Obligations.RunEndsWithTheProgram := by
  unfold Obligations.RunEndsWithTheProgram
  intro s hprog hpoll hm
  have hread := nextIsStatusRead_of_ended s hpoll (fetch_of_nil s hprog)
  rw [step_of_not_controllerMoves s (by rw [hread]; exact hm)]
  exact hostStep_of_ended _ (by rw [turnTaken_poll, hpoll])
    (fetch_of_nil _ (by rw [turnTaken_program, hprog]))

end Sys2Proof.Machine

/-! ### Stored fields bit by bit

What a masked write of every bit leaves of a field, and what a read shows of a field and of a single
bit. -/

namespace Sys2Proof

/-- The bits of a word cut to its `w` low ones. -/
theorem getLsbD_and_ones (d : Word) (w i : Nat) :
    (d &&& ones w).getLsbD i = (decide (i < w) && d.getLsbD i) := by
  rw [BitVec.getLsbD_and, getLsbD_ones]
  by_cases hi : i < 32
  · rw [decide_eq_true hi, Bool.true_and, Bool.and_comm]
  · rw [d.getLsbD_of_ge i (by omega), Bool.false_and, Bool.and_false]

/-- A change of width keeps the bits below the new one. -/
theorem getLsbD_setWidth_of_lt {m n i : Nat} (a : BitVec m) (hi : i < n) :
    (a.setWidth n).getLsbD i = a.getLsbD i := by
  rw [BitVec.getLsbD_setWidth, decide_eq_true hi, Bool.true_and]

/-- The whole low half is the data of a 16-bit field (R92). -/
theorem maskedData_half (d : Word) : maskedData 0 16 d = d.setWidth 16 := by
  apply BitVec.eq_of_getLsbD_eq
  intro i hi
  rw [getLsbD_maskedData, Nat.zero_add, getLsbD_setWidth_of_lt d hi]
  simp [hi]

/-- A write of every bit of a field replaces a value that fits it (R102). -/
theorem maskedBits_full {lo w : Nat} {old : Half} {d : Word}
    (hall : ∀ i, i < w → d.getLsbD (16 + lo + i) = true) (hold : old.toNat < 2 ^ w) :
    maskedBits lo w old d = maskedData lo w d := by
  apply BitVec.eq_of_getLsbD_eq
  intro i hi
  rw [getLsbD_maskedData]
  by_cases hw : i < w
  · rw [getLsbD_maskedBits lo w old d i hi hw, if_pos (hall i hw)]
    simp [hi, hw]
  · rw [getLsbD_maskedBits_above lo w old d i (by omega),
      (toNat_lt_iff_getLsbD old w).1 hold i (by omega)]
    simp [hw]

/-- A write of every bit of a field stores them, whatever the field held or if it held nothing
(R102). -/
theorem maskedField_full {lo w : Nat} {old : Option Half} {d : Word} (x : Word) (hw : 1 ≤ w)
    (hall : ∀ i, i < w → d.getLsbD (16 + lo + i) = true)
    (hold : ∀ a, old = some a → a.toNat < 2 ^ w) :
    maskedField lo w old d x = some (maskedData lo w d) := by
  cases old with
  | some a => rw [maskedField_some, maskedBits_full hall (hold a rfl)]
  | none =>
    have hen : maskedEnable lo w d ≠ 0 := fun h0 => by
      have hclear := (maskedEnable_zero lo w d).1 h0 0 (by omega) hw
      rw [hall 0 hw] at hclear
      cases hclear
    rw [maskedField, if_neg hen]
    exact congrArg some (maskedBits_full hall (and_onesHalf_fits _ w))

/-- What a read with the draw `x` shows of the stored field `[lo+w-1:lo]`: its value there and the
draw elsewhere, and the draw alone where the field holds none (R103). -/
def fieldShown (lo w : Nat) (field : Option Word) (x : Word) : Word :=
  match field with
  | some a => assemble (ones w <<< lo) (a <<< lo) x
  | none => x

/-- A read shows a held field at its bits (R103). -/
theorem getLsbD_fieldShown_inside (lo : Nat) {w i : Nat} (a x : Word) (hw : i < w)
    (hi : lo + i < 32) : (fieldShown lo w (some a) x).getLsbD (lo + i) = a.getLsbD i := by
  have hmask : (ones w <<< lo).getLsbD (lo + i) = true := by
    have hi' : i < 32 := by omega
    rw [BitVec.getLsbD_shiftLeft, getLsbD_ones]
    simp [hi, hw, hi']
  rw [fieldShown, getLsbD_assemble, if_pos hmask, BitVec.getLsbD_shiftLeft]
  simp [hi]

/-- A read shows a held field that stands from bit 0 (R103). -/
theorem getLsbD_fieldShown_low {w i : Nat} (a x : Word) (hw : i < w) :
    (fieldShown 0 w (some a) x).getLsbD i = a.getLsbD i := by
  by_cases hi : i < 32
  · simpa using getLsbD_fieldShown_inside 0 a x hw (by omega)
  · rw [BitVec.getLsbD_of_ge _ i (by omega), BitVec.getLsbD_of_ge a i (by omega)]

/-- Outside the field, and everywhere where it holds none, a read shows its draw (R103). -/
theorem getLsbD_fieldShown_outside {lo w j : Nat} {field : Option Word} (x : Word)
    (h : j < lo ∨ lo + w ≤ j ∨ field = none) :
    (fieldShown lo w field x).getLsbD j = x.getLsbD j := by
  cases field with
  | none => rfl
  | some a =>
    have hout : j < lo ∨ lo + w ≤ j := by simpa using h
    have hmask : ¬(ones w <<< lo).getLsbD j = true := by
      simp only [BitVec.getLsbD_shiftLeft, getLsbD_ones, Bool.and_eq_true, Bool.not_eq_true',
        decide_eq_true_eq, decide_eq_false_iff_not]
      omega
    rw [fieldShown, getLsbD_assemble, if_neg hmask]

/-- A read shows a stored bit at its position (R103). -/
theorem getLsbD_assemble_bit_same (p : Bool) {n : Nat} (x : Word) (hn : n < 32) :
    (assemble (bit n) (bitIf p n) x).getLsbD n = p := by
  rw [getLsbD_assemble, getLsbD_bit, getLsbD_bitIf]
  simp [hn]

/-- At every other position such a read shows its draw (R103). -/
theorem getLsbD_assemble_bit_other (p : Bool) {n j : Nat} (x : Word) (hj : j ≠ n) :
    (assemble (bit n) (bitIf p n) x).getLsbD j = x.getLsbD j := by
  rw [getLsbD_assemble, getLsbD_bit]
  simp [hj]

/-- A value with one bit masked out has 0 there. -/
theorem getLsbD_and_not_bit_same (x : Word) {n : Nat} (hn : n < 32) :
    (x &&& ~~~bit n).getLsbD n = false := by
  simp [getLsbD_bit, hn]

/-- A value with one bit masked out has its own bits elsewhere. -/
theorem getLsbD_and_not_bit_other (x : Word) {n j : Nat} (hj : j ≠ n) :
    (x &&& ~~~bit n).getLsbD j = x.getLsbD j := by
  by_cases h : j < 32
  · rw [BitVec.getLsbD_and, BitVec.getLsbD_not, getLsbD_bit]
    simp [h, hj]
  · rw [BitVec.getLsbD_of_ge _ j (by omega), BitVec.getLsbD_of_ge x j (by omega)]

/-- The data of the address word is the address cut to the field's width (R93, R122). -/
theorem maskedData_addrWord (c : Cfg) (o : Nat) :
    maskedData 0 c.userAddrW (BitVec.ofNat 32 o ||| c.addrEnMask) =
      BitVec.ofNat 16 (o % 2 ^ c.userAddrW) := by
  apply BitVec.eq_of_getLsbD_eq
  intro i hi
  rw [getLsbD_maskedData, Nat.zero_add, BitVec.getLsbD_or, Cfg.addrEnMask,
    BitVec.getLsbD_shiftLeft, BitVec.getLsbD_ofNat, BitVec.getLsbD_ofNat, Nat.testBit_mod_two_pow]
  have h32 : i < 32 := by omega
  simp [hi, h32]

/-- Every enable bit of the address field is 1 in the address word (R93, R122). -/
theorem addrWord_enables (c : Cfg) (o : Nat) (hw : c.userAddrW ≤ 16) (i : Nat)
    (hi : i < c.userAddrW) :
    (BitVec.ofNat 32 o ||| c.addrEnMask).getLsbD (16 + 0 + i) = true := by
  have hpos : 16 + i < 32 := by omega
  have hlow : i < 32 := by omega
  rw [BitVec.getLsbD_or, Cfg.addrEnMask, BitVec.getLsbD_shiftLeft, getLsbD_ones]
  simp [hi, hpos, hlow]

namespace Machine

/-- Where no known bit stands a read of IRQ_ST shows its draw (R105). -/
theorem IrqSt.readValue_unknown {c : Cfg} {s : IrqSt} {i : Nat} (x : Word)
    (h : ∀ b, i = c.irqPos b → s.get b = none) :
    (s.readValue c x).getLsbD i = x.getLsbD i := by
  have hk : ¬(s.known c).getLsbD i = true := fun hk => by
    obtain ⟨b, hi, hb⟩ := (s.getLsbD_known c i).1 hk
    rw [h b hi] at hb
    cases hb
  rw [IrqSt.readValue, getLsbD_assemble, if_neg hk]

/-- Where no known bit stands a read of INT_STATUS shows its draw (R120). -/
theorem IntStatus.readValue_unknown {c : Cfg} {s : IntStatus} {i : Nat} (x : Word)
    (h : ∀ b, i = c.intPos b → s.get b = none) :
    (s.readValue c x).getLsbD i = x.getLsbD i := by
  have hk : ¬(s.known c).getLsbD i = true := fun hk => by
    obtain ⟨b, hi, hb⟩ := (s.getLsbD_known c i).1 hk
    rw [h b hi] at hb
    cases hb
  rw [IntStatus.readValue, getLsbD_assemble, if_neg hk]

end Machine

end Sys2Proof

/-! ### The access guard and the register interface

`access_open` says what an access does with the guard passed; these say what each access class
leaves on either side of the guard, and what a write answers on either side of its busy test. -/

namespace Sys2Proof.Machine

/-- A clock off, the reset asserted or the other variant's register fails the guard (R100). -/
theorem guardOk_eq_false {r : Reg} {s : State}
    (h : s.gate.func = false ∨ s.gate.bus = false ∨ s.gate.phy = false ∨ s.gate.rst = true ∨
      r.variant ≠ s.cfg.variant) : guardOk r s = false := by
  rcases h with h | h | h | h | h <;> simp [guardOk, Gate.isOpen, Gate.clocksOn, h]

/-- With the guard failed an access is the guard's faults (R100). -/
theorem access_failed {r : Reg} {s : State} (h : guardOk r s = false) (f : State → State) :
    access r f s = guardFaults r s :=
  if_neg (Bool.eq_false_iff.mp h)

/-- Every register write is an access to its register (R100, R129). -/
theorem regWrite_eq_access (r : Reg) (d : Word) : ∃ f, ∀ s, regWrite r d s = access r f s := by
  cases r <;> exact ⟨_, fun _ => rfl⟩

/-- With the guard failed a register write is the guard's faults (R100). -/
theorem regWrite_failed {r : Reg} {s : State} (h : guardOk r s = false) (d : Word) :
    regWrite r d s = guardFaults r s := by
  obtain ⟨f, hf⟩ := regWrite_eq_access r d
  rw [hf, access_failed h]

/-- With the guard failed a 32-bit read is the guard's faults, and its variable holds no value
(R100). -/
theorem readInto_failed {r : Reg} {s : State} (h : guardOk r s = false) (n : Var) :
    readInto r n s = (guardFaults r s).setVar n none := by
  rw [readInto, readEffect, access_failed h, readResult, h]
  rfl

/-- With the guard failed an 8-bit read of USER_Q is the guard's faults, and its variable holds no
value (R100). -/
theorem read8Into_failed {s : State} (h : guardOk .userQ s = false) (n : Var) :
    read8Into n s = (guardFaults .userQ s).setVar n none := by
  rw [read8Into, readEffect, access_failed h, readResult8, h]
  rfl

/-- With the guard failed an 8-bit read of any other register is the guard's faults, and its
variable holds no value (R100). -/
theorem read8Other_failed {r : Reg} {s : State} (h : guardOk r s = false) (n : Var) :
    read8Other r n s = (guardFaults r s).setVar n none := by
  rw [read8Other, access_failed h]

/-- A clock is off exactly where not all three are on (R46). -/
theorem clocksOn_eq_false_iff (g : Gate) :
    g.clocksOn = false ↔ ¬(g.func = true ∧ g.bus = true ∧ g.phy = true) := by
  rw [← Bool.not_eq_true, Gate.clocksOn, Bool.and_eq_true, Bool.and_eq_true, and_assoc]

/-- Settles O18: every access class is the guard's faults, and `guardFaults_has` says which. -/
theorem failedGuardRecordsEveryFault : Obligations.FailedGuardRecordsEveryFault := by
  unfold Obligations.FailedGuardRecordsEveryFault
  intro s r d n h
  have hg := guardOk_eq_false h
  refine ⟨(guardFaults r s).faults, ?_, ?_, ?_, fun k => ?_⟩
  · rw [exec_w32Row, regWrite_failed hg]
    rfl
  · rw [exec_r32Row, readInto_failed hg]
    rfl
  · rw [exec_r8Row]
    split
    case isTrue hr =>
      subst hr
      rw [read8Into_failed hg]
      rfl
    case isFalse =>
      rw [read8Other_failed hg]
      rfl
  · rw [guardFaults_has, clocksOn_eq_false_iff]

/-- A write that finds its field in use faults `BusyWrite` (R106, R113, R122). -/
theorem access_busy (r : Reg) {s : State} (ho : s.gate.isOpen = true)
    (hv : r.variant = s.cfg.variant) (store : State → State) {busy : State → Bool}
    (hb : busy s = true) :
    access r (fun s => if busy s then s.raise .busyWrite else store s) s = s.raise .busyWrite := by
  rw [access_open r _ s ho hv, if_pos hb]

/-- A write that finds its field free stores (R106, R113, R122). -/
theorem access_free (r : Reg) {s : State} (ho : s.gate.isOpen = true)
    (hv : r.variant = s.cfg.variant) (store : State → State) {busy : State → Bool}
    (hb : busy s = false) :
    access r (fun s => if busy s then s.raise .busyWrite else store s) s = store s := by
  rw [access_open r _ s ho hv, if_neg (Bool.eq_false_iff.mp hb)]

/-- Settles O20: the effect is the acknowledge of the register. -/
theorem statusWriteClearsTheBitsWrittenOne : Obligations.StatusWriteClearsTheBitsWrittenOne := by
  unfold Obligations.StatusWriteClearsTheBitsWrittenOne
  refine ⟨fun s d ho hv => ?_, fun s d ho hv => ?_⟩
  · exact ⟨IrqSt.acknowledge s.cfg s.regsB.irqSt d,
      congrArg Host.Outcome.next (access_open .irqSt _ s ho hv.symm),
      IrqSt.get_acknowledge s.cfg s.regsB.irqSt d⟩
  · exact ⟨IntStatus.acknowledge s.cfg s.regsA.intStatus d,
      congrArg Host.Outcome.next (access_open .intStatus _ s ho hv.symm),
      IntStatus.get_acknowledge s.cfg s.regsA.intStatus d⟩

/-- Settles O22: the effect with the guard passed is the fault. -/
theorem readOnlyAndWidthFaults : Obligations.ReadOnlyAndWidthFaults := by
  unfold Obligations.ReadOnlyAndWidthFaults
  refine ⟨fun s d ho hv => ?_, fun s d ho hv => ?_, fun s r n ho hv _ => ?_⟩
  · exact congrArg Host.Outcome.next (access_open .rdData _ s ho hv.symm)
  · exact congrArg Host.Outcome.next (access_open .userQ _ s ho hv.symm)
  · exact congrArg (fun t => Host.Outcome.next (t.setVar n none)) (access_open r _ s ho hv)

/-- Settles O21: both writes test for a pending read-access alone. -/
theorem readParametersAreStoredUnlessReading :
    Obligations.ReadParametersAreStoredUnlessReading := by
  unfold Obligations.ReadParametersAreStoredUnlessReading
  refine fun s d ho hv => ⟨fun hp => ?_, fun hp => ?_⟩
  · have hfree := (readPending_false s).2 hp
    exact ⟨⟨d &&& ones s.cfg.accessAddrW,
        congrArg Host.Outcome.next (access_free .accessAddr ho hv.symm _ hfree),
        getLsbD_and_ones d s.cfg.accessAddrW⟩,
      congrArg Host.Outcome.next (access_free .reprRdTransNum ho hv.symm _ hfree)⟩
  · have hbusy := (readPending_iff s).2 hp
    exact ⟨congrArg Host.Outcome.next (access_busy .accessAddr ho hv.symm _ hbusy),
      congrArg Host.Outcome.next (access_busy .reprRdTransNum ho hv.symm _ hbusy)⟩

/-- Settles O23: both writes test for a pending SBPI command alone. -/
theorem commandWordsAreStoredUnlessSbpiPending :
    Obligations.CommandWordsAreStoredUnlessSbpiPending := by
  unfold Obligations.CommandWordsAreStoredUnlessSbpiPending
  refine fun s d ho hv => ⟨fun hp => ?_, fun hp => ?_⟩
  · have hfree := (sbpiPending_false s).2 hp
    exact ⟨congrArg Host.Outcome.next (access_free .sbpiCmd0 ho hv.symm _ hfree),
      congrArg Host.Outcome.next (access_free .sbpiCmd1 ho hv.symm _ hfree)⟩
  · have hbusy := (sbpiPending_iff s).2 hp
    exact ⟨congrArg Host.Outcome.next (access_busy .sbpiCmd0 ho hv.symm _ hbusy),
      congrArg Host.Outcome.next (access_busy .sbpiCmd1 ho hv.symm _ hbusy)⟩

end Sys2Proof.Machine

/-! ### Masked writes of the count and of the byte address -/

namespace Sys2Proof.Machine

/-- With no SBPI command pending a write of SBPI_CMD_VALID_PRE is the masked update (R113). -/
theorem exec_w32SbpiCmdValidPre_free {s : State} (d : Word) (ho : s.gate.isOpen = true)
    (hv : s.cfg.variant = .A) (hp : ∀ a c0 c1, s.ctlA.pend ≠ some (.sbpi a c0 c1)) :
    exec (.w32SbpiCmdValidPre d) s = .next (updateCmdValid d s) :=
  congrArg Host.Outcome.next
    (access_free .sbpiCmdValidPre ho hv.symm _ ((sbpiPending_false s).2 hp))

/-- With no user read pending a write of USER_ADDR is the masked update (R122). -/
theorem exec_w32UserAddr_free {s : State} (d : Word) (ho : s.gate.isOpen = true)
    (hv : s.cfg.variant = .A) (hp : ∀ a, s.ctlA.pend ≠ some (.user a)) :
    exec (.w32UserAddr d) s = .next (updateUaddr d s) :=
  congrArg Host.Outcome.next (access_free .userAddr ho hv.symm _ ((userPending_false s).2 hp))

/-- The masked update of a known count draws nothing (R102, R113). -/
theorem updateCmdValid_known {s : State} {old : Half} (d : Word)
    (hold : s.regsA.cmdValid = some old) :
    updateCmdValid d s =
      { s with regsA := { s.regsA with cmdValid := some (maskedBits 0 16 old d) } } := by
  rw [updateCmdValid, hold, maskedDraws_some, maskedField_some]
  rfl

/-- The masked update of an unknown count that writes all of it stores the low half (R102, R113). -/
theorem updateCmdValid_full {s : State} {d : Word} (hnone : s.regsA.cmdValid = none)
    (hall : ∀ i, i < 16 → d.getLsbD (16 + 0 + i) = true) :
    updateCmdValid d s = { s with regsA := { s.regsA with cmdValid := some (d.setWidth 16) } } := by
  rw [updateCmdValid, maskedDraws_full 0 16 _ d hall,
    maskedField_full s.fresh (by decide) hall (by simp [hnone]), maskedData_half]
  rfl

/-- The masked update of a known byte address draws nothing (R102, R122). -/
theorem updateUaddr_known {s : State} {old : Half} (d : Word) (hold : s.regsA.uaddr = some old) :
    updateUaddr d s =
      { s with regsA := { s.regsA with uaddr := some (maskedBits 0 s.cfg.userAddrW old d) } } := by
  rw [updateUaddr, hold, maskedDraws_some, maskedField_some]
  rfl

/-- The masked update that writes every bit of the byte address stores them, over a value that fits
the field and over none (R102, R122). -/
theorem updateUaddr_full {s : State} {d : Word} (hw : 1 ≤ s.cfg.userAddrW)
    (hall : ∀ i, i < s.cfg.userAddrW → d.getLsbD (16 + 0 + i) = true)
    (hold : ∀ a, s.regsA.uaddr = some a → a.toNat < 2 ^ s.cfg.userAddrW) :
    updateUaddr d s =
      { s with regsA := { s.regsA with uaddr := some (maskedData 0 s.cfg.userAddrW d) } } := by
  rw [updateUaddr, maskedDraws_full 0 _ _ d hall, maskedField_full s.fresh hw hall hold]
  rfl

/-- The byte address is 1 to 16 bits wide (R7). -/
theorem userAddrW_of_wf {c : Cfg} (h : c.wf = true) : 1 ≤ c.userAddrW ∧ c.userAddrW ≤ 16 := by
  simp only [Cfg.wf, Cfg.widthsFit, Bool.and_eq_true, decide_eq_true_eq] at h
  omega

/-- Settles O24: with the field free, a known field takes `maskedBits` and an unknown one written in
full takes its data. -/
theorem maskedWritesTakeTheEnabledBits : Obligations.MaskedWritesTakeTheEnabledBits := by
  unfold Obligations.MaskedWritesTakeTheEnabledBits
  intro s d hwf ho hv
  obtain ⟨hw1, hw16⟩ := userAddrW_of_wf hwf
  refine ⟨fun hp => ?_, fun hp => ?_, fun hp => ?_, fun hp => ?_⟩
  · rw [exec_w32SbpiCmdValidPre_free d ho hv hp]
    refine ⟨fun old hold => ⟨_, congrArg Host.Outcome.next (updateCmdValid_known d hold),
      fun i hi => ?_⟩,
      fun hnone hall => congrArg Host.Outcome.next (updateCmdValid_full hnone hall)⟩
    simpa using getLsbD_maskedBits 0 16 old d i hi hi
  · exact congrArg Host.Outcome.next
      (access_busy .sbpiCmdValidPre ho hv.symm _ ((sbpiPending_iff s).2 hp))
  · rw [exec_w32UserAddr_free d ho hv hp]
    refine ⟨fun old hold => ⟨_, congrArg Host.Outcome.next (updateUaddr_known d hold),
      fun i hi => ?_, getLsbD_maskedBits_above 0 _ old d⟩,
      fun hnone hall => ⟨_, congrArg Host.Outcome.next
        (updateUaddr_full hw1 hall (by simp [hnone])), fun i => ?_⟩⟩
    · simpa using getLsbD_maskedBits 0 s.cfg.userAddrW old d i (by omega) hi
    · have hlow : i < s.cfg.userAddrW → i < 16 := fun hi => by omega
      rw [getLsbD_maskedData, Nat.zero_add, ← Bool.decide_and]
      simp only [and_iff_right_of_imp hlow]
  · exact congrArg Host.Outcome.next (access_busy .userAddr ho hv.symm _ ((userPending_iff s).2 hp))

/-- Settles O26: the address word enables every bit of the field, and its data is `o` cut to the
field's width. -/
theorem addressWriteWraps : Obligations.AddressWriteWraps := by
  unfold Obligations.AddressWriteWraps
  intro s o hwf ho hv hfit hp
  obtain ⟨hw1, hw16⟩ := userAddrW_of_wf hwf
  obtain ⟨-, -, huaddr⟩ := hfit
  rw [exec_w32UserAddr_free _ ho hv hp,
    updateUaddr_full hw1 (addrWord_enables s.cfg o hw16) huaddr, maskedData_addrWord]

end Sys2Proof.Machine

/-! ### Reads with the guard passed -/

namespace Sys2Proof.Machine

/-- With the guard passed a 32-bit read puts the register's value into its variable, uses up one
draw, and counts as a status read where it is one (R103, R135, log entries 4 and 6). -/
theorem readInto_open {r : Reg} {s : State} (n : Var) (ho : s.gate.isOpen = true)
    (hv : r.variant = s.cfg.variant) :
    readInto r n s = (s.spend.countStatusRead r).setVar n (some (regValue r s s.fresh)) := by
  rw [readInto, readEffect, access_open r _ s ho hv, readResult,
    if_pos ((guardOk_iff r s).2 ⟨ho, hv⟩)]

/-- A read of a register that is no status register counts none (R135). -/
theorem countStatusRead_of_not_status {r : Reg} (hr : r.isStatus = false) (s : State) :
    s.countStatusRead r = s := by
  rw [State.countStatusRead, hr]
  rfl

/-- With the guard passed a 32-bit read of a register that is no status register moves its variable
and the supply of draws alone (R66, R103). -/
theorem exec_r32Row_open (r : Reg) {s : State} (n : Var) (hr : r.isStatus = false)
    (ho : s.gate.isOpen = true) (hv : r.variant = s.cfg.variant) :
    exec (r32Row r n) s =
      .next { s with v := s.v.set n (some (regValue r s s.fresh)), env := s.env.spend } := by
  rw [exec_r32Row, readInto_open n ho hv, countStatusRead_of_not_status hr]
  rfl

/-- With the guard passed an 8-bit read of USER_Q gives the byte zero-extended and moves its
variable and the supply of draws alone (R66, R125). -/
theorem exec_r8UserQ_open {s : State} (n : Var) (ho : s.gate.isOpen = true)
    (hv : Reg.userQ.variant = s.cfg.variant) :
    exec (.r8UserQ n) s =
      .next { s with
        v := s.v.set n (some ((userQByte s s.fresh).setWidth 32)), env := s.env.spend } := by
  have heffect : readEffect .userQ s = s.spend := by
    rw [readEffect, access_open .userQ _ s ho hv, countStatusRead_of_not_status rfl]
  have hresult : readResult8 s = some ((userQByte s s.fresh).setWidth 32) :=
    if_pos ((guardOk_iff .userQ s).2 ⟨ho, hv⟩)
  rw [exec, execR8UserQ, read8Into, heffect, hresult]
  rfl

/-- With the guard passed a read of a status register moves its variable, the supply of draws, and
the count of status reads where an operation is pending (R103, R135). -/
theorem exec_r32Row_status_open (r : Reg) {s : State} (n : Var) (hr : r.isStatus = true)
    (ho : s.gate.isOpen = true) (hv : r.variant = s.cfg.variant) :
    exec (r32Row r n) s =
      .next { s with
        v := s.v.set n (some (regValue r s s.fresh)), env := s.env.spend,
        statusReads := if s.pending = true then s.statusReads + 1 else s.statusReads } := by
  have hp : s.spend.pending = s.pending := rfl
  rw [exec_r32Row, readInto_open n ho hv, State.countStatusRead, hr, Bool.true_and, hp]
  split <;> rfl

/-- What is pending on variant B is what its controller holds (R30). -/
theorem pending_eq_of_B {s : State} (hv : s.cfg.variant = .B) : s.pending = s.ctlB.pend.isSome := by
  rw [State.pending, hv]

/-- What is pending on variant A is what its controller holds (R41). -/
theorem pending_eq_of_A {s : State} (hv : s.cfg.variant = .A) : s.pending = s.ctlA.pend.isSome := by
  rw [State.pending, hv]

/-- A branch on a held value is the branch on its absence, turned round. -/
theorem ite_isSome_eq_ite_none {α β : Type} [DecidableEq α] (o : Option α) (x y : β) :
    (if o.isSome = true then x else y) = if o = none then y else x := by
  cases o <;> rfl

/-- The bits of IRQ_ST and of INT_STATUS stand at distinct positions (R7). -/
theorem statusBitsDistinct_of_wf {c : Cfg} (h : c.wf = true) :
    c.irqBitsDistinct = true ∧ c.intBitsDistinct = true := by
  simp only [Cfg.wf, Bool.and_eq_true] at h
  obtain ⟨⟨⟨⟨⟨⟨-, hirq⟩, hint⟩, -⟩, -⟩, -⟩, -⟩ := h
  exact ⟨hirq, hint⟩

/-- Settles O32: the value is the status register's `readValue` with the next draw. -/
theorem statusReadShowsTheKnownBits : Obligations.StatusReadShowsTheKnownBits := by
  unfold Obligations.StatusReadShowsTheKnownBits
  refine ⟨fun s n hwf ho hv => ?_, fun s n hwf ho hv => ?_⟩
  · refine ⟨IrqSt.readValue s.cfg s.regsB.irqSt s.fresh, ?_,
      IrqSt.readValue_known s.cfg s.regsB.irqSt s.fresh (statusBitsDistinct_of_wf hwf).1,
      fun _ => IrqSt.readValue_unknown s.fresh⟩
    rw [← ite_isSome_eq_ite_none, ← pending_eq_of_B hv]
    exact exec_r32Row_status_open .irqSt n rfl ho hv.symm
  · refine ⟨IntStatus.readValue s.cfg s.regsA.intStatus s.fresh, ?_,
      IntStatus.readValue_known s.cfg s.regsA.intStatus s.fresh (statusBitsDistinct_of_wf hwf).2,
      fun _ => IntStatus.readValue_unknown s.fresh⟩
    rw [← ite_isSome_eq_ite_none, ← pending_eq_of_A hv]
    exact exec_r32Row_status_open .intStatus n rfl ho hv.symm

/-- A read of ACCESS_ADDR shows its field from bit 0 (R107). -/
theorem accessAddrValue_eq (s : State) (x : Word) :
    accessAddrValue s x = fieldShown 0 s.cfg.accessAddrW s.regsB.accessAddr x := by
  unfold accessAddrValue
  cases s.regsB.accessAddr with
  | none => rfl
  | some a => simp [fieldShown]

/-- A read of SBPI_CMD_VALID_PRE shows its count in the low half (R114). -/
theorem sbpiCmdValidPreValue_eq (s : State) (x : Word) :
    sbpiCmdValidPreValue s x = fieldShown 0 16 (s.regsA.cmdValid.map (·.setWidth 32)) x := by
  unfold sbpiCmdValidPreValue
  cases s.regsA.cmdValid with
  | none => rfl
  | some a => simp [fieldShown]

/-- A read of USER_ADDR shows its field from bit 0 (R123). -/
theorem userAddrValue_eq (s : State) (x : Word) :
    userAddrValue s x = fieldShown 0 s.cfg.userAddrW (s.regsA.uaddr.map (·.setWidth 32)) x := by
  unfold userAddrValue
  cases s.regsA.uaddr with
  | none => rfl
  | some a => simp [fieldShown]

/-- A read of SBPI_CTRL shows the DAP field at its place, the enable pulse masked out (R112). -/
theorem sbpiCtrlValue_eq (s : State) (x : Word) :
    sbpiCtrlValue s x =
      fieldShown s.cfg.dapLo s.cfg.dapW (s.regsA.dap.map (·.setWidth 32)) x &&&
        ~~~bit s.cfg.sbpiEnBit := by
  unfold sbpiCtrlValue
  cases s.regsA.dap <;> rfl

/-- A 32-bit read of USER_Q shows the byte from bit 0 (R126). -/
theorem userQValue_eq (s : State) (x : Word) :
    userQValue s x = fieldShown 0 8 (some ((userQByte s x).setWidth 32)) x := by
  rw [userQValue, fieldShown, BitVec.shiftLeft_zero, BitVec.shiftLeft_zero]

/-- Settles O33: each read is of the stored field. -/
theorem readParametersReadBack : Obligations.ReadParametersReadBack := by
  unfold Obligations.ReadParametersReadBack
  intro s n ho hv
  refine ⟨⟨accessAddrValue s s.fresh, exec_r32Row_open .accessAddr n rfl ho hv.symm,
      fun a ha i hi => ?_, fun i hi => ?_⟩,
    exec_r32Row_open .reprRdTransNum n rfl ho hv.symm⟩
  · rw [accessAddrValue_eq, ha, getLsbD_fieldShown_low a _ hi]
  · rw [accessAddrValue_eq]
    exact getLsbD_fieldShown_outside s.fresh (.inr (by simpa using hi))

/-- With no read-access pending a read of RD_DATA shows the word held, else the draw (R110). -/
theorem rdDataValue_of_idle {s : State} (h : s.readPending = false) (x : Word) :
    rdDataValue s x = s.regsB.rdData.getD x :=
  if_neg (Bool.eq_false_iff.mp h)

/-- While a read-access is pending a read of RD_DATA shows the draw (R110). -/
theorem rdDataValue_of_pending {s : State} (h : s.readPending = true) (x : Word) :
    rdDataValue s x = x :=
  if_pos h

/-- Settles O34: by whether a read-access is pending, and by whether a word is held. -/
theorem rdDataReadsTheLastWord : Obligations.RdDataReadsTheLastWord := by
  unfold Obligations.RdDataReadsTheLastWord
  intro s n ho hv gives
  have hgives : gives (rdDataValue s s.fresh) := exec_r32Row_open .rdData n rfl ho hv.symm
  refine ⟨fun d hd hp => ?_, fun hdraw => ?_⟩
  · rwa [rdDataValue_of_idle ((readPending_false s).2 hp), hd, Option.getD_some] at hgives
  · rcases hdraw with hp | hnone
    · rwa [rdDataValue_of_pending ((readPending_iff s).2 hp)] at hgives
    · rwa [rdDataValue, hnone, Option.getD_none, ite_self] at hgives

/-- Settles O35: each read is of the stored field. -/
theorem variantAFieldsReadBack : Obligations.VariantAFieldsReadBack := by
  unfold Obligations.VariantAFieldsReadBack
  intro s n ho hv
  refine ⟨⟨sbpiCmdValidPreValue s s.fresh,
      exec_r32Row_open .sbpiCmdValidPre n rfl ho hv.symm,
      fun a ha i hi => ?_, fun i hi => ?_⟩,
    exec_r32Row_open .sbpiCmd0 n rfl ho hv.symm,
    exec_r32Row_open .sbpiCmd1 n rfl ho hv.symm,
    userAddrValue s s.fresh, exec_r32Row_open .userAddr n rfl ho hv.symm,
      fun a ha i hi hi16 => ?_, fun i hi => ?_⟩
  · rw [sbpiCmdValidPreValue_eq, ha, Option.map_some, getLsbD_fieldShown_low _ _ hi,
      getLsbD_setWidth_of_lt a (by omega)]
  · rw [sbpiCmdValidPreValue_eq]
    exact getLsbD_fieldShown_outside s.fresh (.inr (by simpa using hi))
  · rw [userAddrValue_eq, ha, Option.map_some, getLsbD_fieldShown_low _ _ hi,
      getLsbD_setWidth_of_lt a (by omega)]
  · rw [userAddrValue_eq]
    exact getLsbD_fieldShown_outside s.fresh (.inr (by simpa using hi))

/-- The DAP field lies in the low half (R7, R32). -/
theorem dapField_of_wf {c : Cfg} (h : c.wf = true) : c.dapLo + c.dapW ≤ 16 := by
  simp only [Cfg.wf, Cfg.widthsFit, Bool.and_eq_true, decide_eq_true_eq] at h
  omega

/-- Settles O36: SBPI_CTRL shows its field with the pulse masked out, the other two one bit. -/
theorem controlRegistersReadTheirFields : Obligations.ControlRegistersReadTheirFields := by
  unfold Obligations.ControlRegistersReadTheirFields
  intro s n hwf ho hv
  have hdap := dapField_of_wf hwf
  refine ⟨⟨sbpiCtrlValue s s.fresh, exec_r32Row_open .sbpiCtrl n rfl ho hv.symm, ?_,
      fun a ha i hi hne => ?_, fun j hj hout => ?_⟩,
    ⟨userCtrlValue s s.fresh, exec_r32Row_open .userCtrl n rfl ho hv.symm,
      getLsbD_assemble_bit_same s.regsA.useUser s.fresh (by omega),
      fun j => getLsbD_assemble_bit_other s.regsA.useUser s.fresh⟩,
    userEnableValue s s.fresh, exec_r32Row_open .userEnable n rfl ho hv.symm,
      getLsbD_assemble_bit_same false s.fresh (by omega),
      fun j => getLsbD_assemble_bit_other false s.fresh⟩
  · rw [sbpiCtrlValue_eq, getLsbD_and_not_bit_same _ (by omega)]
  · rw [sbpiCtrlValue_eq, getLsbD_and_not_bit_other _ hne, ha, Option.map_some,
      getLsbD_fieldShown_inside _ _ _ hi (by omega), getLsbD_setWidth_of_lt a (by omega)]
  · rw [sbpiCtrlValue_eq, getLsbD_and_not_bit_other _ hj]
    exact getLsbD_fieldShown_outside s.fresh (by simpa using hout)

/-- The byte a read of USER_Q shows with no user read pending: the one held, else the draw's
(R125). -/
theorem userQByte_of_idle {s : State} (h : s.userPending = false) (x : Word) :
    userQByte s x = s.regsA.q.getD (x.setWidth 8) :=
  if_neg (Bool.eq_false_iff.mp h)

/-- While a user read is pending a read of USER_Q shows a drawn byte (R125). -/
theorem userQByte_of_pending {s : State} (h : s.userPending = true) (x : Word) :
    userQByte s x = x.setWidth 8 :=
  if_pos h

/-- Settles O37: both reads show `userQByte` of the next draw. -/
theorem userQReadsTheLastByte : Obligations.UserQReadsTheLastByte := by
  unfold Obligations.UserQReadsTheLastByte
  intro s n ho hv
  refine ⟨userQByte s s.fresh, fun q hq hp => ?_, fun hdraw => ?_, exec_r8UserQ_open n ho hv.symm,
    userQValue s s.fresh, exec_r32Row_open .userQ n rfl ho hv.symm, ?_, fun i hi => ?_⟩
  · rw [userQByte_of_idle ((userPending_false s).2 hp), hq, Option.getD_some]
  · rcases hdraw with hp | hnone
    · exact userQByte_of_pending ((userPending_iff s).2 hp) _
    · rw [userQByte, hnone, Option.getD_none, ite_self]
  · apply BitVec.eq_of_getLsbD_eq
    intro i hi
    rw [userQValue_eq, getLsbD_setWidth_of_lt _ hi, getLsbD_fieldShown_low _ _ hi,
      getLsbD_setWidth_of_lt _ (by omega)]
  · rw [userQValue_eq]
    exact getLsbD_fieldShown_outside s.fresh (.inr (.inl (by omega)))

end Sys2Proof.Machine

/-! ### The invariant

Each lemma says which part of `Invariant` an operation puts at stake; a frame carries the rest
over. -/

namespace Sys2Proof.Machine

/-- An access keeps the invariant where its effect does: a failed guard moves the fault set alone
(R100). -/
theorem Invariant.access {r : Reg} {f : State → State} {s : State} (h : Invariant s)
    (hf : r.variant = s.cfg.variant → Invariant (f s)) : Invariant (Machine.access r f s) := by
  rcases access_cases r f s with ⟨-, hv, e⟩ | e <;> rw [e]
  · exact hf hv
  · exact h

/-- The absent variant's controller stays idle where each controller does that is the absent one
(R49). -/
theorem otherIdle_mono {s t : State} (h : otherIdle s) (hcfg : t.cfg = s.cfg)
    (hA : s.cfg.variant = .A → s.ctlB.pend = none → t.ctlB.pend = none)
    (hB : s.cfg.variant = .B → s.ctlA.pend = none → t.ctlA.pend = none) : otherIdle t := by
  unfold otherIdle at h ⊢
  rw [hcfg]
  cases hv : s.cfg.variant with
  | A => rw [hv] at h; exact hA hv h
  | B => rw [hv] at h; exact hB hv h

/-- An operation issued by variant B's controller from the mode of the table, with an address that
fits, keeps the invariant (R130, R132). -/
theorem Invariant.issueB {s : State} (h : Invariant s) (hv : s.cfg.variant = .B) {p : PendB}
    (hmode : s.ctlB.mode = p.source)
    (haddr : ∀ w, p = .read w → w.toNat < 2 ^ s.cfg.accessAddrW) : Invariant (s.issueB p) := by
  obtain ⟨hwf, hfields, -, hA, htimes, hother, hpoll⟩ := h
  refine ⟨hwf, hfields, fun q hq => ?_, hA, htimes, ?_, hpoll⟩
  · cases hq
    exact ⟨hmode, haddr⟩
  · exact otherIdle_mono hother rfl (fun hv' => nomatch hv.symm.trans hv') fun _ h => h

/-- An SBPI command that is the documented ECC write, or a user read in user mode with an address
that fits, issued by variant A's controller, keeps the invariant (R160, R164). -/
theorem Invariant.issueA {s : State} (h : Invariant s) (hv : s.cfg.variant = .A) {p : PendA}
    (hp : pendingFitsA (s.issueA p)) : Invariant (s.issueA p) := by
  obtain ⟨hwf, hfields, hB, -, htimes, hother, hpoll⟩ := h
  exact ⟨hwf, hfields, hB, hp, htimes,
    otherIdle_mono hother rfl (fun _ h => h) (fun hv' => nomatch hv.symm.trans hv'), hpoll⟩

/-- The read-access command in mode ACT latches an address that fits its field (R130). -/
theorem Invariant.issueReadAccess {s : State} (h : Invariant s) (hv : s.cfg.variant = .B)
    (hm : s.ctlB.mode = .ACT) : Invariant (issueReadAccess s) := by
  obtain ⟨-, ⟨haddr, -, -⟩, -⟩ := id h
  unfold Machine.issueReadAccess
  split
  · split
    case h_1 a ha => exact h.issueB hv hm fun w hw => by cases hw; exact haddr a ha
    case h_2 =>
      exact Invariant.issueB (s := s.spend) h hv hm fun w hw => by
        cases hw; exact and_ones_fits s.fresh s.cfg.accessAddrW
  · exact h

/-- A mode command issues from the mode it finds, or faults: the branches in the order of the
transition table (R130, R132). -/
theorem Invariant.issueMode {s : State} (h : Invariant s) (hv : s.cfg.variant = .B) (c : ModeCmd) :
    Invariant (issueMode c s) := by
  unfold Machine.issueMode
  split
  case h_1 hm => exact h.issueB hv hm nofun
  case h_2 hm => exact h.issueB hv hm nofun
  case h_3 hm => exact h.issueB hv hm nofun
  case h_4 hm => exact h.issueB hv hm nofun
  case h_5 hm => exact h.issueReadAccess hv hm
  case h_6 => exact h

/-- The select part of a write of SBPI_CTRL leaves a DAP field that fits (R102, R160). -/
theorem Invariant.updateDap {s : State} (h : Invariant s) (d : Word) :
    Invariant (updateDap d s) := by
  obtain ⟨hwf, ⟨haddr, hdap, huaddr⟩, hrest⟩ := h
  rw [updateDap_frame]
  exact ⟨hwf, ⟨haddr, fun a ha => maskedField_fits _ _ _ _ _ hdap a ha, huaddr⟩, hrest⟩

/-- What the start of an SBPI command finds ready is the documented ECC write (R160). -/
theorem eccCommandReady_iff (s : State) :
    eccCommandReady s = true ↔
      s.regsA.cmdValid = some s.cfg.cmdValidValue ∧ s.regsA.dap = some s.cfg.dapEcc ∧
        s.regsA.cmd0 = some s.cfg.sbpiCmd0Word ∧
        (s.regsA.cmd1 = some s.cfg.sbpiCmd1Off ∨ s.regsA.cmd1 = some s.cfg.sbpiCmd1On) := by
  simp only [eccCommandReady, Bool.and_eq_true, Bool.or_eq_true, decide_eq_true_eq, and_assoc]

/-- The start of an SBPI command issues the documented ECC write or nothing (R160). -/
theorem Invariant.startSbpi {s : State} (h : Invariant s) (hv : s.cfg.variant = .A) (d : Word) :
    Invariant (startSbpi d s) := by
  unfold Machine.startSbpi
  dsimp only
  split
  case isFalse => exact h
  case isTrue hready =>
    obtain ⟨-, hdap, hcmd0, hcmd1⟩ := (eccCommandReady_iff _).1 hready
    have hv' : (Machine.updateDap d s).cfg.variant = .A := by rw [updateDap_frame]; exact hv
    refine (h.updateDap d).issueA hv' ⟨fun a c0 c1 hp => ?_, nofun⟩
    cases hp
    rw [hdap, hcmd0]
    exact ⟨rfl, rfl, hcmd1.imp (fun e => by rw [e]; rfl) (fun e => by rw [e]; rfl)⟩

/-- A masked write of USER_ADDR leaves a field that fits (R102, R122). -/
theorem Invariant.updateUaddr {s : State} (h : Invariant s) (d : Word) :
    Invariant (updateUaddr d s) := by
  obtain ⟨hwf, ⟨haddr, hdap, huaddr⟩, hrest⟩ := h
  rw [Machine.updateUaddr, spendIf_frame]
  exact ⟨hwf, ⟨haddr, hdap, fun a ha => maskedField_fits _ _ _ _ _ huaddr a ha⟩, hrest⟩

/-- Entering or leaving user mode keeps its time of entry with it, and no user read is pending
where it is left (R163). -/
theorem Invariant.setUserMode {s : State} (h : Invariant s) (hp : s.userPending = false)
    (on : Bool) : Invariant (setUserMode on s) := by
  obtain ⟨hwf, hfields, hB, ⟨hsbpi, -⟩, ⟨⟨hheld, hpast⟩, hrst⟩, hother, hpoll⟩ := h
  have hidle := (userPending_false s).1 hp
  refine ⟨hwf, hfields, hB, ⟨hsbpi, fun a ha => absurd ha (hidle a)⟩, ⟨?_, hrst⟩, hother, hpoll⟩
  unfold Machine.setUserMode
  dsimp only
  cases on with
  | false => exact ⟨rfl, nofun⟩
  | true =>
    cases hu : s.regsA.useUser with
    | true => exact ⟨hheld.trans hu, hpast⟩
    | false => exact ⟨rfl, fun t ht => by cases ht; exact le_refl _⟩

/-- A user read issued in user mode latches an address that fits (R164). -/
theorem Invariant.issueUserRead {s : State} (h : Invariant s) (hv : s.cfg.variant = .A)
    (hu : s.regsA.useUser = true) : Invariant (issueUserRead s) := by
  obtain ⟨-, ⟨-, -, huaddr⟩, -⟩ := id h
  unfold Machine.issueUserRead
  split
  case h_1 a ha =>
    exact h.issueA hv ⟨nofun, fun b hb => by cases hb; exact ⟨hu, huaddr a ha⟩⟩
  case h_2 =>
    exact Invariant.issueA (s := s.spend) h hv
      ⟨nofun, fun b hb => by cases hb; exact ⟨hu, and_onesHalf_fits _ _⟩⟩

/-- Every register write keeps the invariant (R129). -/
theorem Invariant.regWrite {s : State} (h : Invariant s) (r : Reg) (d : Word) :
    Invariant (regWrite r d s) := by
  cases r with
  | modeCtrl =>
    refine h.access fun hv => ?_
    split
    · exact h
    · split
      · exact h
      · exact h.issueMode hv.symm _
  | irqSt => rw [Machine.regWrite, writeIrqSt_frame rfl]; exact h
  | accessAddr =>
    refine h.access fun _ => ?_
    split
    · exact h
    · obtain ⟨hwf, ⟨-, hdap, huaddr⟩, hrest⟩ := h
      exact ⟨hwf, ⟨fun a ha => by cases ha; exact and_ones_fits _ _, hdap, huaddr⟩, hrest⟩
  | rdData => rw [Machine.regWrite, writeRdData_frame rfl]; exact h
  | reprRdTransNum => rw [Machine.regWrite, writeReprRdTransNum_frame rfl]; exact h
  | sbpiCtrl =>
    refine h.access fun hv => ?_
    dsimp only
    split
    · exact h
    · split
      · exact h.startSbpi hv.symm d
      · exact h.updateDap d
  | sbpiCmdValidPre => rw [Machine.regWrite, writeSbpiCmdValidPre_frame rfl]; exact h
  | sbpiCmd0 => rw [Machine.regWrite, writeSbpiCmd0_frame rfl]; exact h
  | sbpiCmd1 => rw [Machine.regWrite, writeSbpiCmd1_frame rfl]; exact h
  | intStatus => rw [Machine.regWrite, writeIntStatus_frame rfl]; exact h
  | userCtrl =>
    refine h.access fun _ => ?_
    split
    · split
      case isTrue => exact h
      case isFalse hp => exact h.setUserMode (Bool.eq_false_iff.mpr hp) _
    · exact h
  | userAddr =>
    refine h.access fun _ => ?_
    split
    · exact h
    · exact h.updateUaddr d
  | userEnable =>
    refine h.access fun hv => ?_
    split
    · split
      · exact h
      · split
        case isTrue => exact h
        case isFalse hu =>
          split
          · exact h
          · exact h.issueUserRead hv.symm (by simpa using hu)
    · exact h
  | userQ => rw [Machine.regWrite, writeUserQ_frame rfl]; exact h

/-- Variant B's controller idle in any mode keeps the invariant (R30). -/
theorem Invariant.idleB {s : State} (h : Invariant s) (m : Mode) :
    Invariant { s with ctlB := { mode := m, pend := none } } := by
  obtain ⟨hwf, hfields, -, hA, htimes, hother, hpoll⟩ := h
  exact ⟨hwf, hfields, nofun, hA, htimes,
    otherIdle_mono hother rfl (fun _ _ => rfl) (fun _ h => h), hpoll⟩

/-- Variant A's controller idle in any ECC state keeps the invariant (R41). -/
theorem Invariant.idleA {s : State} (h : Invariant s) (e : Bool) :
    Invariant { s with ctlA := { s.ctlA with eccEn := e, pend := none } } := by
  obtain ⟨hwf, hfields, hB, -, htimes, hother, hpoll⟩ := h
  exact ⟨hwf, hfields, hB, ⟨nofun, nofun⟩, htimes,
    otherIdle_mono hother rfl (fun _ h => h) (fun _ _ => rfl), hpoll⟩

/-- A completion leaves the controller idle and moves no other field that the invariant names
(R133, R134, R161, R165). -/
theorem Invariant.complete {s : State} (h : Invariant s) : Invariant (complete s) := by
  unfold Machine.complete
  split
  · unfold completeA
    split
    · exact h
    · exact h.idleA _
    case h_3 a _ =>
      unfold completeUser
      cases readableByte s a <;> exact h.idleA _
  · unfold completeB
    split
    · exact h
    case h_2 w _ =>
      unfold completeRead
      cases readableWord s.cfg w <;> exact h.idleB _
    · exact h.idleB _
    · exact h.idleB _
    · exact h.idleB _
    · exact h.idleB _

/-- A clock switched on or off leaves the reset line and its time, so keeps the invariant (R46). -/
theorem Invariant.clocked {s : State} (h : Invariant s) (d : Domain) (on : Bool) :
    Invariant { s with gate := s.gate.setClk d on } := by
  cases d <;> exact h

/-- A clock enable keeps the invariant (R200). -/
theorem Invariant.clkEnable {s : State} (h : Invariant s) (d : Domain) :
    Invariant (clkEnable d s) := by
  unfold Machine.clkEnable
  split
  · exact Invariant.clocked (s := s.spend) h d true
  · exact h

/-- A reset assertion keeps its time with it (R202). -/
theorem Invariant.rstAssert {s : State} (h : Invariant s) : Invariant (rstAssert s) := by
  obtain ⟨hwf, hfields, hB, hA, ⟨huser, hheld, hpast⟩, hother, hpoll⟩ := h
  unfold Machine.rstAssert
  split
  case isFalse => exact ⟨hwf, hfields, hB, hA, ⟨huser, hheld, hpast⟩, hother, hpoll⟩
  case isTrue =>
    refine ⟨hwf, hfields, hB, hA, ⟨huser, ?_⟩, hother, hpoll⟩
    dsimp only [State.spend]
    cases hr : s.gate.rst with
    | true => exact ⟨hheld.trans hr, hpast⟩
    | false => exact ⟨rfl, fun t ht => by cases ht; exact le_refl _⟩

/-- A controller reset leaves nothing pending, no field a value and user mode off on the live
variant, and the other variant as it was (R290, R291). -/
theorem Invariant.controllerReset {s : State} (h : Invariant s) : Invariant s.controllerReset := by
  obtain ⟨hwf, ⟨haddr, hdap, huaddr⟩, hB, hA, ⟨huser, hrst⟩, hother, hpoll⟩ := h
  unfold State.controllerReset
  split
  case h_1 =>
    exact ⟨hwf, ⟨nofun, hdap, huaddr⟩, nofun, hA, ⟨huser, hrst⟩,
      otherIdle_mono hother rfl (fun _ _ => rfl) (fun _ h => h), hpoll⟩
  case h_2 =>
    exact ⟨hwf, ⟨haddr, nofun, nofun⟩, hB, ⟨nofun, nofun⟩, ⟨⟨rfl, nofun⟩, hrst⟩,
      otherIdle_mono hother rfl (fun _ h => h) (fun _ _ => rfl), hpoll⟩

/-- A gate with the reset deasserted and no time held keeps the invariant (R203). -/
theorem Invariant.deasserted {s : State} (h : Invariant s) (g : Gate) :
    Invariant { s with gate := { g with rst := false, rstAt := none } } := by
  obtain ⟨hwf, hfields, hB, hA, ⟨huser, -⟩, hother, hpoll⟩ := h
  exact ⟨hwf, hfields, hB, hA, ⟨huser, rfl, nofun⟩, hother, hpoll⟩

/-- A reset deassertion keeps the invariant (R203, R290). -/
theorem Invariant.rstDeassert {s : State} (h : Invariant s) : Invariant (rstDeassert s) := by
  unfold Machine.rstDeassert
  split
  · exact h
  · split
    · dsimp only
      split
      · exact Invariant.deasserted (Invariant.controllerReset (s := s.spend) h) _
      · exact Invariant.deasserted (s := s.spend) h _
    · exact h

/-- The named operations keep the invariant. -/
theorem invariant_kept : Kept Invariant where
  completion _ h _ := h.complete
  schedule b s h := by rw [turnTaken_eq]; exact h
  fetched _ _ h := h
  mark _ _ h := h
  setsVar _ _ _ h := h
  pollOver s h := by
    obtain ⟨hwf, hfields, hB, hA, htimes, hother, -⟩ := h
    exact ⟨hwf, hfields, hB, hA, htimes, hother, nofun⟩
  pollOn p s h hp := by
    obtain ⟨hwf, hfields, hB, hA, htimes, hother, hpoll⟩ := h
    exact ⟨hwf, hfields, hB, hA, htimes, hother, fun q hq => by cases hq; exact hp hpoll⟩
  read r s h := by rw [readEffect_frame]; exact h
  width r s h := by rw [badWidth_frame]; exact h
  write r d s h := h.regWrite r d
  delay n s h := by
    obtain ⟨hwf, hfields, hB, hA, ⟨⟨hheld, hpast⟩, hrst, hrstPast⟩, hother, hpoll⟩ := h
    exact ⟨hwf, hfields, hB, hA, ⟨⟨hheld, fun t ht => Nat.le_add_right_of_le (hpast t ht)⟩,
      hrst, fun t ht => Nat.le_add_right_of_le (hrstPast t ht)⟩, hother, hpoll⟩
  clockOn d s h := h.clkEnable d
  clockOff d s h := h.clocked d false
  resetOn _ h := h.rstAssert
  resetOff _ h := h.rstDeassert

/-- Settles O10: every named operation keeps the invariant, hence every step does. -/
theorem everyStepKeepsTheInvariant : Obligations.EveryStepKeepsTheInvariant := by
  unfold Obligations.EveryStepKeepsTheInvariant
  exact fun s t hs h => invariant_kept.step s t hs h

end Sys2Proof.Machine

/-! ### The controller's turn -/

namespace Sys2Proof.Machine

/-- The register interface exists exactly with the three clocks on and the reset not asserted
(R46). -/
theorem Gate.isOpen_iff (g : Gate) :
    g.isOpen = true ↔ g.func = true ∧ g.bus = true ∧ g.phy = true ∧ g.rst = false := by
  simp only [Gate.isOpen, Gate.clocksOn, Bool.and_eq_true, Bool.not_eq_true', and_assoc]

/-- A completion is enabled exactly where the gate is open and an operation is pending (R136). -/
theorem canComplete_iff (s : State) :
    s.canComplete = true ↔ s.gate.isOpen = true ∧ s.pending = true :=
  Bool.and_eq_true_iff

/-- The controller moves only where its completion is enabled (R9). -/
theorem canComplete_of_controllerMoves {s : State} {status : Bool}
    (h : s.controllerMoves status = true) : s.canComplete = true :=
  (Bool.and_eq_true_iff.1 h).1

/-- Where no completion is enabled the controller does not move (R136). -/
theorem controllerMoves_of_not_canComplete {s : State} (h : s.canComplete = false)
    (status : Bool) : s.controllerMoves status = false := by
  rw [State.controllerMoves, h, Bool.false_and]

/-- Where no completion is enabled the schedule is not asked (log entry 5). -/
theorem turnTaken_of_not_canComplete {s : State} (h : s.canComplete = false) (status : Bool) :
    s.turnTaken status = s := by
  rw [State.turnTaken, h, Bool.false_and]
  rfl

/-- Where the controller moves, the step is its completion (R9, R133). -/
theorem step_of_controllerMoves {s : State}
    (hm : s.controllerMoves (nextIsStatusRead s) = true) :
    step s = .next (complete (s.turnTaken (nextIsStatusRead s))) :=
  if_pos hm

/-- Settles O7: `canComplete` is the enabling condition, and the schedule is asked only under it. -/
theorem controllerMovesOnlyWhenEnabled : Obligations.ControllerMovesOnlyWhenEnabled := by
  unfold Obligations.ControllerMovesOnlyWhenEnabled
  refine fun s status => ⟨fun hm => ?_, step_of_controllerMoves, fun hoff => ?_⟩
  · obtain ⟨hopen, hpend⟩ := (canComplete_iff s).1 (canComplete_of_controllerMoves hm)
    obtain ⟨hfunc, hbus, hphy, hrst⟩ := (Gate.isOpen_iff s.gate).1 hopen
    exact ⟨hfunc, hbus, hphy, hrst, hpend⟩
  · have hdis : s.canComplete = false := by
      rw [State.canComplete, Bool.and_eq_false_iff]
      exact hoff
    exact ⟨controllerMoves_of_not_canComplete hdis status,
      turnTaken_of_not_canComplete hdis status⟩

/-! ### The bound on a completion -/

/-- The bound is reached exactly where the next status read would be its `k`-th (R135, log
entry 6). -/
theorem boundReached_iff (s : State) :
    s.boundReached = true ↔ ∃ k, s.cfg.completionBound = some k ∧ k ≤ s.statusReads + 1 := by
  unfold State.boundReached
  cases s.cfg.completionBound <;> simp

/-- The operations whose first step reads a status register (R85, R88, R190). -/
theorem statusRegRead_eq_some_iff (i : Instr) (r : Reg) :
    statusRegRead i = some r ↔
      (r = .irqSt ∧ ((∃ n, i = .r32IrqSt n) ∨ ∃ n m, i = .waitforIrqSt n m)) ∨
        (r = .intStatus ∧ ((∃ n, i = .r32IntStatus n) ∨ ∃ n m, i = .waitforIntStatus n m)) := by
  cases i <;> simp [statusRegRead, eq_comm]

/-- A fetched operation is what the head of the program decodes to (R80). -/
theorem fetch_eq_op_iff (s : State) (i : Instr) (rest : List Word) :
    fetch s = .op i rest ↔ decode s.program = some (.ok (i, rest)) := by
  refine ⟨fun h => ?_, fetch_of_decode_ok s i rest⟩
  unfold fetch at h
  split at h
  · cases h
  case h_2 hd => cases h; exact hd
  · cases h

/-- The status register the host reads next: its poll's, at a read line, or its operation's
(R190). -/
theorem nextStatusReg_eq_some_iff (s : State) (r : Reg) :
    nextStatusReg s = some r ↔
      (∃ p, s.poll = some p ∧ p.line = .read ∧ p.status = r) ∨
        (s.poll = none ∧ ∃ i rest, decode s.program = some (.ok (i, rest)) ∧
          statusRegRead i = some r) := by
  unfold nextStatusReg
  cases hp : s.poll with
  | some p => simp
  | none =>
    simp only [← fetch_eq_op_iff]
    cases hf : fetch s <;> simp

/-- The host's next step is a status read exactly where it reads the live variant's status register
(R135, log entry 6). -/
theorem nextIsStatusRead_iff (s : State) :
    nextIsStatusRead s = true ↔ ∃ r, nextStatusReg s = some r ∧ s.statusRead r = true := by
  unfold nextIsStatusRead
  cases nextStatusReg s <;> simp

/-- IRQ_ST is the status register of variant B alone (R26). -/
theorem statusRead_irqSt_iff (s : State) : s.statusRead .irqSt = true ↔ s.cfg.variant = .B := by
  simp only [State.statusRead, Reg.isStatus, Bool.true_and, decide_eq_true_eq]
  exact eq_comm

/-- INT_STATUS is the status register of variant A alone (R36). -/
theorem statusRead_intStatus_iff (s : State) :
    s.statusRead .intStatus = true ↔ s.cfg.variant = .A := by
  simp only [State.statusRead, Reg.isStatus, Bool.true_and, decide_eq_true_eq]
  exact eq_comm

/-- A status read with the bound reached leaves the schedule out of it (R135). -/
theorem turnTaken_of_due {s : State} (h : s.boundReached = true) : s.turnTaken true = s := by
  rw [State.turnTaken, h, Bool.true_and, Bool.not_true, Bool.and_false]
  rfl

/-- A status read with the bound reached gives an enabled controller the turn (R135). -/
theorem controllerMoves_of_due {s : State} (hc : s.canComplete = true)
    (h : s.boundReached = true) : s.controllerMoves true = true := by
  rw [State.controllerMoves, hc, h]
  rfl

/-- Without a status read, or with the bound not reached, the schedule alone decides (R135). -/
theorem controllerMoves_of_not_due {s : State} {status : Bool}
    (h : (status && s.boundReached) = false) :
    s.controllerMoves status = (s.canComplete && decide (s.env.agent = .controller)) := by
  rw [State.controllerMoves, h, Bool.false_or]

/-- The host's next step is a status read of the live variant: the cases R190 and R135 name. -/
theorem nextIsStatusRead_cases (s : State) :
    nextIsStatusRead s = true ↔
      (s.poll = none ∧ s.cfg.variant = .B ∧
          ((∃ n rest, decode s.program = some (.ok (.r32IrqSt n, rest))) ∨
            ∃ n m rest, decode s.program = some (.ok (.waitforIrqSt n m, rest)))) ∨
        (s.poll = none ∧ s.cfg.variant = .A ∧
          ((∃ n rest, decode s.program = some (.ok (.r32IntStatus n, rest))) ∨
            ∃ n m rest, decode s.program = some (.ok (.waitforIntStatus n m, rest)))) ∨
        ∃ p, s.poll = some p ∧ p.line = .read ∧ s.statusRead p.status = true := by
  simp only [nextIsStatusRead_iff, nextStatusReg_eq_some_iff, statusRegRead_eq_some_iff,
    ← statusRead_irqSt_iff, ← statusRead_intStatus_iff]
  constructor
  · rintro ⟨r, ⟨p, hp, hl, rfl⟩ | ⟨hp, i, rest, hd, ⟨rfl, hi⟩ | ⟨rfl, hi⟩⟩, hr⟩
    · exact .inr (.inr ⟨p, hp, hl, hr⟩)
    · refine .inl ⟨hp, hr, hi.imp ?_ ?_⟩
      · rintro ⟨n, rfl⟩
        exact ⟨n, rest, hd⟩
      · rintro ⟨n, m, rfl⟩
        exact ⟨n, m, rest, hd⟩
    · refine .inr (.inl ⟨hp, hr, hi.imp ?_ ?_⟩)
      · rintro ⟨n, rfl⟩
        exact ⟨n, rest, hd⟩
      · rintro ⟨n, m, rfl⟩
        exact ⟨n, m, rest, hd⟩
  · rintro (⟨hp, hr, ⟨n, rest, hd⟩ | ⟨n, m, rest, hd⟩⟩ |
      ⟨hp, hr, ⟨n, rest, hd⟩ | ⟨n, m, rest, hd⟩⟩ | ⟨p, hp, hl, hr⟩)
    · exact ⟨.irqSt, .inr ⟨hp, _, rest, hd, .inl ⟨rfl, .inl ⟨n, rfl⟩⟩⟩, hr⟩
    · exact ⟨.irqSt, .inr ⟨hp, _, rest, hd, .inl ⟨rfl, .inr ⟨n, m, rfl⟩⟩⟩, hr⟩
    · exact ⟨.intStatus, .inr ⟨hp, _, rest, hd, .inr ⟨rfl, .inl ⟨n, rfl⟩⟩⟩, hr⟩
    · exact ⟨.intStatus, .inr ⟨hp, _, rest, hd, .inr ⟨rfl, .inr ⟨n, m, rfl⟩⟩⟩, hr⟩
    · exact ⟨p.status, .inl ⟨p, hp, hl, rfl⟩, hr⟩

/-- Settles O8: `nextIsStatusRead` says which steps are status reads and `boundReached` when one is
the bound's; the two together force the completion, and without them the schedule decides. -/
theorem completionBoundForcesTheController :
    Obligations.CompletionBoundForcesTheController := by
  unfold Obligations.CompletionBoundForcesTheController
  intro s
  simp only [← nextIsStatusRead_cases, ← boundReached_iff]
  refine ⟨fun hdue hnext hopen hpend => ?_, fun h => controllerMoves_of_not_due ?_⟩
  · have hm : s.controllerMoves (nextIsStatusRead s) = true := by
      rw [hnext]
      exact controllerMoves_of_due ((canComplete_iff s).2 ⟨hopen, hpend⟩) hdue
    rw [step_of_controllerMoves hm, hnext, turnTaken_of_due hdue]
  · rw [Bool.and_eq_false_iff]
    simpa using h

/-! ### The power mode and the ECC state -/

/-- The stable power mode and the ECC state: what only a completion or a controller reset moves
(R131, R271). -/
def State.stable (s : State) : Mode × Bool := (s.ctlB.mode, s.ctlA.eccEn)

/-- No register write moves the power mode or the ECC state: every frame names other fields
(R131). -/
theorem regWrite_stable (r : Reg) (d : Word) (s : State) : (regWrite r d s).stable = s.stable := by
  cases r with
  | modeCtrl => rw [regWrite, writeModeCtrl_frame rfl]; rfl
  | irqSt => rw [regWrite, writeIrqSt_frame rfl]; rfl
  | accessAddr => rw [regWrite, writeAccessAddr_frame rfl]; rfl
  | rdData => rw [regWrite, writeRdData_frame rfl]; rfl
  | reprRdTransNum => rw [regWrite, writeReprRdTransNum_frame rfl]; rfl
  | sbpiCtrl => rw [regWrite, writeSbpiCtrl_frame rfl]; rfl
  | sbpiCmdValidPre => rw [regWrite, writeSbpiCmdValidPre_frame rfl]; rfl
  | sbpiCmd0 => rw [regWrite, writeSbpiCmd0_frame rfl]; rfl
  | sbpiCmd1 => rw [regWrite, writeSbpiCmd1_frame rfl]; rfl
  | intStatus => rw [regWrite, writeIntStatus_frame rfl]; rfl
  | userCtrl => rw [regWrite, writeUserCtrl_frame rfl]; rfl
  | userAddr => rw [regWrite, writeUserAddr_frame rfl]; rfl
  | userEnable => rw [regWrite, writeUserEnable_frame rfl]; rfl
  | userQ => rw [regWrite, writeUserQ_frame rfl]; rfl

/-- No operation but a `rstd` moves the power mode or the ECC state (R131, R271). -/
theorem exec_stable {i : Instr} {s t : State} (h : exec i s = .next t) (hi : ∀ n, i ≠ .rstd n) :
    t.stable = s.stable := by
  cases opResult_of_exec i s t h with
  | write r d => exact regWrite_stable r d s
  | read r n => rw [readInto, readEffect_frame]; rfl
  | read8 n => rw [read8Into, readEffect_frame]; rfl
  | badWidth r n => rw [read8Other, badWidth_frame]; rfl
  | clkon n d => rw [clkEnable_frame]; rfl
  | clkoff d => rfl
  | rsta n => rw [rstAssert_frame]; rfl
  | rstdAnswered n ok _ => exact absurd rfl (hi n)
  | rstdStopped n _ => exact absurd rfl (hi n)
  | delay n => rfl
  | waitfor r n m _ _ => rw [startPoll_frame]; rfl

/-- No line of a poll moves the power mode or the ECC state (R131, R190). -/
theorem pollStep_stable (p : Poll) (s : State) : (pollStep p s).stable = s.stable := by
  unfold pollStep
  cases p.line with
  | read => dsimp only; rw [pollRead_frame]; rfl
  | acknowledge => exact regWrite_stable p.status p.mask s
  | delay => rfl

/-- Settles O16: by the operation's result and by the poll's line. -/
theorem modeChangesOnlyAtCompletionOrReset :
    Obligations.ModeChangesOnlyAtCompletionOrReset := by
  unfold Obligations.ModeChangesOnlyAtCompletionOrReset
  exact ⟨fun s t i h hi => Prod.mk.inj (exec_stable h hi),
    fun s p => Prod.mk.inj (pollStep_stable p s)⟩

end Sys2Proof.Machine

/-! ### The issue of a read-access -/

namespace Sys2Proof.Machine

/-- What a read-access is issued from: variant B with the gate open, mode ACT, nothing pending and
the fixed transaction count (R130, R144). -/
def readIssuable (s : State) : Prop :=
  s.cfg.variant = .B ∧ s.gate.isOpen = true ∧ s.ctlB.mode = .ACT ∧ s.ctlB.pend = none ∧
    s.regsB.transNum = some s.cfg.transOne

/-- A mode command that leaves a read-access pending found mode ACT and the fixed count: the only
such branch of the transition table (R130, R132). -/
theorem issueMode_read {c : ModeCmd} {s : State} {w : Word} (hidle : s.ctlB.pend = none)
    (h : (issueMode c s).ctlB.pend = some (.read w)) :
    s.ctlB.mode = .ACT ∧ s.regsB.transNum = some s.cfg.transOne := by
  unfold issueMode at h
  split at h
  case h_5 hm =>
    refine ⟨hm, ?_⟩
    unfold issueReadAccess at h
    split at h
    case isTrue ht => exact ht
    case isFalse => simp [hidle] at h
  all_goals simp [hidle] at h

/-- A register write that leaves a read-access pending found it pending, or is the write of
MODE_CTRL that issues it (R130). -/
theorem regWrite_read {r : Reg} {d : Word} {s : State} {w : Word}
    (h : (regWrite r d s).ctlB.pend = some (.read w)) :
    s.ctlB.pend = some (.read w) ∨ readIssuable s := by
  cases r with
  | modeCtrl =>
    rw [regWrite, writeModeCtrl] at h
    rcases access_cases .modeCtrl _ s with ⟨hopen, hv, e⟩ | e <;> rw [e] at h
    · split at h
      · exact .inl h
      · split at h
        case isTrue => exact .inl h
        case isFalse hp =>
          have hidle : s.ctlB.pend = none := by simpa using hp
          obtain ⟨hm, ht⟩ := issueMode_read hidle h
          exact .inr ⟨hv.symm, hopen, hm, hidle, ht⟩
    · exact .inl h
  | irqSt => rw [regWrite, writeIrqSt_frame rfl] at h; exact .inl h
  | accessAddr => rw [regWrite, writeAccessAddr_frame rfl] at h; exact .inl h
  | rdData => rw [regWrite, writeRdData_frame rfl] at h; exact .inl h
  | reprRdTransNum => rw [regWrite, writeReprRdTransNum_frame rfl] at h; exact .inl h
  | sbpiCtrl => rw [regWrite, writeSbpiCtrl_frame rfl] at h; exact .inl h
  | sbpiCmdValidPre => rw [regWrite, writeSbpiCmdValidPre_frame rfl] at h; exact .inl h
  | sbpiCmd0 => rw [regWrite, writeSbpiCmd0_frame rfl] at h; exact .inl h
  | sbpiCmd1 => rw [regWrite, writeSbpiCmd1_frame rfl] at h; exact .inl h
  | intStatus => rw [regWrite, writeIntStatus_frame rfl] at h; exact .inl h
  | userCtrl => rw [regWrite, writeUserCtrl_frame rfl] at h; exact .inl h
  | userAddr => rw [regWrite, writeUserAddr_frame rfl] at h; exact .inl h
  | userEnable => rw [regWrite, writeUserEnable_frame rfl] at h; exact .inl h
  | userQ => rw [regWrite, writeUserQ_frame rfl] at h; exact .inl h

/-- A controller reset leaves no read-access pending that was not (R290). -/
theorem controllerReset_read {s : State} {w : Word}
    (h : s.controllerReset.ctlB.pend = some (.read w)) : s.ctlB.pend = some (.read w) := by
  unfold State.controllerReset at h
  split at h
  · cases h
  · exact h

/-- A reset deassertion leaves no read-access pending that was not (R203). -/
theorem rstDeassert_read {s : State} {w : Word}
    (h : (rstDeassert s).ctlB.pend = some (.read w)) : s.ctlB.pend = some (.read w) := by
  rcases rstDeassert_cases s with e | e | e <;> rw [e] at h
  · exact h
  · exact h
  · exact controllerReset_read (s := s.spend) h

/-- An operation that leaves a read-access pending found it pending or issued it (R130). -/
theorem exec_read {i : Instr} {s t : State} {w : Word} (he : exec i s = .next t)
    (h : t.ctlB.pend = some (.read w)) : s.ctlB.pend = some (.read w) ∨ readIssuable s := by
  cases opResult_of_exec i s t he with
  | write r d => exact regWrite_read h
  | read r n => rw [readInto, readEffect_frame] at h; exact .inl h
  | read8 n => rw [read8Into, readEffect_frame] at h; exact .inl h
  | badWidth r n => rw [read8Other, badWidth_frame] at h; exact .inl h
  | clkon n d => rw [clkEnable_frame] at h; exact .inl h
  | clkoff d => exact .inl h
  | rsta n => rw [rstAssert_frame] at h; exact .inl h
  | rstdAnswered n ok _ => exact .inl (rstDeassert_read h)
  | rstdStopped n _ => exact .inl (rstDeassert_read h)
  | delay n => exact .inl h
  | waitfor r n m _ _ => rw [startPoll_frame] at h; exact .inl h

/-- A line of a poll that leaves a read-access pending found it pending or issued it (R190). -/
theorem pollStep_read {p : Poll} {s : State} {w : Word}
    (h : (pollStep p s).ctlB.pend = some (.read w)) :
    s.ctlB.pend = some (.read w) ∨ readIssuable s := by
  unfold pollStep at h
  split at h
  · rw [pollRead_frame] at h
    exact .inl h
  · exact regWrite_read h
  · exact .inl h

/-- A completion of variant A's controller leaves variant B's as it was (R49). -/
theorem completeA_ctlB (s : State) : (completeA s).ctlB = s.ctlB := by
  unfold completeA
  split
  · rfl
  · rfl
  case h_3 a _ =>
    unfold completeUser
    cases readableByte s a <;> rfl

/-- A completion leaves no read-access pending that was not (R134). -/
theorem complete_read {s : State} {w : Word} (h : (complete s).ctlB.pend = some (.read w)) :
    s.ctlB.pend = some (.read w) := by
  cases hv : s.cfg.variant with
  | A => rwa [complete, hv, completeA_ctlB] at h
  | B =>
    have hp := complete_pending s
    rw [pending_eq_of_B (by rw [complete_frame]; exact hv), h] at hp
    cases hp

/-- Settles O17: by the step's case; the choice of the agent and the words passed leave what a
read-access is issued from. -/
theorem readAccessIsIssuedOnlyInActive : Obligations.ReadAccessIsIssuedOnlyInActive := by
  unfold Obligations.ReadAccessIsIssuedOnlyInActive
  intro s t w he h
  rw [← readIssuable]
  rcases step_cases s t he with ⟨-, rfl⟩ | ⟨p, -, rfl⟩ | ⟨-, rfl⟩ | ⟨i, rest, -, -, hx⟩
  · have hp := complete_read h
    rw [turnTaken_eq] at hp
    exact .inl hp
  · have hp := pollStep_read h
    rw [turnTaken_eq] at hp
    exact hp
  · rw [turnTaken_eq] at h
    exact .inl h
  · have hp := exec_read hx h
    rw [turnTaken_eq] at hp
    exact hp

/-! ### The transition table -/

/-- The code of a mode command (R25). -/
def ModeCmd.code (c : Cfg) : ModeCmd → Word
  | .toDS => c.encDS
  | .toSB => c.encSB
  | .toACT => c.encACT
  | .readAccess => c.encRA

/-- The four codes are distinct (R7). -/
theorem codes_of_wf {c : Cfg} (h : c.wf = true) :
    (c.encDS ≠ c.encSB ∧ c.encDS ≠ c.encACT ∧ c.encDS ≠ c.encRA) ∧
      (c.encSB ≠ c.encACT ∧ c.encSB ≠ c.encRA) ∧ c.encACT ≠ c.encRA := by
  simp only [Cfg.wf, Bool.and_eq_true] at h
  obtain ⟨⟨⟨⟨⟨⟨hcodes, -⟩, -⟩, -⟩, -⟩, -⟩, -⟩ := h
  simpa [Cfg.codesDistinct] using hcodes

/-- The code of a command is that command's alone (R7, R130). -/
theorem modeCmdOf_code {c : Cfg} (h : c.wf = true) (m : ModeCmd) :
    modeCmdOf c (m.code c) = some m := by
  obtain ⟨⟨hdssb, hdsact, hdsra⟩, ⟨hsbact, hsbra⟩, hactra⟩ := codes_of_wf h
  unfold modeCmdOf
  cases m with
  | toDS => exact if_pos rfl
  | toSB => rw [ModeCmd.code, if_neg hdssb.symm, if_pos rfl]
  | toACT => rw [ModeCmd.code, if_neg hdsact.symm, if_neg hsbact.symm, if_pos rfl]
  | readAccess =>
    rw [ModeCmd.code, if_neg hdsra.symm, if_neg hsbra.symm, if_neg hactra.symm, if_pos rfl]

/-- A value that is no code is no command (R130). -/
theorem modeCmdOf_eq_none {c : Cfg} {d : Word}
    (h : ¬(d = c.encDS ∨ d = c.encSB ∨ d = c.encACT ∨ d = c.encRA)) : modeCmdOf c d = none := by
  simp only [not_or] at h
  obtain ⟨hds, hsb, hact, hra⟩ := h
  rw [modeCmdOf, if_neg hds, if_neg hsb, if_neg hact, if_neg hra]

/-- A code is some command's (R25). -/
theorem exists_code {c : Cfg} {d : Word}
    (h : d = c.encDS ∨ d = c.encSB ∨ d = c.encACT ∨ d = c.encRA) : ∃ m : ModeCmd, d = m.code c := by
  rcases h with h | h | h | h
  · exact ⟨.toDS, h⟩
  · exact ⟨.toSB, h⟩
  · exact ⟨.toACT, h⟩
  · exact ⟨.readAccess, h⟩

/-- A write of MODE_CTRL that is no code faults (R130). -/
theorem writeModeCtrl_of_no_code {s : State} {d : Word} (ho : s.gate.isOpen = true)
    (hv : s.cfg.variant = .B) (hd : modeCmdOf s.cfg d = none) :
    writeModeCtrl d s = s.raise .illegalModeCommand := by
  rw [writeModeCtrl, access_open .modeCtrl _ s ho hv.symm, hd]

/-- A write of a mode command while an operation is pending faults (R130). -/
theorem writeModeCtrl_busy {s : State} (hwf : s.cfg.wf = true) (ho : s.gate.isOpen = true)
    (hv : s.cfg.variant = .B) (hp : s.ctlB.pend.isSome = true) (m : ModeCmd) :
    writeModeCtrl (m.code s.cfg) s = s.raise .busyWrite := by
  rw [writeModeCtrl, access_open .modeCtrl _ s ho hv.symm, modeCmdOf_code hwf]
  exact if_pos hp

/-- A write of a mode command with nothing pending is the table's (R130, R132). -/
theorem writeModeCtrl_idle {s : State} (hwf : s.cfg.wf = true) (ho : s.gate.isOpen = true)
    (hv : s.cfg.variant = .B) (hp : s.ctlB.pend = none) (m : ModeCmd) :
    writeModeCtrl (m.code s.cfg) s = issueMode m s := by
  rw [writeModeCtrl, access_open .modeCtrl _ s ho hv.symm, modeCmdOf_code hwf]
  exact if_neg (by simp [hp])

/-- A read-access without the fixed transaction count is refused (R130). -/
theorem issueReadAccess_refused {s : State} (h : s.regsB.transNum ≠ some s.cfg.transOne) :
    issueReadAccess s = s.refuse .transNumUnsupported :=
  if_neg h

/-- A read-access latches the word address held (R130). -/
theorem issueReadAccess_known {s : State} {w : Word} (h : s.regsB.transNum = some s.cfg.transOne)
    (hw : s.regsB.accessAddr = some w) : issueReadAccess s = s.issueB (.read w) := by
  rw [issueReadAccess, if_pos h, hw]

/-- A read-access with no word address held latches a draw (R130). -/
theorem issueReadAccess_drawn {s : State} (h : s.regsB.transNum = some s.cfg.transOne)
    (hw : s.regsB.accessAddr = none) :
    issueReadAccess s = s.spend.issueB (.read (s.fresh &&& ones s.cfg.accessAddrW)) := by
  rw [issueReadAccess, if_pos h, hw]

/-- The row of mode DS in the transition table (R132). -/
theorem issueMode_DS {s : State} (h : s.ctlB.mode = .DS) (m : ModeCmd) :
    issueMode m s = if m = .toSB then s.issueB .dpToStb else s.raise .illegalTransition := by
  cases m <;> simp [issueMode, h]

/-- The row of mode SB in the transition table (R132). -/
theorem issueMode_SB {s : State} (h : s.ctlB.mode = .SB) (m : ModeCmd) :
    issueMode m s =
      if m = .toACT then s.issueB .stbToAct
      else if m = .toDS then s.issueB .stbToDp else s.raise .illegalTransition := by
  cases m <;> simp [issueMode, h]

/-- The row of mode ACT in the transition table (R132). -/
theorem issueMode_ACT {s : State} (h : s.ctlB.mode = .ACT) (m : ModeCmd) :
    issueMode m s =
      if m = .toSB then s.issueB .actToStb
      else if m = .readAccess then issueReadAccess s else s.raise .illegalTransition := by
  cases m <;> simp [issueMode, h]

/-- Settles O19: by the command the value is the code of, and by the mode's row of the table. -/
theorem modeCtrlWriteFollowsTheTable : Obligations.ModeCtrlWriteFollowsTheTable := by
  unfold Obligations.ModeCtrlWriteFollowsTheTable
  intro s d hwf ho hv c isCode issued faulted run
  refine ⟨fun hd => ?_, fun hd hp => ?_, fun hp => ?_⟩
  · exact congrArg Host.Outcome.next (writeModeCtrl_of_no_code ho hv (modeCmdOf_eq_none hd))
  · obtain ⟨m, rfl⟩ := exists_code hd
    exact congrArg Host.Outcome.next
      (writeModeCtrl_busy hwf ho hv (Option.isSome_iff_ne_none.2 hp) m)
  · have hrun : ∀ m : ModeCmd, d = m.code s.cfg → run = .next (issueMode m s) := fun m hm => by
      subst hm
      exact congrArg Host.Outcome.next (writeModeCtrl_idle hwf ho hv hp m)
    refine ⟨fun hm hd => ?_, fun hm hd => ?_, fun hm hd => ?_, fun hm hd => ?_, fun hm hd => ?_,
      fun hm hd => ?_, fun hm hd => ?_, fun hm hd => ?_⟩
    · rw [hrun .toSB hd, issueMode_DS hm]; rfl
    · rw [hrun .toACT hd, issueMode_SB hm]; rfl
    · rw [hrun .toSB hd, issueMode_ACT hm]; rfl
    · rw [hrun .toDS hd, issueMode_SB hm]; rfl
    · have hread : run = .next (issueReadAccess s) := by
        rw [hrun .readAccess hd, issueMode_ACT hm]; rfl
      rw [hread]
      refine ⟨fun ht => ?_, fun ht => ⟨fun w hw => ?_, fun hw => ?_⟩⟩
      · rw [issueReadAccess_refused ht]; rfl
      · rw [issueReadAccess_known ht hw]; rfl
      · rw [issueReadAccess_drawn ht hw]; rfl
    · rcases hd with hd | hd | hd
      · rw [hrun .toDS hd, issueMode_DS hm]; rfl
      · rw [hrun .toACT hd, issueMode_DS hm]; rfl
      · rw [hrun .readAccess hd, issueMode_DS hm]; rfl
    · rcases hd with hd | hd
      · rw [hrun .toSB hd, issueMode_SB hm]; rfl
      · rw [hrun .readAccess hd, issueMode_SB hm]; rfl
    · rcases hd with hd | hd
      · rw [hrun .toDS hd, issueMode_ACT hm]; rfl
      · rw [hrun .toACT hd, issueMode_ACT hm]; rfl

/-- Settles O31: a read with the guard passed shows the code of the mode. -/
theorem modeCtrlReadsTheStableMode : Obligations.ModeCtrlReadsTheStableMode := by
  unfold Obligations.ModeCtrlReadsTheStableMode
  intro s n ho hv
  have hread := exec_r32Row_open .modeCtrl n rfl ho hv.symm
  rw [regValue, modeCtrlValue] at hread
  cases hm : s.ctlB.mode <;> (rw [hm] at hread; exact hread)

/-! ### Completions of variant B -/

/-- A completion of variant B's transition `p` (R133). -/
theorem complete_transition {s : State} {p : PendB} (hv : s.cfg.variant = .B)
    (hp : s.ctlB.pend = some p) (ht : ∀ w, p ≠ .read w) :
    complete s = completeTransition p s := by
  rw [complete, hv]
  dsimp only
  rw [completeB, hp]
  cases p with
  | read w => exact absurd rfl (ht w)
  | _ => rfl

/-- A completion of a read-access (R134). -/
theorem complete_readAccess {s : State} {w : Word} (hv : s.cfg.variant = .B)
    (hp : s.ctlB.pend = some (.read w)) : complete s = completeRead w s := by
  rw [complete, hv]
  dsimp only
  rw [completeB, hp]

/-- A readable word is past the secure region and inside the array (R70, R71). -/
theorem readableWord_iff (c : Cfg) (w : Word) :
    readableWord c w = true ↔ 224 ≤ w.toNat ∧ w.toNat < c.otpWords := by
  simp only [readableWord, Bool.and_eq_true, decide_eq_true_eq]

/-- Settles O46: a transition by `completeTransition`, a read-access by whether its word is
readable. -/
theorem completionOfVariantB : Obligations.CompletionOfVariantB := by
  unfold Obligations.CompletionOfVariantB
  intro s p hv hp
  refine ⟨s.regsB.irqSt.raise p.statusBit, fun b => ?_, ?_⟩
  · rw [IrqSt.get_raise]
    cases p <;> rfl
  · cases p with
    | read w =>
      dsimp only
      rw [complete_readAccess hv hp, completeRead]
      refine ⟨fun hlo hhi => ?_, fun hout => ?_⟩
      · rw [(readableWord_iff _ _).2 ⟨hlo, hhi⟩]
        rfl
      · have hr : readableWord s.cfg w = false := by
          rw [← Bool.not_eq_true, readableWord_iff]
          omega
        rw [hr]
        rfl
    | dpToStb => exact complete_transition hv hp nofun
    | stbToAct => exact complete_transition hv hp nofun
    | actToStb => exact complete_transition hv hp nofun
    | stbToDp => exact complete_transition hv hp nofun

end Sys2Proof.Machine

/-! ### A poll for the bit of a pending operation

A poll of the live variant's status register for one bit, made while the operation whose completion
sets that bit is pending. `Awaits` and `Answered` are the two states of such a poll, said for both
variants at once; a round leads from the one to itself or to the other. -/

namespace Sys2Proof.Machine

/-- Only the time, the count of status reads and the model's supply of draws and schedule differ:
what a poll's own lines move. -/
def pollMoves (s t : State) : Prop :=
  ∃ now reads env, t = { s with now := now, statusReads := reads, env := env }

/-- Where nothing moves the poll's accounts are as they were. -/
theorem pollMoves_refl (s : State) : pollMoves s s :=
  ⟨s.now, s.statusReads, s.env, rfl⟩

/-- What moves twice moves. -/
theorem pollMoves_trans {s t u : State} (h : pollMoves s t) (h' : pollMoves t u) :
    pollMoves s u := by
  obtain ⟨_, _, _, rfl⟩ := h
  obtain ⟨now, reads, env, rfl⟩ := h'
  exact ⟨now, reads, env, rfl⟩

/-- What a poll's lines move leaves the configuration. -/
theorem pollMoves_cfg {s t : State} (h : pollMoves s t) : t.cfg = s.cfg := by
  obtain ⟨_, _, _, rfl⟩ := h
  rfl

/-- The choice of the agent moves the schedule. -/
theorem pollMoves_turnTaken (b : Bool) (s : State) : pollMoves s (s.turnTaken b) :=
  ⟨s.now, s.statusReads, (s.turnTaken b).env, turnTaken_eq s b⟩

/-- A delay moves the time. -/
theorem pollMoves_delayBy (n : Nat) (s : State) : pollMoves s (delayBy n s) :=
  ⟨s.now + n, s.statusReads, s.env, rfl⟩

/-- A read of the live variant's status register with the gate open uses up one draw, and counts
where an operation is pending (R66, R135). -/
theorem readEffect_live {r : Reg} {s : State} (ho : s.gate.isOpen = true)
    (hl : s.statusRead r = true) :
    readEffect r s =
      { s with
        statusReads := if s.pending = true then s.statusReads + 1 else s.statusReads,
        env := s.env.spend } := by
  obtain ⟨hr, hv⟩ := Bool.and_eq_true_iff.1 hl
  have hp : s.spend.pending = s.pending := rfl
  rw [readEffect, access_open r _ s ho (of_decide_eq_true hv), State.countStatusRead, hr,
    Bool.true_and, hp]
  split <;> rfl

/-- A read of the live variant's status register moves the draws and the count of status reads. -/
theorem pollMoves_readEffect {r : Reg} {s : State} (ho : s.gate.isOpen = true)
    (hl : s.statusRead r = true) : pollMoves s (readEffect r s) :=
  ⟨_, _, _, readEffect_live ho hl⟩

/-- Every read of `r` shows `v` at bit `n`. -/
def showsBit (r : Reg) (n : Nat) (v : Bool) (s : State) : Prop :=
  ∀ x, (regValue r s x).getLsbD n = v

/-- What a read shows does not depend on what a poll's lines move. -/
theorem showsBit_of_moves {r : Reg} {n : Nat} {v : Bool} {s t : State} (hm : pollMoves s t)
    (h : showsBit r n v s) : showsBit r n v t := by
  obtain ⟨_, _, _, rfl⟩ := hm
  cases r <;> exact h

/-- A poll for one bit matches where the value read has it (R190). -/
theorem pollMatches_bit {n : Nat} (hn : n < 32) (x : Word) :
    pollMatches (bit n) (some x) = x.getLsbD n := by
  have hand : (x &&& bit n).getLsbD n = x.getLsbD n := by
    rw [BitVec.getLsbD_and, getLsbD_bit, decide_eq_true hn, decide_eq_true rfl, Bool.and_self,
      Bool.and_true]
  rw [pollMatches, Bool.eq_iff_iff, decide_eq_true_eq, ← hand]
  constructor
  · refine fun hne => by_contra fun hclear => hne (BitVec.eq_of_getLsbD_eq fun i hi => ?_)
    by_cases hin : i = n
    · subst hin
      simpa using hclear
    · simp [getLsbD_bit, hin]
  · intro hset hzero
    simp [hzero] at hset

/-- A poll read for a bit that every read shows the same matches as the bit says (R190). -/
theorem pollMatches_of_showsBit {r : Reg} {n : Nat} {v : Bool} {s : State} (hn : n < 32)
    (ho : s.gate.isOpen = true) (hl : s.statusRead r = true) (h : showsBit r n v s) :
    pollMatches (bit n) (readResult r s) = v := by
  have hv := of_decide_eq_true (Bool.and_eq_true_iff.1 hl).2
  rw [readResult, if_pos ((guardOk_iff r s).2 ⟨ho, hv⟩), pollMatches_bit hn]
  exact h s.fresh

/-- The state of a poll for bit `n` of `r` whose operation is pending: the bit reads 0, and the
completion, whenever it comes, makes it read 1. -/
structure Awaits (r : Reg) (n : Nat) (s : State) : Prop where
  isOpen : s.gate.isOpen = true
  live : s.statusRead r = true
  pending : s.pending = true
  clear : showsBit r n false s
  sets : ∀ t, pollMoves s t → showsBit r n true (complete t)

/-- The state of a poll for bit `n` of `r` whose operation has completed: the bit reads 1. -/
structure Answered (r : Reg) (n : Nat) (s : State) : Prop where
  isOpen : s.gate.isOpen = true
  live : s.statusRead r = true
  idle : s.pending = false
  set : showsBit r n true s

/-- A poll's own lines leave its operation pending. -/
theorem Awaits.of_moves {r : Reg} {n : Nat} {s t : State} (h : Awaits r n s)
    (hm : pollMoves s t) : Awaits r n t := by
  have hclear := showsBit_of_moves hm h.clear
  have hsets : ∀ u, pollMoves t u → showsBit r n true (complete u) := fun u hu =>
    h.sets u (pollMoves_trans hm hu)
  obtain ⟨_, _, _, rfl⟩ := hm
  exact ⟨h.isOpen, h.live, h.pending, hclear, hsets⟩

/-- A poll's own lines leave it answered. -/
theorem Answered.of_moves {r : Reg} {n : Nat} {s t : State} (h : Answered r n s)
    (hm : pollMoves s t) : Answered r n t := by
  have hset := showsBit_of_moves hm h.set
  obtain ⟨_, _, _, rfl⟩ := hm
  exact ⟨h.isOpen, h.live, h.idle, hset⟩

/-- The completion answers the poll (R133, R161). -/
theorem Awaits.complete {r : Reg} {n : Nat} {s t : State} (h : Awaits r n s)
    (hm : pollMoves s t) : Answered r n (complete t) := by
  obtain ⟨hopen, hlive, -, -, -⟩ := h.of_moves hm
  have hset := h.sets t hm
  have hidle := complete_pending t
  rw [complete_frame] at hset hidle ⊢
  exact ⟨hopen, hlive, hidle, hset⟩

/-- What the poll `o` of a state that awaits its answer comes to with `k` reads: Matched, and the
acknowledge of a state the completion has led to (R190, R192). -/
structure AnsweredPoll (r : Reg) (n : Nat) (s : State) (k : Nat) (o : PollResult) : Prop where
  matched : o.matched = true
  reads : o.reads = k
  state : ∃ t u, pollMoves s t ∧ pollMoves (Machine.complete t) u ∧ o.state = regWrite r (bit n) u

/-- What answers a poll that has moved on answers the poll. -/
theorem AnsweredPoll.of_moves {r : Reg} {n k : Nat} {s t : State} {o : PollResult}
    (h : AnsweredPoll r n t k o) (hm : pollMoves s t) : AnsweredPoll r n s k o := by
  obtain ⟨hmatch, hreads, u, w, hu, hw, hstate⟩ := h
  exact ⟨hmatch, hreads, u, w, pollMoves_trans hm hu, hw, hstate⟩

/-- A poll answered by the time of its read matches there (R190). -/
theorem pollLoop_of_answered {r : Reg} {n : Nat} {s : State} (hn : n < 32)
    (hl : s.statusRead r = true) (h : Answered r n (interleave true s)) (left made : Nat) :
    pollLoop r (bit n) left made s =
      { matched := true, reads := made + 1,
        state := regWrite r (bit n) (readEffect r (interleave true s)) } := by
  have hread := (h.of_moves (pollMoves_readEffect h.isOpen h.live)).idle
  rw [pollLoop_match r _ left made s hl (pollMatches_of_showsBit hn h.isOpen h.live h.set),
    interleave_idle false _ hread]

/-- A poll whose operation has completed by the time of its read is answered there. -/
theorem Awaits.answeredPoll {r : Reg} {n : Nat} {s t u : State} (h : Awaits r n s) (hn : n < 32)
    (ht : pollMoves s t) (hl : u.statusRead r = true)
    (hu : pollMoves (Machine.complete t) (interleave true u)) (left made : Nat) :
    AnsweredPoll r n s (made + 1) (pollLoop r (bit n) left made u) := by
  have hdone := (h.complete ht).of_moves hu
  rw [pollLoop_of_answered hn hl hdone]
  exact ⟨rfl, rfl, t, _, ht, pollMoves_trans hu (pollMoves_readEffect hdone.isOpen hdone.live), rfl⟩

/-- Between two lines of an awaiting poll the operation completes, or the poll's own accounts alone
move; before a read the bound then is not reached (R73, R135). -/
theorem Awaits.interleave_cases {r : Reg} {n : Nat} {s : State} (h : Awaits r n s) (b : Bool) :
    Machine.interleave b s = Machine.complete (s.turnTaken b) ∨
      (Machine.interleave b s = s.turnTaken b ∧ (b && s.boundReached) = false) := by
  unfold Machine.interleave
  cases hm : s.controllerMoves b with
  | true => exact .inl rfl
  | false =>
    refine .inr ⟨rfl, ?_⟩
    rw [State.controllerMoves, (canComplete_iff s).2 ⟨h.isOpen, h.pending⟩, Bool.true_and,
      Bool.or_eq_false_iff] at hm
    exact hm.1

/-- What a poll that awaits its answer comes to, from a round with `left` delays to go and `made`
reads made: answered by this read or by the next, ended, or gone on with one status read more. -/
inductive AwaitedRound (r : Reg) (n : Nat) (s : State) : Nat → Nat → PollResult → Prop
  | now {left made : Nat} {o : PollResult} (answer : AnsweredPoll r n s (made + 1) o) :
      AwaitedRound r n s left made o
  | next {left made : Nat} {o : PollResult} (bound : s.boundReached = false)
      (answer : AnsweredPoll r n s (made + 2) o) : AwaitedRound r n s (left + 1) made o
  | ended {made : Nat} {t : State} (bound : s.boundReached = false) (moves : pollMoves s t) :
      AwaitedRound r n s 0 made { matched := false, reads := made + 1, state := t }
  | on {left made : Nat} {t : State} (bound : s.boundReached = false) (moves : pollMoves s t)
      (count : t.statusReads = s.statusReads + 1) :
      AwaitedRound r n s (left + 1) made (pollLoop r (bit n) left (made + 1) t)

/-- The read of a round that awaits its answer moves the poll's accounts and counts (R135). -/
theorem Awaits.read {r : Reg} {n : Nat} {s : State} (h : Awaits r n s) (b : Bool) :
    pollMoves s (readEffect r (s.turnTaken b)) ∧
      (readEffect r (s.turnTaken b)).statusReads = s.statusReads + 1 := by
  obtain ⟨hopen, hlive, hpend, -, -⟩ := h.of_moves (pollMoves_turnTaken b s)
  refine ⟨pollMoves_trans (pollMoves_turnTaken b s) (pollMoves_readEffect hopen hlive), ?_⟩
  rw [readEffect_live hopen hlive, turnTaken_eq]
  exact if_pos h.pending

/-- A round of a poll that awaits its answer (R190). -/
theorem Awaits.round {r : Reg} {n : Nat} {s : State} (h : Awaits r n s) (hn : n < 32)
    (left made : Nat) : AwaitedRound r n s left made (Machine.pollLoop r (bit n) left made s) := by
  rcases h.interleave_cases true with hcompleted | ⟨hwaits, hbound⟩
  · exact .now (h.answeredPoll hn (pollMoves_turnTaken true s) h.live
      (by rw [hcompleted]; exact pollMoves_refl _) left made)
  · obtain ⟨hmoves, hcount⟩ := h.read true
    obtain ⟨hopen, hlive, -, hclear, -⟩ := h.of_moves (pollMoves_turnTaken true s)
    have hmatch : pollMatches (bit n) (readResult r (Machine.interleave true s)) = false := by
      rw [hwaits]
      exact pollMatches_of_showsBit hn hopen hlive hclear
    cases left with
    | zero =>
      rw [pollLoop_last r _ made s h.live hmatch, hwaits]
      exact .ended hbound hmoves
    | succ left =>
      rw [pollLoop_round r _ left made s h.live hmatch, hwaits]
      rcases (h.of_moves hmoves).interleave_cases false with hcompleted | ⟨hstill, -⟩
      · have ht := pollMoves_trans hmoves (pollMoves_turnTaken false _)
        have hu := pollMoves_delayBy pollInterval
          (Machine.complete ((readEffect r (s.turnTaken true)).turnTaken false))
        have hdone := (h.complete ht).of_moves hu
        rw [hcompleted]
        exact .next hbound (h.answeredPoll hn ht hdone.live
          (by rw [interleave_idle true _ hdone.idle]; exact hu) left (made + 1))
      · rw [hstill]
        have hturn := pollMoves_turnTaken false (readEffect r (s.turnTaken true))
        refine .on hbound (pollMoves_trans (pollMoves_trans hmoves hturn)
          (pollMoves_delayBy pollInterval _)) ?_
        rw [delayBy_statusReads, turnTaken_eq]
        exact hcount

/-- A poll that awaits its answer matches once its operation has completed, or times out with the
operation still pending (R195). -/
theorem Awaits.outcome {r : Reg} {n : Nat} {s : State} (h : Awaits r n s) (hn : n < 32)
    (left made : Nat) :
    (∃ k, AnsweredPoll r n s k (Machine.pollLoop r (bit n) left made s)) ∨
      ((Machine.pollLoop r (bit n) left made s).matched = false ∧
        pollMoves s (Machine.pollLoop r (bit n) left made s).state) := by
  induction left generalizing made s with
  | zero =>
    have hround := h.round hn 0 made
    generalize Machine.pollLoop r (bit n) 0 made s = o at hround
    cases hround with
    | now answer => exact .inl ⟨_, answer⟩
    | ended _ moves => exact .inr ⟨rfl, moves⟩
  | succ left ih =>
    have hround := h.round hn (left + 1) made
    generalize Machine.pollLoop r (bit n) (left + 1) made s = o at hround
    cases hround with
    | now answer => exact .inl ⟨_, answer⟩
    | next _ answer => exact .inl ⟨_, answer⟩
    | on _ moves _ =>
      rcases ih (h.of_moves moves) (made + 1) with ⟨k, answer⟩ | ⟨hmatch, hmoves⟩
      · exact .inl ⟨k, answer.of_moves moves⟩
      · exact .inr ⟨hmatch, pollMoves_trans moves hmoves⟩

/-- What the bound leaves of status reads where it is not reached (R135). -/
theorem lt_of_boundReached_false {s : State} {k : Nat} (hk : s.cfg.completionBound = some k)
    (h : s.boundReached = false) : s.statusReads + 1 < k := by
  rw [State.boundReached, hk, decide_eq_false_iff_not] at h
  omega

/-- With the bound `k` a poll that awaits its answer is answered by its `k`-th read: every read
before counted as a status read, and the bound is met before the delays are used up (R135). -/
theorem Awaits.answered_by_bound {r : Reg} {n k : Nat} {s : State} (h : Awaits r n s)
    (hn : n < 32) (hk : s.cfg.completionBound = some k) (left made : Nat)
    (hcount : made ≤ s.statusReads) (hfirst : made + 1 ≤ k) (hlast : k ≤ made + left + 1) :
    ∃ j, j ≤ k ∧ AnsweredPoll r n s j (Machine.pollLoop r (bit n) left made s) := by
  induction left generalizing made s with
  | zero =>
    have hround := h.round hn 0 made
    generalize Machine.pollLoop r (bit n) 0 made s = o at hround ⊢
    cases hround with
    | now answer => exact ⟨_, hfirst, answer⟩
    | ended bound _ =>
      have hlt := lt_of_boundReached_false hk bound
      omega
  | succ left ih =>
    have hround := h.round hn (left + 1) made
    generalize Machine.pollLoop r (bit n) (left + 1) made s = o at hround ⊢
    cases hround with
    | now answer => exact ⟨_, hfirst, answer⟩
    | next bound answer =>
      have hlt := lt_of_boundReached_false hk bound
      exact ⟨_, by omega, answer⟩
    | on bound moves count =>
      have hlt := lt_of_boundReached_false hk bound
      obtain ⟨j, hj, answer⟩ := ih (h.of_moves moves) (by rw [pollMoves_cfg moves]; exact hk)
        (made + 1) (by omega) (by omega) (by omega)
      exact ⟨j, hj, answer.of_moves moves⟩

/-- A completion of variant B sets the status bit of what was pending (R133, R134). -/
theorem complete_irqSt {s : State} {p : PendB} (hv : s.cfg.variant = .B)
    (hp : s.ctlB.pend = some p) :
    (complete s).regsB.irqSt = s.regsB.irqSt.raise p.statusBit := by
  cases p with
  | read w =>
    rw [complete_readAccess hv hp, completeRead]
    rfl
  | dpToStb => rw [complete_transition hv hp nofun]; rfl
  | stbToAct => rw [complete_transition hv hp nofun]; rfl
  | actToStb => rw [complete_transition hv hp nofun]; rfl
  | stbToDp => rw [complete_transition hv hp nofun]; rfl

/-- A completion of variant A sets the status bit of what was pending (R161, R165). -/
theorem complete_intStatus {s : State} {p : PendA} (hv : s.cfg.variant = .A)
    (hp : s.ctlA.pend = some p) :
    (complete s).regsA.intStatus = s.regsA.intStatus.raise p.statusBit := by
  rw [complete, hv]
  dsimp only
  rw [completeA, hp]
  cases p with
  | sbpi d c0 c1 => rfl
  | user a => rfl

/-- A completion leaves the configuration (R7). -/
@[simp] theorem complete_cfg (s : State) : (complete s).cfg = s.cfg := by
  rw [complete_frame]

/-- After its completion every read of IRQ_ST shows the bit of what was pending set (R105, R133). -/
theorem showsBit_complete_B {s : State} {p : PendB} (hwf : s.cfg.wf = true)
    (hv : s.cfg.variant = .B) (hp : s.ctlB.pend = some p) :
    showsBit .irqSt (s.cfg.irqPos p.statusBit) true (complete s) := fun x => by
  rw [regValue, irqStValue, complete_cfg, complete_irqSt hv hp]
  exact IrqSt.readValue_known _ _ x (statusBitsDistinct_of_wf hwf).1 _ _
    (by rw [IrqSt.get_raise, if_pos rfl])

/-- After its completion every read of INT_STATUS shows the bit of what was pending set (R120,
R161). -/
theorem showsBit_complete_A {s : State} {p : PendA} (hwf : s.cfg.wf = true)
    (hv : s.cfg.variant = .A) (hp : s.ctlA.pend = some p) :
    showsBit .intStatus (s.cfg.intPos p.statusBit) true (complete s) := fun x => by
  rw [regValue, intStatusValue, complete_cfg, complete_intStatus hv hp]
  exact IntStatus.readValue_known _ _ x (statusBitsDistinct_of_wf hwf).2 _ _
    (by rw [IntStatus.get_raise, if_pos rfl])

/-- A poll of IRQ_ST for the bit of the pending operation awaits its answer where the bit is known
clear (R133, R134, R195). -/
theorem awaits_of_B {s : State} {p : PendB} (hwf : s.cfg.wf = true) (ho : s.gate.isOpen = true)
    (hv : s.cfg.variant = .B) (hp : s.ctlB.pend = some p)
    (hclear : s.regsB.irqSt.get p.statusBit = some false) :
    Awaits .irqSt (s.cfg.irqPos p.statusBit) s := by
  have hbits := (statusBitsDistinct_of_wf hwf).1
  refine ⟨ho, (statusRead_irqSt_iff s).2 hv, by rw [pending_eq_of_B hv, hp]; rfl,
    fun x => IrqSt.readValue_known _ _ x hbits _ _ hclear, fun t ht => ?_⟩
  obtain ⟨_, _, _, rfl⟩ := ht
  exact showsBit_complete_B hwf hv hp

/-- A poll of INT_STATUS for the bit of the pending operation awaits its answer where the bit is
known clear (R161, R165, R195). -/
theorem awaits_of_A {s : State} {p : PendA} (hwf : s.cfg.wf = true) (ho : s.gate.isOpen = true)
    (hv : s.cfg.variant = .A) (hp : s.ctlA.pend = some p)
    (hclear : s.regsA.intStatus.get p.statusBit = some false) :
    Awaits .intStatus (s.cfg.intPos p.statusBit) s := by
  have hbits := (statusBitsDistinct_of_wf hwf).2
  refine ⟨ho, (statusRead_intStatus_iff s).2 hv, by rw [pending_eq_of_A hv, hp]; rfl,
    fun x => IntStatus.readValue_known _ _ x hbits _ _ hclear, fun t ht => ?_⟩
  obtain ⟨_, _, _, rfl⟩ := ht
  exact showsBit_complete_A hwf hv hp

/-- With the bound `k` a poll that awaits its answer matches by its `k`-th read (R135, R190). -/
theorem Awaits.waitFor_matches {r : Reg} {n k : Nat} {s : State} (h : Awaits r n s) (hn : n < 32)
    (hk : s.cfg.completionBound = some k) (hfirst : 1 ≤ k) (hlast : k ≤ 10001) :
    (waitFor r (bit n) s).matched = true ∧ (waitFor r (bit n) s).reads ≤ k := by
  obtain ⟨j, hj, answer⟩ := h.answered_by_bound hn hk (pollTimeout / pollInterval) 0
    (Nat.zero_le _) hfirst hlast
  exact ⟨answer.matched, answer.reads.trans_le hj⟩

/-- Settles O53: on either variant the poll awaits its answer, and the bound brings it. -/
theorem completionBoundMakesThePollMatch : Obligations.CompletionBoundMakesThePollMatch := by
  unfold Obligations.CompletionBoundMakesThePollMatch
  exact ⟨fun s p k hwf ho hv hp hk hfirst hlast hclear =>
      (awaits_of_B hwf ho hv hp hclear).waitFor_matches (irqPos_lt _ _) hk hfirst hlast,
    fun s p k hwf ho hv hp hk hfirst hlast hclear =>
      (awaits_of_A hwf ho hv hp hclear).waitFor_matches (intPos_lt _ _) hk hfirst hlast⟩

end Sys2Proof.Machine

/-! ### The walks -/

namespace Sys2Proof.Machine

/-- Variant B stands in the mode `m` with the gate open, nothing pending, every status bit clear and
the faults `f` recorded: where a walk begins, and where each of its steps ends (R142). -/
structure AtRest (m : Mode) (f : FaultSet) (s : State) : Prop where
  wf : s.cfg.wf = true
  isOpen : s.gate.isOpen = true
  variant : s.cfg.variant = .B
  ctl : s.ctlB = { mode := m, pend := none }
  clear : ∀ b, s.regsB.irqSt.get b = some false
  faults : s.faults = f

/-- At rest nothing is pending. -/
theorem AtRest.idle {m : Mode} {f : FaultSet} {s : State} (h : AtRest m f s) :
    s.pending = false := by
  rw [pending_eq_of_B h.variant, h.ctl]
  rfl

/-- At rest a line that reads MODE_CTRL gives the code of the mode and stays at rest (R131,
R140). -/
theorem AtRest.lineRead_modeCtrl {m : Mode} {f : FaultSet} {s : State} (h : AtRest m f s) :
    lineRead .modeCtrl s = (some (m.enc s.cfg), s.spend) ∧ AtRest m f s.spend := by
  refine ⟨?_, h.wf, h.isOpen, h.variant, h.ctl, h.clear, h.faults⟩
  have hv : Reg.modeCtrl.variant = s.cfg.variant := h.variant.symm
  rw [lineRead, interleave_idle false s h.idle, readResult,
    if_pos ((guardOk_iff .modeCtrl s).2 ⟨h.isOpen, hv⟩), readEffect,
    access_open .modeCtrl _ s h.isOpen hv, countStatusRead_of_not_status rfl, regValue,
    modeCtrlValue, h.ctl]

/-- At rest in the mode a transition starts from, the command of its target issues it (R130,
R132). -/
theorem AtRest.write_issues {f : FaultSet} {s : State} {p : PendB} (h : AtRest p.source f s)
    (hp : ∀ w, p ≠ .read w) : writeModeCtrl (p.target.enc s.cfg) s = s.issueB p := by
  have hidle : s.ctlB.pend = none := congrArg CtlB.pend h.ctl
  have hmode : s.ctlB.mode = p.source := congrArg CtlB.mode h.ctl
  have hwrite := writeModeCtrl_idle h.wf h.isOpen h.variant hidle
  cases p with
  | read w => exact absurd rfl (hp w)
  | dpToStb => exact (hwrite .toSB).trans (issueMode_DS hmode .toSB)
  | stbToAct => exact (hwrite .toACT).trans (issueMode_SB hmode .toACT)
  | actToStb => exact (hwrite .toSB).trans (issueMode_ACT hmode .toSB)
  | stbToDp => exact (hwrite .toDS).trans (issueMode_SB hmode .toDS)

/-- With the guard passed a write of IRQ_ST acknowledges (R104). -/
theorem regWrite_irqSt_open {s : State} (d : Word) (ho : s.gate.isOpen = true)
    (hv : s.cfg.variant = .B) :
    regWrite .irqSt d s =
      { s with regsB := { s.regsB with irqSt := IrqSt.acknowledge s.cfg s.regsB.irqSt d } } := by
  rw [regWrite, writeIrqSt, access_open .irqSt _ s ho hv.symm]

/-- The acknowledge of the one bit that is set leaves the state at rest (R104, R142). -/
theorem AtRest.of_acknowledge {m : Mode} {f : FaultSet} {s : State} {j : IrqBit}
    (hwf : s.cfg.wf = true) (ho : s.gate.isOpen = true) (hv : s.cfg.variant = .B)
    (hctl : s.ctlB = { mode := m, pend := none })
    (hbits : ∀ b, s.regsB.irqSt.get b = if b = j then some true else some false)
    (hf : s.faults = f) : AtRest m f (regWrite .irqSt (bit (s.cfg.irqPos j)) s) := by
  rw [regWrite_irqSt_open _ ho hv]
  refine ⟨hwf, ho, hv, hctl, fun b => ?_, hf⟩
  rw [IrqSt.get_acknowledge, hbits]
  by_cases hb : b = j
  · rw [hb, getLsbD_bit, decide_eq_true (irqPos_lt s.cfg j), decide_eq_true rfl]
    rfl
  · rw [if_neg hb, ite_self]

/-- The completion of a transition and the acknowledge of its bit, with what a poll moves before and
between them, come to rest in the transition's target mode (R132, R133). -/
theorem AtRest.completes {f : FaultSet} {s t u : State} {p : PendB} (h : AtRest p.source f s)
    (hp : ∀ w, p ≠ .read w) (ht : pollMoves (s.issueB p) t) (hu : pollMoves (complete t) u) :
    AtRest p.target f (regWrite .irqSt (bit (s.cfg.irqPos p.statusBit)) u) := by
  obtain ⟨now, reads, env, rfl⟩ := ht
  have hcomplete : complete { s.issueB p with now := now, statusReads := reads, env := env } =
      completeTransition p _ := complete_transition h.variant rfl hp
  rw [hcomplete] at hu
  obtain ⟨_, _, _, rfl⟩ := hu
  refine AtRest.of_acknowledge (j := p.statusBit) ?_ ?_ ?_ ?_ ?_ ?_
  · exact h.wf
  · exact h.isOpen
  · exact h.variant
  · rfl
  · intro b
    rw [← h.clear b]
    exact IrqSt.get_raise s.regsB.irqSt p.statusBit b
  · exact h.faults

/-- A mode command and its wait for the transition `p` come to rest in its target mode where the
wait matches (R140, R141, R195). -/
theorem AtRest.modeStep {f : FaultSet} {s : State} {p : PendB} (h : AtRest p.source f s)
    (hp : ∀ w, p ≠ .read w)
    (hmatch : (modeStep (p.target.enc s.cfg) (bit (s.cfg.irqPos p.statusBit)) s).matched = true) :
    AtRest p.target f
      (Machine.modeStep (p.target.enc s.cfg) (bit (s.cfg.irqPos p.statusBit)) s).state := by
  have hline : lineWrite .modeCtrl (p.target.enc s.cfg) s = s.issueB p := by
    rw [lineWrite, hostLine, interleave_idle false s h.idle]
    exact h.write_issues hp
  have hwaits : Awaits .irqSt (s.cfg.irqPos p.statusBit) (s.issueB p) :=
    awaits_of_B (s := s.issueB p) h.wf h.isOpen h.variant rfl (h.clear p.statusBit)
  rw [Machine.modeStep, hline] at hmatch ⊢
  rcases hwaits.outcome (irqPos_lt _ _) (pollTimeout / pollInterval) 0 with
    ⟨k, -, -, t, u, ht, hu, hstate⟩ | ⟨hfail, -⟩
  · rw [waitFor, hstate]
    exact h.completes hp ht hu
  · cases hfail.symm.trans hmatch

/-- The last transition of a walk comes to rest in its target mode where the walk returns Ok, not
the poll's error `e` (R140, R141). -/
theorem AtRest.modeStep_ok {f : FaultSet} {s t : State} {p : PendB} {e : CallResult}
    (h : AtRest p.source f s) (hp : ∀ w, p ≠ .read w) (he : e ≠ .ok)
    (hok : (if (Machine.modeStep (p.target.enc s.cfg) (bit (s.cfg.irqPos p.statusBit)) s).matched
        then CallResult.ok else e,
      (Machine.modeStep (p.target.enc s.cfg) (bit (s.cfg.irqPos p.statusBit)) s).state) =
        (.ok, t)) : AtRest p.target f t := by
  obtain ⟨hresult, rfl⟩ := Prod.mk.inj hok
  split at hresult
  case isTrue hmatch => exact h.modeStep hp hmatch
  case isFalse => exact absurd hresult he

/-- The last transition of `WALK_UP` comes to rest in ACT where it returns Ok (R140). -/
theorem AtRest.walkUpFromStandby {f : FaultSet} {s t : State} (h : AtRest .SB f s)
    (hok : walkUpFromStandby s = (.ok, t)) : AtRest .ACT f t :=
  AtRest.modeStep_ok (p := .stbToAct) h nofun (by decide) hok

/-- The last transition of `WALK_DOWN` comes to rest in DS where it returns Ok (R141). -/
theorem AtRest.walkDownFromStandby {f : FaultSet} {s t : State} (h : AtRest .SB f s)
    (hok : walkDownFromStandby s = (.ok, t)) : AtRest .DS f t :=
  AtRest.modeStep_ok (p := .stbToDp) h nofun (by decide) hok

/-- From rest in any mode a `WALK_UP` that returns Ok comes to rest in ACT: by the code its first
read gives (R140, R142). -/
theorem AtRest.walkUp {m : Mode} {f : FaultSet} {s t : State} (h : AtRest m f s)
    (hok : walkUp s = (.ok, t)) : AtRest .ACT f t := by
  obtain ⟨⟨hdssb, hdsact, -⟩, ⟨hsbact, -⟩, -⟩ := codes_of_wf h.wf
  obtain ⟨hread, hrest⟩ := h.lineRead_modeCtrl
  rw [Machine.walkUp, hread] at hok
  cases m with
  | DS =>
    dsimp only [Mode.enc] at hok
    rw [if_pos rfl] at hok
    split at hok
    case isTrue hmatch =>
      exact (AtRest.modeStep (p := .dpToStb) hrest nofun hmatch).walkUpFromStandby hok
    case isFalse => cases hok
  | SB =>
    dsimp only [Mode.enc] at hok
    rw [if_neg hdssb.symm, if_pos rfl] at hok
    exact hrest.walkUpFromStandby hok
  | ACT =>
    dsimp only [Mode.enc] at hok
    rw [if_neg hdsact.symm, if_neg hsbact.symm] at hok
    cases hok
    exact hrest

/-- From rest in any mode a `WALK_DOWN` that returns Ok comes to rest in DS: by the code its first
read gives (R141, R142). -/
theorem AtRest.walkDown {m : Mode} {f : FaultSet} {s t : State} (h : AtRest m f s)
    (hok : walkDown s = (.ok, t)) : AtRest .DS f t := by
  obtain ⟨⟨hdssb, hdsact, -⟩, ⟨hsbact, -⟩, -⟩ := codes_of_wf h.wf
  obtain ⟨hread, hrest⟩ := h.lineRead_modeCtrl
  rw [Machine.walkDown, hread] at hok
  cases m with
  | ACT =>
    dsimp only [Mode.enc] at hok
    rw [if_pos rfl] at hok
    split at hok
    case isTrue hmatch =>
      exact (AtRest.modeStep (p := .actToStb) hrest nofun hmatch).walkDownFromStandby hok
    case isFalse => cases hok
  | SB =>
    dsimp only [Mode.enc] at hok
    rw [if_neg hsbact, if_pos rfl] at hok
    exact hrest.walkDownFromStandby hok
  | DS =>
    dsimp only [Mode.enc] at hok
    rw [if_neg hdsact, if_neg hdssb] at hok
    cases hok
    exact hrest

/-- Settles O55: the walks begin at rest, and each comes to rest in its mode. -/
theorem walksReachTheirMode : Obligations.WalksReachTheirMode := by
  unfold Obligations.WalksReachTheirMode
  intro s t hwf ho hv hp hclear
  have hrest : AtRest s.ctlB.mode s.faults s := ⟨hwf, ho, hv, by rw [← hp], hclear, rfl⟩
  exact ⟨fun hok => ⟨(hrest.walkUp hok).ctl, (hrest.walkUp hok).clear, (hrest.walkUp hok).faults⟩,
    fun hok =>
      ⟨(hrest.walkDown hok).ctl, (hrest.walkDown hok).clear, (hrest.walkDown hok).faults⟩⟩

end Sys2Proof.Machine

/-! ### Masked writes over a field that holds none

A masked write of a stored field in its four cases (R102, log entry 12): no bit enabled, a known
field, a field that holds none written in full, and one written in part, where the kept bits are
drawn. -/

namespace Sys2Proof

/-- Some bit of a field of at most 16 bits is enabled (R92). -/
theorem maskedEnable_ne_zero_iff {lo w : Nat} (hw : w ≤ 16) (d : Word) :
    maskedEnable lo w d ≠ 0 ↔ ∃ i, i < w ∧ d.getLsbD (16 + lo + i) = true := by
  rw [Ne, maskedEnable_zero]
  simp only [not_forall, Bool.not_eq_false, exists_prop]
  exact ⟨fun ⟨i, _, hi, hbit⟩ => ⟨i, hi, hbit⟩, fun ⟨i, hi, hbit⟩ => ⟨i, by omega, hi, hbit⟩⟩

/-- Every bit of a field of at most 16 bits is enabled (R92). -/
theorem maskedEnable_eq_onesHalf_iff {lo w : Nat} (hw : w ≤ 16) (d : Word) :
    maskedEnable lo w d = onesHalf w ↔ ∀ i, i < w → d.getLsbD (16 + lo + i) = true := by
  rw [maskedEnable_ones]
  exact ⟨fun h i hi => h i (by omega) hi, fun h i _ hi => h i hi⟩

/-- A masked update draws exactly where it writes a part of a field that holds none (log entry
12). -/
theorem maskedDraws_iff {lo w : Nat} (hw : w ≤ 16) (old : Option Half) (d : Word) :
    maskedDraws lo w old d = true ↔
      old = none ∧ maskedEnable lo w d ≠ 0 ∧ ∃ i, i < w ∧ d.getLsbD (16 + lo + i) = false := by
  simp only [maskedDraws, Bool.and_eq_true, Option.isNone_iff_eq_none, decide_eq_true_eq, Ne,
    maskedEnable_eq_onesHalf_iff hw, not_forall, Bool.not_eq_true, exists_prop, and_assoc]

/-- With no bit enabled a stored field is as it was (R102). -/
theorem maskedField_masked {lo w : Nat} {d : Word} (h : maskedEnable lo w d = 0)
    (old : Option Half) (x : Word) : maskedField lo w old d x = old := by
  rw [maskedField, if_pos h]

/-- With no bit enabled nothing is drawn (R102). -/
theorem maskedDraws_masked {lo w : Nat} {d : Word} (h : maskedEnable lo w d = 0)
    (old : Option Half) : maskedDraws lo w old d = false := by
  simp [maskedDraws, h]

/-- With a bit enabled a field that holds none takes the masked update of the draw (log entry
12). -/
theorem maskedField_drawn {lo w : Nat} {d : Word} (h : maskedEnable lo w d ≠ 0) (x : Word) :
    maskedField lo w none d x = some (maskedBits lo w (x.setWidth 16 &&& onesHalf w) d) := by
  rw [maskedField, if_neg h, Option.getD_none]

/-- Inside the field the masked update of a draw takes the written bits and keeps the draw's. -/
theorem getLsbD_maskedBits_drawn {lo w i : Nat} (hw : w ≤ 16) (d x : Word) (hi : i < w) :
    (maskedBits lo w (x.setWidth 16 &&& onesHalf w) d).getLsbD i =
      if d.getLsbD (16 + lo + i) then d.getLsbD (lo + i) else x.getLsbD i := by
  have hi16 : i < 16 := by omega
  rw [getLsbD_maskedBits lo w _ d i hi16 hi, BitVec.getLsbD_and, getLsbD_setWidth_of_lt x hi16,
    getLsbD_onesHalf, decide_eq_true hi16, decide_eq_true hi, Bool.and_true, Bool.and_true]

/-- Above the field the masked update of a draw is 0. -/
theorem getLsbD_maskedBits_drawn_above {lo w i : Nat} (d x : Word) (hi : w ≤ i) :
    (maskedBits lo w (x.setWidth 16 &&& onesHalf w) d).getLsbD i = false := by
  rw [getLsbD_maskedBits_above lo w _ d i hi]
  exact (toNat_lt_iff_getLsbD _ w).1 (and_onesHalf_fits _ w) i hi

/-- The data of a field of at most 16 bits (R92). -/
theorem getLsbD_maskedData_field {lo w : Nat} (hw : w ≤ 16) (d : Word) (i : Nat) :
    (maskedData lo w d).getLsbD i = (decide (i < w) && d.getLsbD (lo + i)) := by
  have hlow : i < w → i < 16 := fun hi => by omega
  rw [getLsbD_maskedData, ← Bool.decide_and]
  simp only [and_iff_right_of_imp hlow]

end Sys2Proof

namespace Sys2Proof.Machine

/-- The masked update by `d` of the stored field `[lo+w-1:lo]` that holds `old`, where `store` gives
variant A's registers with a new value of the field (R102): the shape of all three such updates. -/
def maskedUpdate (lo w : Nat) (old : Option Half) (store : Option Half → RegsA) (d : Word)
    (s : State) : State :=
  { s with
    regsA := store (maskedField lo w old d s.fresh),
    env := if maskedDraws lo w old d then s.env.spend else s.env }

/-- SBPI_CMD_VALID_PRE's update is the masked update of its count (R113). -/
theorem updateCmdValid_eq (d : Word) (s : State) :
    updateCmdValid d s =
      maskedUpdate 0 16 s.regsA.cmdValid (fun y => { s.regsA with cmdValid := y }) d s := by
  rw [updateCmdValid, spendIf_frame, maskedUpdate]

/-- USER_ADDR's update is the masked update of its byte address (R122). -/
theorem updateUaddr_eq (d : Word) (s : State) :
    updateUaddr d s =
      maskedUpdate 0 s.cfg.userAddrW s.regsA.uaddr (fun y => { s.regsA with uaddr := y }) d s := by
  rw [updateUaddr, spendIf_frame, maskedUpdate]

/-- SBPI_CTRL's select is the masked update of its DAP field (R160). -/
theorem updateDap_eq (d : Word) (s : State) :
    updateDap d s =
      maskedUpdate s.cfg.dapLo s.cfg.dapW s.regsA.dap (fun y => { s.regsA with dap := y }) d s := by
  rw [updateDap, spendIf_frame, maskedUpdate]

section
variable {lo w : Nat} {old : Option Half} {store : Option Half → RegsA} {d : Word} {s : State}

/-- With no bit enabled a masked update changes nothing (R102). -/
theorem maskedUpdate_masked (hkeep : store old = s.regsA) (h : maskedEnable lo w d = 0) :
    maskedUpdate lo w old store d s = s := by
  rw [maskedUpdate, maskedField_masked h, maskedDraws_masked h, hkeep]
  rfl

/-- The masked update of a known field draws nothing (R102). -/
theorem maskedUpdate_known {a : Half} (hold : old = some a) :
    maskedUpdate lo w old store d s =
      { s with regsA := store (some (maskedBits lo w a d)) } := by
  rw [maskedUpdate, hold, maskedField_some, maskedDraws_some]
  rfl

/-- The masked update that writes the whole of a field that holds none stores its data (R102). -/
theorem maskedUpdate_full (hw : 1 ≤ w) (hold : old = none)
    (hall : ∀ i, i < w → d.getLsbD (16 + lo + i) = true) :
    maskedUpdate lo w old store d s = { s with regsA := store (some (maskedData lo w d)) } := by
  rw [maskedUpdate, maskedField_full s.fresh hw hall (by simp [hold]),
    maskedDraws_full lo w old d hall]
  rfl

/-- The masked update that writes a part of a field that holds none takes the rest from the next
draw (log entry 12). -/
theorem maskedUpdate_part (hw : w ≤ 16) (hold : old = none)
    (hsome : ∃ i, i < w ∧ d.getLsbD (16 + lo + i) = true)
    (hnotall : ¬∀ i, i < w → d.getLsbD (16 + lo + i) = true) :
    maskedUpdate lo w old store d s =
      { s with
        regsA := store (some (maskedBits lo w (s.fresh.setWidth 16 &&& onesHalf w) d)),
        env := s.env.spend } := by
  have hen := (maskedEnable_ne_zero_iff hw d).2 hsome
  have hdraws : maskedDraws lo w old d = true :=
    (maskedDraws_iff hw old d).2 ⟨hold, hen, by simpa using hnotall⟩
  rw [maskedUpdate, hdraws, hold, maskedField_drawn hen]
  rfl

/-- The model's choice of log entry 12 for any masked update of a field that holds none. -/
theorem maskedUpdate_over_none (hw : w ≤ 16) (hkeep : store old = s.regsA) (hold : old = none) :
    ((¬∃ i, i < w ∧ d.getLsbD (16 + lo + i) = true) → maskedUpdate lo w old store d s = s) ∧
      ((∃ i, i < w ∧ d.getLsbD (16 + lo + i) = true) →
        (¬∀ i, i < w → d.getLsbD (16 + lo + i) = true) →
        ∃ y : Half,
          ((∀ i, i < w → y.getLsbD i =
              if d.getLsbD (16 + lo + i) then d.getLsbD (lo + i) else s.fresh.getLsbD i) ∧
            ∀ i, w ≤ i → y.getLsbD i = false) ∧
          maskedUpdate lo w old store d s =
            { s with regsA := store (some y), env := s.env.spend }) := by
  refine ⟨fun hno => maskedUpdate_masked hkeep ?_, fun hsome hnotall =>
    ⟨_, ⟨fun i hi => getLsbD_maskedBits_drawn hw d s.fresh hi,
      fun i hi => getLsbD_maskedBits_drawn_above d s.fresh hi⟩,
      maskedUpdate_part hw hold hsome hnotall⟩⟩
  exact not_not.1 fun h => hno ((maskedEnable_ne_zero_iff hw d).1 h)

end

end Sys2Proof.Machine

/-! ### A write of SBPI_CTRL by its cases -/

namespace Sys2Proof.Machine

/-- A pulse is its mask bit with its data bit (R102, R160, R164). -/
theorem pulseSet_iff (b : Nat) (d : Word) :
    pulseSet b d = true ↔ d.getLsbD (16 + b) = true ∧ d.getLsbD b = true := by
  rw [pulseSet, Bool.and_eq_true]

section
variable {s : State} {d : Word}

/-- A write of SBPI_CTRL that starts or selects while an operation is pending faults `BusyWrite`
(R160). -/
theorem exec_w32SbpiCtrl_busy (ho : s.gate.isOpen = true) (hv : s.cfg.variant = .A)
    (hp : s.ctlA.pend ≠ none)
    (hd : pulseSet s.cfg.sbpiEnBit.val d = true ∨
      maskedEnable s.cfg.dapLo s.cfg.dapW d ≠ 0) :
    exec (.w32SbpiCtrl d) s = .next (s.raise .busyWrite) := by
  refine congrArg Host.Outcome.next ((access_open .sbpiCtrl _ s ho hv.symm).trans (if_pos ?_))
  rw [Option.isSome_iff_ne_none.2 hp]
  simpa using hd

/-- A write of SBPI_CTRL without a start is its select where nothing is pending or nothing is
selected (R160). -/
theorem exec_w32SbpiCtrl_select (ho : s.gate.isOpen = true) (hv : s.cfg.variant = .A)
    (hstart : pulseSet s.cfg.sbpiEnBit.val d = false)
    (hfree : s.ctlA.pend = none ∨ maskedEnable s.cfg.dapLo s.cfg.dapW d = 0) :
    exec (.w32SbpiCtrl d) s = .next (updateDap d s) := by
  refine congrArg Host.Outcome.next ((access_open .sbpiCtrl _ s ho hv.symm).trans ?_)
  dsimp only
  rw [hstart, if_neg (by rcases hfree with h | h <;> simp [h]), if_neg Bool.false_ne_true]

/-- A write of SBPI_CTRL with a start and nothing pending is the start (R160). -/
theorem exec_w32SbpiCtrl_start (ho : s.gate.isOpen = true) (hv : s.cfg.variant = .A)
    (hp : s.ctlA.pend = none) (hstart : pulseSet s.cfg.sbpiEnBit.val d = true) :
    exec (.w32SbpiCtrl d) s = .next (startSbpi d s) := by
  refine congrArg Host.Outcome.next ((access_open .sbpiCtrl _ s ho hv.symm).trans ?_)
  dsimp only
  rw [hp, if_neg (by simp), if_pos hstart]

/-- What the registers hold after the select, for the start's test (R160). -/
theorem eccCommandReady_updateDap_iff (d : Word) (s : State) :
    eccCommandReady (updateDap d s) = true ↔
      s.regsA.cmdValid = some s.cfg.cmdValidValue ∧
        (updateDap d s).regsA.dap = some s.cfg.dapEcc ∧
        s.regsA.cmd0 = some s.cfg.sbpiCmd0Word ∧
        (s.regsA.cmd1 = some s.cfg.sbpiCmd1Off ∨ s.regsA.cmd1 = some s.cfg.sbpiCmd1On) := by
  rw [eccCommandReady_iff, updateDap_frame]

/-- A start issues the documented ECC write the registers hold after the select (R160). -/
theorem startSbpi_ready {c1 : Word} (h : eccCommandReady (updateDap d s) = true)
    (hc1 : s.regsA.cmd1 = some c1) :
    startSbpi d s = (updateDap d s).issueA (.sbpi s.cfg.dapEcc s.cfg.sbpiCmd0Word c1) := by
  obtain ⟨-, hdap, hcmd0, -⟩ := (eccCommandReady_iff _).1 h
  have hcmd1 : (updateDap d s).regsA.cmd1 = some c1 := by rw [updateDap_frame]; exact hc1
  have hcfg : (updateDap d s).cfg = s.cfg := by rw [updateDap_frame]
  rw [startSbpi]
  rw [if_pos h, hdap, hcmd0, hcmd1, hcfg]
  rfl

/-- A start of anything else is refused with no effect, not even the select (R160, R265, log entry
13). -/
theorem startSbpi_refused (h : eccCommandReady (updateDap d s) = false) :
    startSbpi d s = s.refuse .sbpiCommandUnsupported := by
  rw [startSbpi]
  rw [if_neg (Bool.eq_false_iff.1 h)]

end

/-- The DAP field has at least one bit (R7). -/
theorem dapW_pos_of_wf {c : Cfg} (h : c.wf = true) : 1 ≤ c.dapW := by
  simp only [Cfg.wf, Cfg.widthsFit, Bool.and_eq_true, decide_eq_true_eq] at h
  omega

/-- The DAP field is at most 16 bits wide (R7). -/
theorem dapW_le_of_wf {c : Cfg} (h : c.wf = true) : c.dapW ≤ 16 :=
  (Nat.le_add_left _ _).trans (dapField_of_wf h)

/-- Settles O25: each of the three writes is a masked update of its field. -/
theorem maskedWriteOverAnUnknownField : Obligations.MaskedWriteOverAnUnknownField := by
  unfold Obligations.MaskedWriteOverAnUnknownField
  intro s d hwf ho hv
  dsimp only
  obtain ⟨-, hw16⟩ := userAddrW_of_wf hwf
  refine ⟨fun hp hnone => ?_, fun hp hnone => ?_, fun hp hnone hstart => ?_⟩
  · rw [exec_w32SbpiCmdValidPre_free d ho hv hp, updateCmdValid_eq]
    simp only [Host.Outcome.next.injEq]
    exact maskedUpdate_over_none (le_refl 16) rfl hnone
  · rw [exec_w32UserAddr_free d ho hv hp, updateUaddr_eq]
    simp only [Host.Outcome.next.injEq]
    exact maskedUpdate_over_none hw16 rfl hnone
  · rw [exec_w32SbpiCtrl_select ho hv hstart (.inl hp), updateDap_eq]
    simp only [Host.Outcome.next.injEq]
    exact maskedUpdate_over_none (dapW_le_of_wf hwf) rfl hnone

/-- Settles O27: busy, harmless, and the select over a known field and over none. -/
theorem sbpiCtrlSelectsTheDapAddress : Obligations.SbpiCtrlSelectsTheDapAddress := by
  unfold Obligations.SbpiCtrlSelectsTheDapAddress
  intro s d hwf ho hv
  dsimp only
  have hw := dapW_le_of_wf hwf
  rw [← maskedEnable_ne_zero_iff hw d]
  refine ⟨fun hp hd => exec_w32SbpiCtrl_busy ho hv hp hd, fun hstart hno => ?_,
    fun hp hstart old hold => ⟨maskedBits s.cfg.dapLo s.cfg.dapW old d, ?_, fun i hi => ?_,
      getLsbD_maskedBits_above _ _ old d⟩,
    fun hp hstart hnone hall => ⟨maskedData s.cfg.dapLo s.cfg.dapW d, ?_,
      getLsbD_maskedData_field hw d⟩⟩
  · have h0 := not_not.1 hno
    rw [exec_w32SbpiCtrl_select ho hv hstart (.inr h0), updateDap_eq,
      maskedUpdate_masked rfl h0]
  · rw [exec_w32SbpiCtrl_select ho hv hstart (.inl hp), updateDap_eq, maskedUpdate_known hold]
  · exact getLsbD_maskedBits _ _ old d i (by omega) hi
  · rw [exec_w32SbpiCtrl_select ho hv hstart (.inl hp), updateDap_eq,
      maskedUpdate_full (dapW_pos_of_wf hwf) hnone hall]

/-- Settles O28: the field and the supply are the select's; the start issues where the registers
then hold the ECC write. -/
theorem sbpiStartIssuesOnlyTheEccWrite : Obligations.SbpiStartIssuesOnlyTheEccWrite := by
  unfold Obligations.SbpiStartIssuesOnlyTheEccWrite
  intro s d hwf ho hv hp hen hbit
  dsimp only
  have hw := dapW_le_of_wf hwf
  have hready := eccCommandReady_updateDap_iff d s
  rw [← maskedEnable_ne_zero_iff hw d, ← maskedDraws_iff hw,
    exec_w32SbpiCtrl_start ho hv hp ((pulseSet_iff _ d).2 ⟨hen, hbit⟩)]
  refine ⟨(updateDap d s).regsA.dap, (updateDap d s).env, fun old hold => ?_,
    fun hnone hsel => ?_, fun hnone hno => ?_, fun hpart => ?_, fun hpart => ?_,
    fun hr c1 hc1 => ?_, fun hr => ?_⟩
  · rw [updateDap_eq, maskedUpdate_known hold]
    exact ⟨_, rfl, fun i hi => getLsbD_maskedBits _ _ old d i (by omega) hi,
      getLsbD_maskedBits_above _ _ old d⟩
  · rw [updateDap_eq, maskedUpdate, hnone]
    exact ⟨_, maskedField_drawn hsel s.fresh,
      fun i hi => getLsbD_maskedBits_drawn hw d s.fresh hi,
      fun i hi => getLsbD_maskedBits_drawn_above d s.fresh hi⟩
  · rw [updateDap_eq, maskedUpdate_masked rfl (not_not.1 hno), hnone]
  · rw [updateDap_eq]
    exact if_pos hpart
  · rw [updateDap_eq]
    exact if_neg hpart
  · rw [startSbpi_ready (hready.2 hr) hc1, updateDap_frame]
    rfl
  · rw [startSbpi_refused (by rwa [← Bool.not_eq_true, hready])]
    rfl

end Sys2Proof.Machine

/-! ### User mode and the user read -/

namespace Sys2Proof.Machine

section
variable {s : State} {d : Word}

/-- With the guard passed a write of USER_CTRL tests its mask bit, then for a pending user read
(R163). -/
theorem exec_w32UserCtrl_open (ho : s.gate.isOpen = true) (hv : s.cfg.variant = .A) :
    exec (.w32UserCtrl d) s = .next
      (if d.getLsbD (16 + s.cfg.useUserBit.val) then
        if s.userPending then s.raise .busyWrite
        else setUserMode (d.getLsbD s.cfg.useUserBit.val) s
      else s) :=
  congrArg Host.Outcome.next (access_open .userCtrl _ s ho hv.symm)

/-- An enabled write of USER_CTRL with no user read pending sets user mode (R163). -/
theorem exec_w32UserCtrl_free (ho : s.gate.isOpen = true) (hv : s.cfg.variant = .A)
    (hen : d.getLsbD (16 + s.cfg.useUserBit.val) = true)
    (hp : ¬∃ a, s.ctlA.pend = some (.user a)) :
    exec (.w32UserCtrl d) s = .next (setUserMode (d.getLsbD s.cfg.useUserBit.val) s) := by
  rw [exec_w32UserCtrl_open ho hv, if_pos hen, if_neg (mt (userPending_iff s).1 hp)]

/-- User mode entered holds the time of entry (R163). -/
theorem setUserMode_enter (h : s.regsA.useUser = false) :
    setUserMode true s = { s with
      regsA := { s.regsA with useUser := true },
      ctlA := { s.ctlA with userOnAt := some s.now } } := by
  rw [setUserMode, h]
  rfl

/-- User mode turned on again keeps its time of entry (R163). -/
theorem setUserMode_stay (h : s.regsA.useUser = true) : setUserMode true s = s := by
  rw [setUserMode, if_pos rfl, if_pos h, ← h]

/-- With the guard passed a write of USER_ENABLE makes its tests in the rule's order (R164). -/
theorem exec_w32UserEnable_open (ho : s.gate.isOpen = true) (hv : s.cfg.variant = .A) :
    exec (.w32UserEnable d) s = .next
      (if pulseSet s.cfg.fsmEnBit.val d then
        if s.ctlA.pend.isSome then s.raise .busyWrite
        else if !s.regsA.useUser then s.raise .userModeOff
        else if unsettled s then s.raise .settleViolation
        else issueUserRead s
      else s) :=
  congrArg Host.Outcome.next (access_open .userEnable _ s ho hv.symm)

/-- User mode is unsettled for 5 time-units from its entry (R164, R302). -/
theorem unsettled_iff {t0 : Nat} (h : s.ctlA.userOnAt = some t0) :
    unsettled s = true ↔ s.now - t0 < 5 := by
  rw [unsettled, h]
  exact decide_eq_true_iff

/-- A user read of a known byte address latches it (R164). -/
theorem issueUserRead_known {a : Half} (h : s.regsA.uaddr = some a) :
    issueUserRead s = s.issueA (.user a) := by
  rw [issueUserRead, h]

/-- A user read with no known byte address latches a drawn one (R164). -/
theorem issueUserRead_drawn (h : s.regsA.uaddr = none) :
    issueUserRead s =
      s.spend.issueA (.user (s.fresh.setWidth 16 &&& onesHalf s.cfg.userAddrW)) := by
  rw [issueUserRead, h]

end

/-- Settles O29: the mask bit, the pending user read, then the three ways to set user mode. -/
theorem userCtrlEntersAndLeavesUserMode : Obligations.UserCtrlEntersAndLeavesUserMode := by
  unfold Obligations.UserCtrlEntersAndLeavesUserMode
  intro s d ho hv
  dsimp only
  refine ⟨fun hen => ?_, fun hen hp => ?_, fun hen hp hon hu => ?_, fun hen hp hon hu => ?_,
    fun hen hp hon => ?_⟩
  · rw [exec_w32UserCtrl_open ho hv, if_neg hen]
  · rw [exec_w32UserCtrl_open ho hv, if_pos hen, if_pos ((userPending_iff s).2 hp)]
    rfl
  · rw [exec_w32UserCtrl_free ho hv hen hp, hon, setUserMode_enter hu]
  · rw [exec_w32UserCtrl_free ho hv hen hp, hon, setUserMode_stay hu]
  · rw [exec_w32UserCtrl_free ho hv hen hp, Bool.eq_false_iff.2 hon]
    rfl

/-- Settles O30: the tests in order, and where all pass the read of the address held or drawn. -/
theorem userEnablePulseIssuesAUserRead : Obligations.UserEnablePulseIssuesAUserRead := by
  unfold Obligations.UserEnablePulseIssuesAUserRead
  intro s d ho hv htimes
  dsimp only
  obtain ⟨⟨hheld, hpast⟩, -⟩ := htimes
  rw [← pulseSet_iff, exec_w32UserEnable_open ho hv]
  refine ⟨fun hpulse => ?_, fun hpulse hp => ?_, fun hpulse hp hu => ?_, fun hpulse hp hu => ?_⟩
  · rw [if_neg hpulse]
  · rw [if_pos hpulse, if_pos (Option.isSome_iff_ne_none.2 hp)]
    rfl
  · rw [if_pos hpulse, hp, hu]
    rfl
  · obtain ⟨t0, ht0⟩ := Option.isSome_iff_exists.1 (hheld.trans hu)
    have hsettle := unsettled_iff ht0
    have hle := hpast t0 ht0
    rw [if_pos hpulse, hp, if_neg (by simp), hu, if_neg (by simp)]
    refine ⟨t0, ht0, hle, fun hearly => ?_, fun hlate => ?_⟩
    · rw [if_pos (hsettle.2 (by omega))]
      rfl
    · rw [if_neg (mt hsettle.1 (by omega))]
      refine ⟨fun a ha => ?_, fun hnone =>
        ⟨_, and_onesHalf_fits (s.fresh.setWidth 16) s.cfg.userAddrW, ?_⟩⟩
      · rw [issueUserRead_known ha]
        rfl
      · rw [issueUserRead_drawn hnone]
        rfl

end Sys2Proof.Machine

/-! ### Completions of variant A -/

namespace Sys2Proof.Machine

/-- A completion of an SBPI command (R161). -/
theorem complete_sbpi {s : State} {dap : Half} {c0 c1 : Word} (hv : s.cfg.variant = .A)
    (hp : s.ctlA.pend = some (.sbpi dap c0 c1)) : complete s = completeSbpi c1 s := by
  rw [complete, hv]
  dsimp only
  rw [completeA, hp]

/-- A completion of a user read (R165). -/
theorem complete_user {s : State} {a : Half} (hv : s.cfg.variant = .A)
    (hp : s.ctlA.pend = some (.user a)) : complete s = completeUser a s := by
  rw [complete, hv]
  dsimp only
  rw [completeA, hp]

/-- The words that turn ECC off and on differ (R7). -/
theorem sbpiCmd1Off_ne_sbpiCmd1On {c : Cfg} (h : c.wf = true) : c.sbpiCmd1Off ≠ c.sbpiCmd1On := by
  have hne : c.eccDisable ≠ c.eccEnable := by
    simp only [Cfg.wf, Cfg.payloadsDistinct, Bool.and_eq_true, decide_eq_true_eq] at h
    tauto
  rw [Cfg.sbpiCmd1Off, Cfg.sbpiCmd1On]
  exact fun he => hne (by simpa using congrArg (BitVec.setWidth 8) he)

/-- Of the two documented payloads the enable one leaves ECC on, the other off (R162). -/
theorem sbpiEffect_of_payload {c : Cfg} (h : c.wf = true) {c1 : Word}
    (hc1 : c1 = c.sbpiCmd1Off ∨ c1 = c.sbpiCmd1On) (ecc : Bool) :
    sbpiEffect c c1 ecc = decide (c1 = c.sbpiCmd1On) := by
  have hne := sbpiCmd1Off_ne_sbpiCmd1On h
  rcases hc1 with rfl | rfl
  · simp [sbpiEffect, hne]
  · simp [sbpiEffect, hne.symm]

/-- A byte is readable with ECC off and inside the array (R165, R166). -/
theorem readableByte_iff (s : State) (a : Half) :
    readableByte s a = true ↔ s.ctlA.eccEn = false ∧ a.toNat < s.cfg.otpBytes := by
  simp only [readableByte, Bool.and_eq_true, Bool.not_eq_true', decide_eq_true_eq]

/-- Settles O47: an SBPI command by its payload, a user read by whether its byte is readable. -/
theorem completionOfVariantA : Obligations.CompletionOfVariantA := by
  unfold Obligations.CompletionOfVariantA
  intro s hwf hv
  refine ⟨fun dap c0 c1 hp hc1 => ?_, fun a hp => ?_⟩
  · rw [complete_sbpi hv hp, completeSbpi, sbpiEffect_of_payload hwf hc1]
    rfl
  · rw [complete_user hv hp, completeUser]
    refine ⟨fun hecc hin => ?_, fun hout => ?_⟩
    · rw [(readableByte_iff s a).2 ⟨hecc, hin⟩]
      rfl
    · have hr : readableByte s a = false := by
        rw [← Bool.not_eq_true, readableByte_iff, not_and_or, Bool.not_eq_false, not_lt]
        exact hout
      rw [hr]
      rfl

end Sys2Proof.Machine

/-! ### The frame of a poll's lines -/

namespace Sys2Proof.Machine

/-- A line of a poll stores no byte, whatever register it names (R66). -/
theorem pollStep_sameBytes (p : Poll) (s : State) : sameBytes s (pollStep p s) := by
  apply sameBytes_of_stores
  unfold pollStep
  cases p.line with
  | read => dsimp only; rw [pollRead_frame]; rfl
  | acknowledge => dsimp only; rw [pollAcknowledge, regWrite_frame]; rfl
  | delay => rfl

/-- The read line is `pollRead` (R190). -/
theorem pollStep_at_read {p : Poll} (h : p.line = .read) (s : State) :
    pollStep p s = pollRead p s := by
  rw [pollStep, h]

/-- The acknowledge line is `pollAcknowledge` (R190, R192). -/
theorem pollStep_at_acknowledge {p : Poll} (h : p.line = .acknowledge) (s : State) :
    pollStep p s = pollAcknowledge p s := by
  rw [pollStep, h]

/-- The delay line is `pollDelay` (R190). -/
theorem pollStep_at_delay {p : Poll} (h : p.line = .delay) (s : State) :
    pollStep p s = pollDelay p s := by
  rw [pollStep, h]

/-- A `waitfor` leaves every variable but its own (R190). -/
theorem startPoll_getVar (r : Reg) (n : Var) (m : Word) (s : State) (k : Var) (h : k ≠ n) :
    (startPoll r n m s).getVar k = s.getVar k := by
  rcases startPoll_cases r n m s with ⟨-, e⟩ | e <;> rw [e]
  · exact pollStep_getVar { status := r, dst := n, mask := m, delays := 0, line := .read } s k h
  · rfl

/-- Settles O41: the first line by the frame of a `waitfor`, a later one by the frame of the read,
of the delay, or of the status register's write. -/
theorem pollChangesOnlyItsVariantAndTime : Obligations.PollChangesOnlyItsVariantAndTime := by
  unfold Obligations.PollChangesOnlyItsVariantAndTime
  refine ⟨fun s t n m h => ?_, fun s p => ⟨fun hl => ?_, fun hl => ?_, fun hl hr => ?_,
    fun hl hr => ?_, fun k hk => pollStep_getVar p s k hk, pollStep_sameBytes p s⟩⟩
  · rcases h with h | h <;> refine ⟨?_, ?_, exec_sameBytes h⟩ <;> cases h
    · exact startPoll_frame .irqSt n m s
    · exact startPoll_getVar .irqSt n m s
    · exact startPoll_frame .intStatus n m s
    · exact startPoll_getVar .intStatus n m s
  · rw [pollStep_at_read hl]
    exact pollRead_frame p s
  · exact pollStep_at_delay hl s
  · rw [pollStep_at_acknowledge hl, pollAcknowledge, hr, regWrite, writeIrqSt_frame rfl]
    rfl
  · rw [pollStep_at_acknowledge hl, pollAcknowledge, hr, regWrite, writeIntStatus_frame rfl]
    rfl

end Sys2Proof.Machine

/-! ### A poll that matches at its first read -/

namespace Sys2Proof.Machine

/-- A status read is of a status register (R135). -/
theorem isStatus_of_statusRead {r : Reg} {s : State} (h : s.statusRead r = true) :
    r.isStatus = true :=
  (Bool.and_eq_true_iff.1 h).1

/-- A status read is of a register of the live variant (R90, R135). -/
theorem variant_of_statusRead {r : Reg} {s : State} (h : s.statusRead r = true) :
    r.variant = s.cfg.variant :=
  of_decide_eq_true (Bool.and_eq_true_iff.1 h).2

/-- A mask that names a set bit of the value read matches (R191). -/
theorem pollMatches_of_set {m x : Word} {i : Nat} (hm : m.getLsbD i = true)
    (hx : x.getLsbD i = true) : pollMatches m (some x) = true := by
  rw [pollMatches, decide_eq_true_eq]
  intro hzero
  have hand : (x &&& m).getLsbD i = true := by rw [BitVec.getLsbD_and, hm, hx]; rfl
  simp [hzero] at hand

/-- With the guard passed a read of a register gives what it shows (R103). -/
theorem readResult_live {r : Reg} {s : State} (ho : s.gate.isOpen = true)
    (hl : s.statusRead r = true) : readResult r s = some (regValue r s s.fresh) :=
  if_pos ((guardOk_iff r s).2 ⟨ho, variant_of_statusRead hl⟩)

/-- The read line of a poll that matches: the acknowledge comes next (R190). -/
theorem pollRead_match {p : Poll} {s : State}
    (h : pollMatches p.mask (readResult p.status s) = true) :
    pollRead p s = { readEffect p.status s with poll := some { p with line := .acknowledge } } := by
  rw [pollRead, h]
  rfl

/-- The first read of a `waitfor` on the live status register, with the gate open and nothing
pending, that matches: the time and the registers stay and the acknowledge comes next (R190). -/
theorem startPoll_match {r : Reg} {n : Var} {m : Word} {s : State} (ho : s.gate.isOpen = true)
    (hl : s.statusRead r = true) (hidle : s.pending = false)
    (hm : pollMatches m (some (regValue r s s.fresh)) = true) :
    startPoll r n m s = { s with
      poll := some { status := r, dst := n, mask := m, delays := 0, line := .acknowledge },
      env := s.env.spend } := by
  have hv : r.variant = s.cfg.variant := variant_of_statusRead hl
  have hread : readEffect r s = { s with env := s.env.spend } := by
    rw [readEffect_live ho hl, hidle]
    rfl
  rw [startPoll, if_pos hv, pollRead_match (by rw [readResult_live ho hl]; exact hm), hread]

/-- With the guard passed a write of INT_STATUS acknowledges (R119). -/
theorem regWrite_intStatus_open {s : State} (d : Word) (ho : s.gate.isOpen = true)
    (hv : s.cfg.variant = .A) :
    regWrite .intStatus d s =
      { s with
        regsA := { s.regsA with
          intStatus := IntStatus.acknowledge s.cfg s.regsA.intStatus d } } := by
  rw [regWrite, writeIntStatus, access_open .intStatus _ s ho hv.symm]

/-- With nothing pending the step inside a poll is its next line (R190). -/
theorem step_of_poll_idle {s : State} {p : Poll} (hidle : s.pending = false)
    (hp : s.poll = some p) : step s = .next (pollStep p s) :=
  (step_idle s hidle).trans (hostStep_of_poll s p hp)

/-- With nothing pending the acknowledge of a poll of IRQ_ST is the next step: it clears the bits of
the mask and leaves 1 in the variable (R104, R190, R192). -/
theorem step_acknowledge_irqSt {s : State} {n : Var} {m : Word} {i : Nat}
    (ho : s.gate.isOpen = true) (hv : s.cfg.variant = .B) (hidle : s.ctlB.pend = none)
    (hp : s.poll = some
      { status := .irqSt, dst := n, mask := m, delays := i, line := .acknowledge }) :
    step s = .next { s with
      regsB := { s.regsB with irqSt := IrqSt.acknowledge s.cfg s.regsB.irqSt m },
      v := s.v.set n (some 1), poll := none } := by
  rw [step_of_poll_idle (by rw [pending_eq_of_B hv, hidle]; rfl) hp, pollStep_at_acknowledge rfl,
    pollAcknowledge, regWrite_irqSt_open m ho hv]
  rfl

/-- With nothing pending the acknowledge of a poll of INT_STATUS is the next step: it clears the
bits of the mask and leaves 1 in the variable (R119, R190, R192). -/
theorem step_acknowledge_intStatus {s : State} {n : Var} {m : Word} {i : Nat}
    (ho : s.gate.isOpen = true) (hv : s.cfg.variant = .A) (hidle : s.ctlA.pend = none)
    (hp : s.poll = some
      { status := .intStatus, dst := n, mask := m, delays := i, line := .acknowledge }) :
    step s = .next { s with
      regsA := { s.regsA with intStatus := IntStatus.acknowledge s.cfg s.regsA.intStatus m },
      v := s.v.set n (some 1), poll := none } := by
  rw [step_of_poll_idle (by rw [pending_eq_of_A hv, hidle]; rfl) hp, pollStep_at_acknowledge rfl,
    pollAcknowledge, regWrite_intStatus_open m ho hv]
  rfl

/-- Settles O48: every read shows the set bit, so the first one matches; the acknowledge then is the
host's step, since nothing is pending. -/
theorem pollMatchesASetBitAtOnce : Obligations.PollMatchesASetBitAtOnce := by
  unfold Obligations.PollMatchesASetBitAtOnce
  refine ⟨fun s n m b hwf ho hv hp hset hmask =>
      ⟨IrqSt.acknowledge s.cfg s.regsB.irqSt m, ?_, ?_, IrqSt.get_acknowledge _ _ m⟩,
    fun s n m b hwf ho hv hp hset hmask =>
      ⟨IntStatus.acknowledge s.cfg s.regsA.intStatus m, ?_, ?_, IntStatus.get_acknowledge _ _ m⟩⟩
  · have hshown := IrqSt.readValue_known s.cfg s.regsB.irqSt s.fresh
      (statusBitsDistinct_of_wf hwf).1 b true hset
    exact congrArg Host.Outcome.next (startPoll_match ho ((statusRead_irqSt_iff s).2 hv)
      (by rw [pending_eq_of_B hv, hp]; rfl) (pollMatches_of_set hmask hshown))
  · refine step_acknowledge_irqSt ?_ ?_ ?_ rfl
    exacts [ho, hv, hp]
  · have hshown := IntStatus.readValue_known s.cfg s.regsA.intStatus s.fresh
      (statusBitsDistinct_of_wf hwf).2 b true hset
    exact congrArg Host.Outcome.next (startPoll_match ho ((statusRead_intStatus_iff s).2 hv)
      (by rw [pending_eq_of_A hv, hp]; rfl) (pollMatches_of_set hmask hshown))
  · refine step_acknowledge_intStatus ?_ ?_ ?_ rfl
    exacts [ho, hv, hp]

end Sys2Proof.Machine

/-! ### The bound on a poll -/

namespace Sys2Proof.Machine

/-- Between two host steps the delay clock stands (R22). -/
@[simp] theorem interleave_now (b : Bool) (s : State) : (interleave b s).now = s.now := by
  rcases interleave_cases b s with e | ⟨_, e⟩ <;> rw [e]
  · rw [turnTaken_eq]
  · rw [complete_frame, turnTaken_eq]

/-- What the bound says of a poll `o` begun at the time `now` with `left` delays to go and `made`
reads made: without a match every delay was made and one read more, and a match came after one delay
for each read made before it (R190, R193). -/
def withinBound (now left made : Nat) (o : PollResult) : Prop :=
  (o.matched = false → o.reads = made + left + 1 ∧ o.state.now = now + left) ∧
    (o.matched = true → made + 1 ≤ o.reads ∧ o.reads ≤ made + left + 1 ∧
      o.state.now + made + 1 = now + o.reads)

/-- A read that matches is within the bound (R190). -/
theorem withinBound_match (now left made : Nat) {t : State} (ht : t.now = now) :
    withinBound now left made { matched := true, reads := made + 1, state := t } := by
  refine ⟨nofun, fun _ => ⟨le_refl _, ?_, ?_⟩⟩
  · dsimp only; omega
  · dsimp only; omega

/-- A round with one delay begins a poll with one delay less to go, one time-unit later (R190). -/
theorem withinBound_round {now left made : Nat} {o : PollResult}
    (h : withinBound (now + 1) left (made + 1) o) : withinBound now (left + 1) made o := by
  obtain ⟨htimedOut, hmatched⟩ := h
  refine ⟨fun ho => ?_, fun ho => ?_⟩
  · obtain ⟨hreads, hnow⟩ := htimedOut ho
    omega
  · obtain ⟨hfirst, hlast, hnow⟩ := hmatched ho
    omega

/-- A poll of any register ends within its bound, whatever the controller does (R193, R194). -/
theorem pollLoop_withinBound (r : Reg) (m : Word) (left made : Nat) (s : State) :
    withinBound s.now left made (pollLoop r m left made s) := by
  induction left generalizing made s with
  | zero =>
    unfold pollLoop
    dsimp only
    split
    · exact withinBound_match _ _ _ (by simp)
    · exact ⟨fun _ => ⟨rfl, by simp⟩, nofun⟩
  | succ left ih =>
    unfold pollLoop
    dsimp only
    split
    · exact withinBound_match _ _ _ (by simp)
    · refine withinBound_round ?_
      have hround := ih (made + 1) (delayBy pollInterval
        (interleave false (readEffect r (interleave (s.statusRead r) s))))
      simpa using hround

/-- Settles O50: the bound of `pollLoop_withinBound` with every delay to go and no read made. -/
theorem pollIsBounded : Obligations.PollIsBounded := by
  unfold Obligations.PollIsBounded
  intro r m s
  obtain ⟨htimedOut, hmatched⟩ := pollLoop_withinBound r m (pollTimeout / pollInterval) 0 s
  refine ⟨fun ho => ?_, fun ho => ?_⟩
  · obtain ⟨hreads, hnow⟩ := htimedOut ho
    exact ⟨hreads, hnow⟩
  · obtain ⟨hfirst, hlast, hnow⟩ := hmatched ho
    exact ⟨hfirst, hlast, hnow⟩

end Sys2Proof.Machine

/-! ### What a poll's outcome tells of the completion -/

namespace Sys2Proof.Machine

/-- An acknowledge of one bit leaves IRQ_ST with that bit clear (R192). -/
theorem IrqSt.get_acknowledge_bit (c : Cfg) (q : IrqSt) (b : IrqBit) :
    (IrqSt.acknowledge c q (bit (c.irqPos b))).get b = some false := by
  rw [IrqSt.get_acknowledge, getLsbD_bit, decide_eq_true (irqPos_lt c b), decide_eq_true rfl]
  rfl

/-- An acknowledge of one bit leaves INT_STATUS with that bit clear (R192). -/
theorem IntStatus.get_acknowledge_bit (c : Cfg) (q : IntStatus) (b : IntBit) :
    (IntStatus.acknowledge c q (bit (c.intPos b))).get b = some false := by
  rw [IntStatus.get_acknowledge, getLsbD_bit, decide_eq_true (intPos_lt c b), decide_eq_true rfl]
  rfl

/-- The completion a poll waits for, with what the poll moves before and after it, leaves nothing
pending and the gate, the configuration and the faults as they were (R133, R161). -/
theorem completed_of_moves {s t u : State} (ht : pollMoves s t) (hu : pollMoves (complete t) u) :
    u.pending = false ∧ u.gate = s.gate ∧ u.cfg = s.cfg ∧ u.faults = s.faults := by
  have hidle := complete_pending t
  rw [complete_frame] at hu hidle
  obtain ⟨_, _, _, rfl⟩ := ht
  obtain ⟨_, _, _, rfl⟩ := hu
  exact ⟨hidle, rfl, rfl, rfl⟩

/-- A poll that awaits its answer has acknowledged a state with nothing pending where it matched,
and has moved its own accounts alone where it timed out (R195). -/
theorem Awaits.waitFor_tells {r : Reg} {n : Nat} {s : State} (h : Awaits r n s) (hn : n < 32) :
    ((waitFor r (bit n) s).matched = true →
      ∃ u : State, u.pending = false ∧ u.gate = s.gate ∧ u.cfg = s.cfg ∧ u.faults = s.faults ∧
        (waitFor r (bit n) s).state = regWrite r (bit n) u) ∧
    ((waitFor r (bit n) s).matched = false → pollMoves s (waitFor r (bit n) s).state) := by
  rcases h.outcome hn (pollTimeout / pollInterval) 0 with
    ⟨_, hmatch, -, t, u, ht, hu, hstate⟩ | ⟨hmatch, hmoves⟩
  · obtain ⟨hidle, hgate, hcfg, hfaults⟩ := completed_of_moves ht hu
    exact ⟨fun _ => ⟨u, hidle, hgate, hcfg, hfaults, hstate⟩,
      fun h => absurd (hmatch.symm.trans h) (by decide)⟩
  · exact ⟨fun h => absurd (hmatch.symm.trans h) (by decide), fun _ => hmoves⟩

/-- Settles O52: the poll awaits its answer. Matched, it has acknowledged a state the completion has
led to; timed out, it has moved its own accounts alone. -/
theorem pollOutcomeTellsOfTheCompletion : Obligations.PollOutcomeTellsOfTheCompletion := by
  unfold Obligations.PollOutcomeTellsOfTheCompletion
  refine ⟨fun s p hwf ho hv hp hclear => ?_, fun s p hwf ho hv hp hclear => ?_⟩
  · obtain ⟨hmatched, htimedOut⟩ := (awaits_of_B hwf ho hv hp hclear).waitFor_tells (irqPos_lt _ _)
    refine ⟨fun hm => ?_, fun hm => ?_⟩
    · obtain ⟨u, hidle, hgate, hcfg, hfaults, hstate⟩ := hmatched hm
      have hvu : u.cfg.variant = .B := by rw [hcfg, hv]
      rw [pending_eq_of_B hvu, Option.isSome_eq_false_iff, Option.isNone_iff_eq_none] at hidle
      rw [hstate, regWrite_irqSt_open _ (by rw [hgate, ho]) hvu, hcfg]
      exact ⟨hidle, IrqSt.get_acknowledge_bit _ _ _, hfaults⟩
    · obtain ⟨_, _, _, hstate⟩ := htimedOut hm
      rw [hstate]
      exact ⟨rfl, rfl, rfl⟩
  · obtain ⟨hmatched, htimedOut⟩ := (awaits_of_A hwf ho hv hp hclear).waitFor_tells (intPos_lt _ _)
    refine ⟨fun hm => ?_, fun hm => ?_⟩
    · obtain ⟨u, hidle, hgate, hcfg, hfaults, hstate⟩ := hmatched hm
      have hvu : u.cfg.variant = .A := by rw [hcfg, hv]
      rw [pending_eq_of_A hvu, Option.isSome_eq_false_iff, Option.isNone_iff_eq_none] at hidle
      rw [hstate, regWrite_intStatus_open _ (by rw [hgate, ho]) hvu, hcfg]
      exact ⟨hidle, IntStatus.get_acknowledge_bit _ _ _, hfaults⟩
    · obtain ⟨_, _, _, hstate⟩ := htimedOut hm
      rw [hstate]
      exact ⟨rfl, rfl, rfl⟩

end Sys2Proof.Machine

/-! ### The steps of a `waitfor`

The lines of a poll are followed one host step at a time. `hostSteps` counts the host's steps and
leaves room for the one completion that can come between them; what a line leaves does not depend on
the host's position, so it is the state `pollLoop` comes to. -/

namespace Sys2Proof.Machine

/-- Steps of the machine lead from `s` to `t` that are at most `k` of the host's and one completion
more, where one was pending in `s` and none is in `t` (R73). -/
def hostSteps (k : Nat) (s t : State) : Prop :=
  ∃ j, j + t.pending.toNat ≤ k + s.pending.toNat ∧ stepsTo j s t

/-- No step leads from a state to itself. -/
theorem hostSteps_refl (s : State) : hostSteps 0 s s :=
  ⟨0, le_refl _, rfl⟩

/-- Host steps after host steps. -/
theorem hostSteps_trans {j k : Nat} {s t u : State} (h : hostSteps j s t) (h' : hostSteps k t u) :
    hostSteps (j + k) s u := by
  obtain ⟨a, ha, hst⟩ := h
  obtain ⟨b, hb, htu⟩ := h'
  exact ⟨a + b, by omega, stepsTo_trans a b s t u hst htu⟩

/-- Between two host steps nothing comes to be pending (R73). -/
theorem interleave_pending_le (b : Bool) (s : State) :
    (interleave b s).pending.toNat ≤ s.pending.toNat := by
  rcases interleave_cases b s with e | ⟨_, e⟩ <;> rw [e]
  · rw [turnTaken_eq]
    exact le_refl _
  · rw [complete_pending]
    exact Nat.zero_le _

/-- A host step that leaves pending what it finds pending, with the controller free to move before
it, is one host step (R9, R73). -/
theorem hostSteps_of_hostStep {s t : State}
    (h : hostStep (interleave (nextIsStatusRead s) s) = .next t)
    (ht : t.pending = (interleave (nextIsStatusRead s) s).pending) : hostSteps 1 s t := by
  rcases hostStep_steps s t h with hone | ⟨hpend, hidle, htwo⟩
  · have hle := interleave_pending_le (nextIsStatusRead s) s
    rw [← ht] at hle
    exact ⟨1, by omega, hone⟩
  · exact ⟨2, by rw [ht, hidle, hpend]; decide, htwo⟩

/-- The acknowledge of a status register leaves pending what is pending (R45). -/
theorem regWrite_status_pending {r : Reg} (hr : r.isStatus = true) (d : Word) (s : State) :
    (regWrite r d s).pending = s.pending := by
  cases r with
  | irqSt => rw [regWrite, writeIrqSt_frame rfl]; rfl
  | intStatus => rw [regWrite, writeIntStatus_frame rfl]; rfl
  | _ => cases hr

/-- The read line of a poll leaves pending what is pending (R190). -/
theorem pollRead_pending (p : Poll) (s : State) : (pollRead p s).pending = s.pending := by
  rw [pollRead_frame]
  rfl

/-- A line of a poll of a status register leaves pending what is pending (R190). -/
theorem pollStep_pending {p : Poll} (hr : p.status.isStatus = true) (s : State) :
    (pollStep p s).pending = s.pending := by
  unfold pollStep
  cases p.line with
  | read => exact pollRead_pending p s
  | acknowledge => exact regWrite_status_pending hr p.mask s
  | delay => rfl

/-- What happens between two host steps does not see the host's place in a poll. -/
theorem interleave_poll (b : Bool) (q : Option Poll) (s : State) :
    interleave b { s with poll := q } = { interleave b s with poll := q } :=
  (interleave_position b q s.program s).trans (by rw [← (interleave_host b s).2.1])

/-- A read does not see the host's place in a poll. -/
theorem readEffect_poll (r : Reg) (q : Option Poll) (s : State) :
    readEffect r { s with poll := q } = { readEffect r s with poll := q } :=
  (readEffect_position r q s.program s).trans (by rw [readEffect_frame])

/-- The acknowledge of a poll does not see the host's place in it. -/
theorem regWrite_poll {r : Reg} (hr : r.isStatus = true) (m : Word) (q : Option Poll) (s : State) :
    regWrite r m { s with poll := q } = { regWrite r m s with poll := q } :=
  (regWrite_position r hr m q s.program s).trans (by rw [regWrite_frame])

/-- The read line of a poll does not see where the state says the host stands: it sets its place
itself (R190). -/
theorem pollRead_poll (p : Poll) (q : Option Poll) (s : State) :
    pollRead p { s with poll := q } = pollRead p s := by
  have hvalue : readResult p.status { s with poll := q } = readResult p.status s :=
    readResult_position p.status q s.program s
  unfold pollRead
  rw [hvalue, readEffect_poll]
  rfl

/-- A line of a poll of a status register does not see where the state says the host stands
(R190). -/
theorem pollStep_poll {p : Poll} (hr : p.status.isStatus = true) (q : Option Poll) (s : State) :
    pollStep p { s with poll := q } = pollStep p s := by
  unfold pollStep
  cases p.line with
  | read => exact pollRead_poll p q s
  | acknowledge => dsimp only; rw [pollAcknowledge, regWrite_poll hr]; rfl
  | delay => rfl

/-- Inside a poll the host's next step is a status read exactly at a read line of the live variant's
status register (R135, R190). -/
theorem nextIsStatusRead_of_poll (p : Poll) (s : State) :
    nextIsStatusRead { s with poll := some p } =
      (decide (p.line = .read) && s.statusRead p.status) := by
  unfold nextIsStatusRead nextStatusReg
  dsimp only
  by_cases hl : p.line = .read
  · rw [if_pos hl, decide_eq_true hl]
    rfl
  · rw [if_neg hl, decide_eq_false hl]
    rfl

/-- Inside a poll of a status register its next line is one host step, the controller free to move
before it (R73, R190). -/
theorem hostSteps_line {p : Poll} (hr : p.status.isStatus = true) (s : State) :
    hostSteps 1 { s with poll := some p }
      (pollStep p (interleave (decide (p.line = .read) && s.statusRead p.status) s)) := by
  rw [← nextIsStatusRead_of_poll, ← pollStep_poll hr (some p), ← interleave_poll]
  refine hostSteps_of_hostStep (hostStep_of_poll _ p ?_) (pollStep_pending hr _)
  exact (interleave_host _ _).1

/-- The state the steps of a `waitfor` into `n` come to where its poll comes to `o`: 1 in the
variable for Matched and 0 for TimedOut, and no poll under way (R190). -/
def pollEnd (n : Var) (o : PollResult) : State :=
  { o.state with v := o.state.v.set n (some (if o.matched then 1 else 0)), poll := none }

/-- The read line of a poll that does not match and has a delay to go: a delay comes next (R190). -/
theorem pollRead_on {p : Poll} {s : State}
    (h : pollMatches p.mask (readResult p.status s) = false)
    (hd : p.delays < pollTimeout / pollInterval) :
    pollRead p s = { readEffect p.status s with poll := some { p with line := .delay } } := by
  rw [pollRead, h, if_neg (Nat.not_le.2 hd)]
  rfl

/-- The read line of a poll that does not match and has no delay to go: the poll is over with 0 in
its variable (R193). -/
theorem pollRead_over {p : Poll} {s : State}
    (h : pollMatches p.mask (readResult p.status s) = false)
    (hd : pollTimeout / pollInterval ≤ p.delays) :
    pollRead p s = { (readEffect p.status s).setVar p.dst (some 0) with poll := none } := by
  rw [pollRead, h, if_pos hd]
  rfl

/-- A round of a poll leaves which register is the live status register (R26, R36). -/
theorem statusRead_round (q r : Reg) (n : Nat) (s : State) :
    (delayBy n (interleave false (readEffect q (interleave true s)))).statusRead r =
      s.statusRead r := by
  have hread :
      (readEffect q (interleave true s)).statusRead r = (interleave true s).statusRead r := by
    rw [readEffect_frame]
    rfl
  exact (statusRead_interleave false r _).trans (hread.trans (statusRead_interleave true r s))

/-- After a read line that does not match, the delay and the next read are two host steps (R190). -/
theorem hostSteps_round {p : Poll} {s : State} (hl : s.statusRead p.status = true) :
    hostSteps 2
      { readEffect p.status (interleave true s) with poll := some { p with line := .delay } }
      (pollRead { p with delays := p.delays + 1, line := .read } (interleave true
        (delayBy pollInterval (interleave false (readEffect p.status (interleave true s)))))) := by
  have hr : p.status.isStatus = true := isStatus_of_statusRead hl
  have hdelay := hostSteps_line (p := { p with line := .delay }) hr
    (readEffect p.status (interleave true s))
  have hread := hostSteps_line (p := { p with delays := p.delays + 1, line := .read }) hr
    (delayBy pollInterval (interleave false (readEffect p.status (interleave true s))))
  rw [statusRead_round, hl] at hread
  exact hostSteps_trans hdelay hread

/-- From a read line that matches, the host's steps come to what the loop comes to: the acknowledge
is the one line left (R190, R192). -/
theorem hostSteps_pollLoop_match {p : Poll} {s : State} (left made : Nat)
    (hl : s.statusRead p.status = true)
    (hm : pollMatches p.mask (readResult p.status (interleave true s)) = true) :
    ∃ k, k + 2 * made + 1 ≤ 2 * (pollLoop p.status p.mask left made s).reads ∧
      hostSteps k (pollRead p (interleave true s))
        (pollEnd p.dst (pollLoop p.status p.mask left made s)) := by
  have hr : p.status.isStatus = true := isStatus_of_statusRead hl
  rw [pollLoop_match _ _ _ _ s hl hm, pollRead_match hm]
  exact ⟨1, by dsimp only; omega, hostSteps_line (p := { p with line := .acknowledge }) hr _⟩

/-- From a read line whose poll has `left` delays to go and made `made` reads before, the host's
steps come to what the loop comes to: two lines a round, and the acknowledge after a match
(R190). -/
theorem hostSteps_pollLoop (left made : Nat) (p : Poll) (s : State)
    (hl : s.statusRead p.status = true) (hd : p.delays + left = pollTimeout / pollInterval) :
    ∃ k, k + 2 * made + 1 ≤ 2 * (pollLoop p.status p.mask left made s).reads ∧
      hostSteps k (pollRead p (interleave true s))
        (pollEnd p.dst (pollLoop p.status p.mask left made s)) := by
  induction left generalizing made p s with
  | zero =>
    cases hm : pollMatches p.mask (readResult p.status (interleave true s)) with
    | true => exact hostSteps_pollLoop_match 0 made hl hm
    | false =>
      rw [pollLoop_last _ _ _ s hl hm, pollRead_over hm (by omega)]
      exact ⟨0, by dsimp only; omega, hostSteps_refl _⟩
  | succ left ih =>
    cases hm : pollMatches p.mask (readResult p.status (interleave true s)) with
    | true => exact hostSteps_pollLoop_match (left + 1) made hl hm
    | false =>
      obtain ⟨k, hk, hrest⟩ := ih (made + 1) { p with delays := p.delays + 1, line := .read } _
        ((statusRead_round p.status p.status pollInterval s).trans hl) (by dsimp only; omega)
      rw [pollLoop_round _ _ _ _ s hl hm, pollRead_on hm (by omega)]
      exact ⟨2 + k, by dsimp only at hk; omega, hostSteps_trans (hostSteps_round hl) hrest⟩

/-- What the host finds at the head of its program where a poll begins: a status read of the live
variant, and the `waitfor` (R88, R190). -/
theorem pollBegins_first {s : State} {r : Reg} {n : Var} {m : Word} {rest : List Word}
    (h : pollBegins s r n m rest) :
    s.poll = none ∧ s.statusRead r = true ∧ nextIsStatusRead s = true ∧
      ∃ i, fetch s = .op i rest ∧ ∀ t, exec i t = .next (startPoll r n m t) := by
  obtain ⟨hp, ⟨rfl, hv, hd⟩ | ⟨rfl, hv, hd⟩⟩ := h
  · exact ⟨hp, (statusRead_irqSt_iff s).2 hv,
      (nextIsStatusRead_cases s).2 (.inl ⟨hp, hv, .inr ⟨n, m, rest, hd⟩⟩),
      _, fetch_of_decode_ok s _ rest hd, fun _ => rfl⟩
  · exact ⟨hp, (statusRead_intStatus_iff s).2 hv,
      (nextIsStatusRead_cases s).2 (.inr (.inl ⟨hp, hv, .inr ⟨n, m, rest, hd⟩⟩)),
      _, fetch_of_decode_ok s _ rest hd, fun _ => rfl⟩

/-- What happens between two host steps does not see the words left of the program. -/
theorem interleave_advance (b : Bool) (rest : List Word) (s : State) :
    interleave b (s.advance rest) = (interleave b s).advance rest :=
  (interleave_position b s.poll rest s).trans (by rw [← (interleave_host b s).1]; rfl)

/-- Where a poll begins, its first read is one host step (R190). -/
theorem hostSteps_first {s : State} {r : Reg} {n : Var} {m : Word} {rest : List Word}
    (h : pollBegins s r n m rest) :
    hostSteps 1 s (pollRead { status := r, dst := n, mask := m, delays := 0, line := .read }
      (interleave true (s.advance rest))) := by
  obtain ⟨hp, hl, hnext, i, hfetch, hexec⟩ := pollBegins_first h
  obtain ⟨hpoll, hprogram, hcfg⟩ := interleave_host true s
  have hv : r.variant = ((interleave true s).advance rest).cfg.variant := by
    rw [State.advance_cfg, hcfg]
    exact variant_of_statusRead hl
  have hop : fetch (interleave true s) = .op i rest := by
    rw [fetch_eq_op_iff, hprogram, ← fetch_eq_op_iff, hfetch]
  refine hostSteps_of_hostStep ?_ ?_
  · rw [hnext, hostStep_of_op _ i rest (hpoll.trans hp) hop, hexec, startPoll, if_pos hv,
      interleave_advance]
  · rw [pollRead_pending, hnext, interleave_advance]
    rfl

/-- The host's steps from a `waitfor` on the live status register come to what `waitFor` comes to,
two for each read at most (R190). -/
theorem hostSteps_waitFor {s : State} {r : Reg} {n : Var} {m : Word} {rest : List Word}
    (h : pollBegins s r n m rest) :
    ∃ k, k ≤ 2 * (waitFor r m (s.advance rest)).reads ∧
      hostSteps k s (pollEnd n (waitFor r m (s.advance rest))) := by
  obtain ⟨-, hl, -⟩ := pollBegins_first h
  obtain ⟨k, hk, hrest⟩ := hostSteps_pollLoop (pollTimeout / pollInterval) 0
    { status := r, dst := n, mask := m, delays := 0, line := .read } (s.advance rest) hl
    (Nat.zero_add _)
  refine ⟨1 + k, ?_, hostSteps_trans (hostSteps_first h) hrest⟩
  rw [waitFor]
  dsimp only at hk
  omega

/-- Settles O49: the host's steps are two for each read at most, and the completion between them is
one more. -/
theorem waitforStepsComeToThePollsOutcome : Obligations.WaitforStepsComeToThePollsOutcome := by
  unfold Obligations.WaitforStepsComeToThePollsOutcome
  intro s r n m rest h
  obtain ⟨k, hk, j, hj, hsteps⟩ := hostSteps_waitFor h
  have hone : s.pending.toNat ≤ 1 := Bool.toNat_le _
  refine ⟨j, ?_, hsteps⟩
  have hbound : j ≤ 2 * (waitFor r m (s.advance rest)).reads + 1 := by omega
  exact hbound

end Sys2Proof.Machine

/-! ### Polls that cannot match -/

namespace Sys2Proof.Machine

/-- No value matches the mask 0 (R190). -/
theorem pollMatches_zero (x : Option Word) : pollMatches 0 x = false := by
  cases x <;> simp [pollMatches]

/-- A poll for the mask 0 times out (R190). -/
theorem pollLoop_zero_matched (r : Reg) (left made : Nat) (s : State) :
    (pollLoop r 0 left made s).matched = false := by
  induction left generalizing made s with
  | zero =>
    unfold pollLoop
    simp only [pollMatches_zero]
    rfl
  | succ left ih =>
    unfold pollLoop
    simp only [pollMatches_zero]
    exact ih _ _

/-- A poll leaves the host's program (R43, R190). -/
theorem pollLoop_program (r : Reg) (m : Word) (left made : Nat) (s : State) :
    (pollLoop r m left made s).state.program = s.program :=
  pollLoop_keeps (P := fun t => t.program = s.program) r m
    (fun b t h => (interleave_host b t).2.1.trans h)
    (fun t h => by rw [readEffect_frame]; exact h) (fun _ h => h)
    (fun t h => by rw [regWrite_frame]; exact h) left made s rfl

/-- With the register interface off no completion is enabled, so nothing happens between two host
steps (R136). -/
theorem interleave_closed (b : Bool) {s : State} (h : s.gate.isOpen = false) :
    interleave b s = s := by
  have hdis : s.canComplete = false := by rw [State.canComplete, h, Bool.false_and]
  rw [interleave, controllerMoves_of_not_canComplete hdis, turnTaken_of_not_canComplete hdis]
  rfl

/-- With the register interface off the guard fails (R46, R100). -/
theorem guardOk_closed (r : Reg) {s : State} (h : s.gate.isOpen = false) : guardOk r s = false := by
  rw [guardOk, h, Bool.false_and]

/-- With the register interface off a read records the guard's faults (R100). -/
theorem readEffect_closed (r : Reg) {s : State} (h : s.gate.isOpen = false) :
    readEffect r s = guardFaults r s := by
  rw [readEffect, access, guardOk_closed r h]
  rfl

/-- With the register interface off a read gives no value, so it does not match (R100, R190). -/
theorem pollMatches_closed (r : Reg) (m : Word) {s : State} (h : s.gate.isOpen = false) :
    pollMatches m (readResult r s) = false := by
  rw [readResult, guardOk_closed r h]
  rfl

/-- The guard's faults are the same however late and recorded once (R23). -/
theorem guardFaults_again (r : Reg) (n : Nat) (s : State) :
    guardFaults r (delayBy n (guardFaults r s)) = delayBy n (guardFaults r s) := by
  have hfaults :
      (guardFaults r (delayBy n (guardFaults r s))).faults = (guardFaults r s).faults := by
    refine FaultSet.ext_has _ _ fun k => ?_
    rw [Bool.eq_iff_iff, guardFaults_has]
    have hrec := guardFaults_has r s k
    exact ⟨fun h => h.elim id fun h => hrec.2 (.inr h), .inl⟩
  have hframe : guardFaults r (delayBy n (guardFaults r s)) =
      { delayBy n (guardFaults r s) with
        faults := (guardFaults r (delayBy n (guardFaults r s))).faults } := rfl
  rw [hframe, hfaults]
  rfl

/-- A delay after a delay (R204). -/
theorem delayBy_delayBy (a b : Nat) (s : State) : delayBy a (delayBy b s) = delayBy (a + b) s := by
  rw [delayBy, delayBy, delayBy, Nat.add_comm a b, ← Nat.add_assoc]

/-- A poll with the register interface off times out, with the guard's faults and its delays made
and nothing else (R100, R190, R193). -/
theorem pollLoop_closed {r : Reg} (m : Word) (left made : Nat) {s : State}
    (hl : s.statusRead r = true) (h : s.gate.isOpen = false) :
    pollLoop r m left made s =
      { matched := false, reads := made + left + 1, state := delayBy left (guardFaults r s) } := by
  induction left generalizing made s with
  | zero =>
    rw [pollLoop_last r m made s hl, interleave_closed true h, readEffect_closed r h]
    · rfl
    · rw [interleave_closed true h, pollMatches_closed r m h]
  | succ left ih =>
    have hround : (guardFaults r s).gate.isOpen = false := h
    have hrest := ih (made + 1) (s := delayBy pollInterval (guardFaults r s)) hl hround
    rw [guardFaults_again, delayBy_delayBy, Nat.add_right_comm made 1 left] at hrest
    rw [pollLoop_round r m left made s hl, interleave_closed true h, readEffect_closed r h,
      interleave_closed false hround, hrest]
    · rfl
    · rw [interleave_closed true h, pollMatches_closed r m h]

/-- Where the poll timed out its steps end with 0 in the variable (R190). -/
theorem getVar_pollEnd_timedOut {n : Var} {o : PollResult} (h : o.matched = false) :
    (pollEnd n o).getVar n = some 0 := by
  rw [pollEnd, h]
  exact State.getVar_setVar_same o.state n (some 0)

/-- With the live status register the guard records `ClockOff` and `InReset` as they apply, and no
more (R100). -/
theorem guardFaults_live_has {r : Reg} {s : State} (hl : s.statusRead r = true) (k : FaultKind) :
    (guardFaults r s).faults.has k = true ↔
      s.faults.has k = true ∨ (k = .clockOff ∧ s.gate.clocksOn = false) ∨
        (k = .inReset ∧ s.gate.rst = true) := by
  have hv : r.variant = s.cfg.variant := variant_of_statusRead hl
  simp [guardFaults_has, hv]

/-- Settles O51: the steps come to what `waitFor` comes to, which times out, for the mask 0 because
no value matches, with the interface off because no read gives one. -/
theorem pollTimesOutWithoutAMatch : Obligations.PollTimesOutWithoutAMatch := by
  unfold Obligations.PollTimesOutWithoutAMatch
  intro s r n m rest h
  obtain ⟨hp, hl, -⟩ := pollBegins_first h
  obtain ⟨k, -, hsteps⟩ := waitforStepsComeToThePollsOutcome s r n m rest h
  refine ⟨fun hzero => ?_, fun hoff => ?_⟩
  · subst hzero
    have hmatched := pollLoop_zero_matched r (pollTimeout / pollInterval) 0 (s.advance rest)
    exact ⟨k, _, hsteps, rfl, pollLoop_program r 0 _ 0 (s.advance rest),
      getVar_pollEnd_timedOut hmatched, ((pollIsBounded r 0 (s.advance rest)).1 hmatched).2⟩
  · have hclosed : waitFor r m { s with program := rest } = _ :=
      pollLoop_closed m (pollTimeout / pollInterval) 0 (s := s.advance rest) hl hoff
    rw [hclosed] at hsteps
    refine ⟨k, (guardFaults r s).faults, ?_, guardFaults_live_has hl⟩
    rw [hp]
    exact hsteps

end Sys2Proof.Machine

/-! ### The gate and the reset (R200 to R204)

What the clock and reset service calls leave of the gate, by the service's answer, and what a reset
leaves of the controller. -/

namespace Sys2Proof.Machine

/-- Switching one clock leaves the other two (R200, R201). -/
theorem Gate.clk_setClk (g : Gate) (d e : Domain) (on : Bool) :
    (g.setClk d on).clk e = if e = d then on else g.clk e := by
  cases d <;> cases e <;> rfl

/-- Switching a clock leaves the reset line (R200, R201). -/
@[simp] theorem Gate.setClk_rst (g : Gate) (d : Domain) (on : Bool) :
    (g.setClk d on).rst = g.rst := by
  cases d <;> rfl

/-- Switching a clock leaves the time of the reset's assertion (R200, R201). -/
@[simp] theorem Gate.setClk_rstAt (g : Gate) (d : Domain) (on : Bool) :
    (g.setClk d on).rstAt = g.rstAt := by
  cases d <;> rfl

/-- The reset line and its time are no clock's (R46). -/
@[simp] theorem Gate.clk_with_rst (g : Gate) (b : Bool) (x : Option Nat) (d : Domain) :
    ({ g with rst := b, rstAt := x } : Gate).clk d = g.clk d := by
  cases d <;> rfl

/-- Switching clock `d` moves that clock of the gate and nothing else of it (R200, R201). -/
theorem Gate.setClk_spec (g : Gate) (d : Domain) (on : Bool) :
    (g.setClk d on).clk d = on ∧ (∀ e, e ≠ d → (g.setClk d on).clk e = g.clk e) ∧
      (g.setClk d on).rst = g.rst ∧ (g.setClk d on).rstAt = g.rstAt :=
  ⟨by rw [clk_setClk, if_pos rfl], fun e he => by rw [clk_setClk, if_neg he],
    setClk_rst g d on, setClk_rstAt g d on⟩

/-- A clock enable the service grants (R200). -/
theorem clkEnable_of_ok {s : State} (h : serviceOk s = true) (d : Domain) :
    clkEnable d s = { s.spend with gate := s.gate.setClk d true } :=
  if_pos h

/-- A clock enable the service fails uses its draw and no more (R200). -/
theorem clkEnable_of_fail {s : State} (h : serviceOk s = false) (d : Domain) :
    clkEnable d s = s.spend :=
  if_neg (Bool.eq_false_iff.mp h)

/-- A reset assertion the service grants (R202). -/
theorem rstAssert_of_ok {s : State} (h : serviceOk s = true) :
    rstAssert s = { s.spend with
      gate := { s.gate with
        rst := true, rstAt := if s.gate.rst then s.gate.rstAt else some s.now } } :=
  if_pos h

/-- A reset assertion the service fails uses its draw and no more (R202). -/
theorem rstAssert_of_fail {s : State} (h : serviceOk s = false) : rstAssert s = s.spend :=
  if_neg (Bool.eq_false_iff.mp h)

/-- `clkon` leaves the service's answer in its variable (R83, R200). -/
theorem exec_clkon_of_answer {s : State} {ok : Bool} (h : serviceOk s = ok) (n : Var)
    (d : Domain) :
    exec (.clkon n d) s = .next ((clkEnable d s).setVar n (some (answerWord ok))) := by
  rw [← h]
  rfl

/-- `rsta` leaves the service's answer in its variable (R83, R202). -/
theorem exec_rsta_of_answer {s : State} {ok : Bool} (h : serviceOk s = ok) (n : Var) :
    exec (.rsta n) s = .next ((rstAssert s).setVar n (some (answerWord ok))) := by
  rw [← h]
  rfl

/-- Settles O42: by the service's answer, with the gate `Gate.setClk_spec` speaks of. -/
theorem clocksAndDelay : Obligations.ClocksAndDelay := by
  unfold Obligations.ClocksAndDelay
  refine ⟨fun s n d => ⟨fun hok => ⟨s.gate.setClk d true, ?_, s.gate.setClk_spec d true⟩,
    fun hfail => ?_⟩, fun s d => ⟨s.gate.setClk d false, rfl, s.gate.setClk_spec d false⟩,
    fun s n => rfl⟩
  · rw [exec_clkon_of_answer hok, clkEnable_of_ok hok]
    rfl
  · rw [exec_clkon_of_answer hfail, clkEnable_of_fail hfail]
    rfl

/-- Settles O43: by the service's answer. -/
theorem resetAssertHoldsTheTime : Obligations.ResetAssertHoldsTheTime := by
  unfold Obligations.ResetAssertHoldsTheTime
  refine fun s n => ⟨fun hok => ?_, fun hfail => ?_⟩
  · rw [exec_rsta_of_answer hok, rstAssert_of_ok hok]
    rfl
  · rw [exec_rsta_of_answer hfail, rstAssert_of_fail hfail]
    rfl

/-- A reset held for fewer than 2 time-units is held too short (R203). -/
theorem holdViolated_of_early {s : State} {t : Nat} (hr : s.gate.rst = true)
    (hat : s.gate.rstAt = some t) (h : s.now - t < 2) : holdViolated s = true := by
  rw [holdViolated, hr, hat]
  exact decide_eq_true h

/-- No hold is violated by a line that is not asserted or has been for 2 time-units (R203). -/
theorem holdViolated_of_held {s : State}
    (h : s.gate.rst = false ∨ ∃ t, s.gate.rstAt = some t ∧ 2 ≤ s.now - t) :
    holdViolated s = false := by
  rcases h with hr | ⟨t, hat, ht⟩
  · rw [holdViolated, hr, Bool.false_and]
  · rw [holdViolated, hat]
    dsimp only
    rw [decide_eq_false (Nat.not_lt.2 ht), Bool.and_false]

/-- A deassertion gives an answer exactly where no hold is violated, and it is the service's
(R203). -/
theorem rstDeassertAnswer_eq_some_iff (s : State) (ok : Bool) :
    rstDeassertAnswer s = some ok ↔ holdViolated s = false ∧ serviceOk s = ok := by
  unfold rstDeassertAnswer
  cases holdViolated s <;> simp

/-- A hold violation stops the deassertion (R203, R267, log entry 11). -/
theorem rstDeassert_of_violated {s : State} (h : holdViolated s = true) :
    rstDeassert s = s.raise .resetHoldViolation :=
  if_pos h

/-- A deassertion the service fails uses its draw and no more (R203). -/
theorem rstDeassert_of_fail {s : State} (h : rstDeassertAnswer s = some false) :
    rstDeassert s = s.spend := by
  obtain ⟨hheld, hfail⟩ := (rstDeassertAnswer_eq_some_iff s false).1 h
  rw [rstDeassert, hheld, hfail]
  rfl

/-- A deassertion of a line that is not asserted resets nothing (R203). -/
theorem rstDeassert_of_clear {s : State} (h : rstDeassertAnswer s = some true)
    (hr : s.gate.rst = false) :
    rstDeassert s = { s.spend with gate := { s.gate with rst := false, rstAt := none } } := by
  obtain ⟨hheld, hok⟩ := (rstDeassertAnswer_eq_some_iff s true).1 h
  rw [rstDeassert, hheld, hok, hr]
  rfl

/-- A deassertion of an asserted line resets the controller (R203, R290). -/
theorem rstDeassert_of_asserted {s : State} (h : rstDeassertAnswer s = some true)
    (hr : s.gate.rst = true) :
    rstDeassert s =
      { s.spend.controllerReset with gate := { s.gate with rst := false, rstAt := none } } := by
  obtain ⟨hheld, hok⟩ := (rstDeassertAnswer_eq_some_iff s true).1 h
  rw [rstDeassert, hheld, hok, hr]
  rfl

/-- Where a hold violation stops it, `rstd` records the violation and no more (R203, R267). -/
theorem exec_rstd_of_violated {s : State} (h : holdViolated s = true) (n : Var) :
    exec (.rstd n) s = .next (s.raise .resetHoldViolation) := by
  rw [exec, execRstd, rstDeassertAnswer, if_pos h, rstDeassert_of_violated h]

/-- Where a deassertion is answered, `rstd` leaves the answer in its variable (R83, R203). -/
theorem exec_rstd_of_answer {s : State} {ok : Bool} (h : rstDeassertAnswer s = some ok)
    (n : Var) :
    exec (.rstd n) s = .next ((rstDeassert s).setVar n (some (answerWord ok))) := by
  rw [exec, execRstd, h]

/-- A reset of variant B writes its registers and its controller (R290, R291, log entry 18). -/
theorem controllerReset_of_B {s : State} (hv : s.cfg.variant = .B) :
    s.controllerReset = { s.spend with
      regsB := RegsB.resetValue s.cfg.statusReset, ctlB := CtlB.resetValue s.fresh,
      statusReads := 0 } := by
  rw [State.controllerReset, hv]

/-- A reset of variant A writes its registers and its controller (R290, R291, log entry 18). -/
theorem controllerReset_of_A {s : State} (hv : s.cfg.variant = .A) :
    s.controllerReset = { s.spend with
      regsA := RegsA.resetValue s.cfg.statusReset, ctlA := CtlA.resetValue s.fresh,
      statusReads := 0 } := by
  rw [State.controllerReset, hv]

/-- Every bit of IRQ_ST after a reset (R26). -/
theorem IrqSt.get_resetValue (r : StatusReset) (b : IrqBit) :
    (IrqSt.resetValue r).get b = if r = .zero then some false else none := by
  cases r <;> cases b <;> rfl

/-- Every bit of INT_STATUS after a reset (R36). -/
theorem IntStatus.get_resetValue (r : StatusReset) (b : IntBit) :
    (IntStatus.resetValue r).get b = if r = .zero then some false else none := by
  cases r <;> cases b <;> rfl

/-- Settles O44: by the hold, the service's answer and the line, and where the line was asserted by
the live variant. -/
theorem resetDeassertResetsTheController : Obligations.ResetDeassertResetsTheController := by
  unfold Obligations.ResetDeassertResetsTheController
  refine fun s n => ⟨fun t hr hat hearly =>
    exec_rstd_of_violated (holdViolated_of_early hr hat hearly) n, fun hheld => ?_⟩
  have hanswer {ok : Bool} (h : s.fresh.getLsbD 0 = ok) : rstDeassertAnswer s = some ok :=
    (rstDeassertAnswer_eq_some_iff s ok).2 ⟨holdViolated_of_held hheld, h⟩
  refine ⟨fun hfail => ?_, fun hok hr => ?_, fun hok hr => ?_⟩
  · rw [exec_rstd_of_answer (hanswer hfail), rstDeassert_of_fail (hanswer hfail)]
    rfl
  · rw [exec_rstd_of_answer (hanswer hok), rstDeassert_of_clear (hanswer hok) hr]
    rfl
  · rw [exec_rstd_of_answer (hanswer hok), rstDeassert_of_asserted (hanswer hok) hr]
    cases hv : s.cfg.variant with
    | B =>
      rw [controllerReset_of_B (s := s.spend) hv]
      exact ⟨_, rfl, rfl,
        fun _ => ⟨rfl, rfl, rfl, rfl, rfl, rfl, IrqSt.get_resetValue _⟩, nofun⟩
    | A =>
      rw [controllerReset_of_A (s := s.spend) hv]
      exact ⟨_, rfl, rfl, nofun,
        fun _ => ⟨rfl, rfl, rfl, rfl, rfl, rfl, rfl, rfl, rfl, rfl, rfl,
          IntStatus.get_resetValue _⟩⟩

end Sys2Proof.Machine

/-! ### The host procedures on the gate (R205 to R207)

A line of `ACQUIRE` or `RELEASE` comes after the controller's move, which leaves the gate. The clocks
are followed through the lists of domains, then the reset through the pulse. -/

namespace Sys2Proof.Machine

/-- What happens between two host steps leaves the gate (R46). -/
@[simp] theorem interleave_gate (b : Bool) (s : State) : (interleave b s).gate = s.gate := by
  rcases interleave_cases b s with e | ⟨_, e⟩ <;> rw [e]
  · rw [turnTaken_eq]
  · rw [complete_frame, turnTaken_eq]

/-- What happens between two host steps leaves the configuration (R7). -/
@[simp] theorem interleave_cfg (b : Bool) (s : State) : (interleave b s).cfg = s.cfg :=
  (interleave_host b s).2.2

/-- The line `ClkDisable(d)` on the gate (R201). -/
theorem lineClkDisable_gate (d : Domain) (s : State) :
    (lineClkDisable d s).gate = s.gate.setClk d false := by
  rw [lineClkDisable, hostLine, clkDisable_gate, interleave_gate]

/-- After the domains of a list are disabled, those clocks are on that were and are not of the list
(R201). -/
theorem disableAll_clk (ds : List Domain) (s : State) (e : Domain) :
    (disableAll ds s).gate.clk e = true ↔ s.gate.clk e = true ∧ e ∉ ds := by
  induction ds generalizing s with
  | nil => simp [disableAll]
  | cons d ds ih =>
    rw [disableAll, ih, lineClkDisable_gate, Gate.clk_setClk]
    by_cases he : e = d <;> simp [he]

/-- `RELEASE` leaves no clock on (R206). -/
theorem release_clk (s : State) (e : Domain) : (release s).gate.clk e = false := by
  rw [← Bool.not_eq_true, release, disableAll_clk]
  cases e <;> simp

/-- The line `ClkEnable(d)` where it answers ok (R200). -/
theorem lineClkEnable_ok {d : Domain} {s t : State} (h : lineClkEnable d s = (true, t)) :
    t.gate = s.gate.setClk d true ∧ t.now = s.now ∧ t.cfg = s.cfg := by
  obtain ⟨hok, rfl⟩ := Prod.mk.inj h
  rw [clkEnable_of_ok hok]
  exact ⟨congrArg (·.setClk d true) (interleave_gate false s), interleave_now false s,
    interleave_cfg false s⟩

/-- The line `ClkEnable(d)` where it fails (R200). -/
theorem lineClkEnable_fail {d : Domain} {s t : State} (h : lineClkEnable d s = (false, t)) :
    t.gate = s.gate := by
  obtain ⟨hfail, rfl⟩ := Prod.mk.inj h
  rw [clkEnable_of_fail hfail]
  exact interleave_gate false s

/-- Where every domain of the list was enabled, its clocks are on and no clock was lost, at the same
time (R205). -/
theorem enableAll_none {ds enabled : List Domain} {s t : State}
    (h : enableAll ds enabled s = (none, t)) :
    (∀ e, s.gate.clk e = true ∨ e ∈ ds → t.gate.clk e = true) ∧ t.now = s.now ∧
      t.cfg = s.cfg := by
  induction ds generalizing enabled s with
  | nil =>
    cases h
    exact ⟨fun e he => he.resolve_right List.not_mem_nil, rfl, rfl⟩
  | cons d ds ih =>
    rw [enableAll] at h
    split at h
    case h_1 u hu =>
      obtain ⟨hgate, hnow, hcfg⟩ := lineClkEnable_ok hu
      obtain ⟨hclk, hnow', hcfg'⟩ := ih h
      refine ⟨fun e he => hclk e ?_, hnow'.trans hnow, hcfg'.trans hcfg⟩
      rw [hgate, Gate.clk_setClk]
      by_cases hed : e = d
      · exact .inl (if_pos hed)
      · rw [if_neg hed]
        exact he.imp_right (List.mem_of_ne_of_mem hed)
    case h_2 => cases h

/-- Where a domain of the list could not be enabled, no clock is on but one that was on and not
enabled here (R205). -/
theorem enableAll_some {ds enabled : List Domain} {s t : State} {d : Domain}
    (h : enableAll ds enabled s = (some d, t))
    (hon : ∀ e, s.gate.clk e = true → e ∈ enabled) (e : Domain) : t.gate.clk e = false := by
  induction ds generalizing enabled s with
  | nil => cases h
  | cons c ds ih =>
    rw [enableAll] at h
    split at h
    case h_1 u hu =>
      refine ih h fun e he => ?_
      rw [(lineClkEnable_ok hu).1, Gate.clk_setClk] at he
      by_cases hec : e = c
      · exact List.mem_cons.2 (.inl hec)
      · rw [if_neg hec] at he
        exact List.mem_cons.2 (.inr (hon e he))
    case h_2 u hu =>
      cases h
      rw [← Bool.not_eq_true, disableAll_clk, lineClkEnable_fail hu]
      exact fun ⟨he, hnot⟩ => hnot (hon e he)

/-- The line `RstAssert()` where it answers ok (R202). -/
theorem lineRstAssert_ok {s t : State} (h : lineRstAssert s = (true, t)) :
    (∀ d, t.gate.clk d = s.gate.clk d) ∧ t.gate.rst = true ∧ t.now = s.now ∧
      t.cfg = s.cfg := by
  obtain ⟨hok, rfl⟩ := Prod.mk.inj h
  rw [rstAssert_of_ok hok]
  refine ⟨fun d => ?_, rfl, interleave_now false s, interleave_cfg false s⟩
  dsimp only
  rw [Gate.clk_with_rst, interleave_gate]

/-- The live variant's registers stand at their reset values and nothing is pending (R290, R291). -/
def liveReset (c : Cfg) (t : State) : Prop :=
  (c.variant = .B → t.ctlB.pend = none ∧ t.regsB = RegsB.resetValue c.statusReset) ∧
    (c.variant = .A → t.ctlA.pend = none ∧ t.regsA = RegsA.resetValue c.statusReset)

/-- A controller reset resets the live variant (R290, R291). -/
theorem liveReset_controllerReset (s : State) : liveReset s.cfg s.controllerReset :=
  ⟨fun hv => by rw [controllerReset_of_B hv]; exact ⟨rfl, rfl⟩,
    fun hv => by rw [controllerReset_of_A hv]; exact ⟨rfl, rfl⟩⟩

/-- The line `RstDeassert()` on an asserted line, where it answers ok (R203, R290). -/
theorem lineRstDeassert_ok {s t : State} (h : lineRstDeassert s = (true, t))
    (hr : s.gate.rst = true) :
    (∀ d, t.gate.clk d = s.gate.clk d) ∧ t.gate.rst = false ∧ t.gate.rstAt = none ∧
      t.now = s.now ∧ liveReset s.cfg t := by
  obtain ⟨hanswer, rfl⟩ := Prod.mk.inj h
  have hreset := rstDeassert_of_asserted (eq_of_beq hanswer) (by rw [interleave_gate]; exact hr)
  have hnow : (rstDeassert (interleave false s)).now = s.now := by
    rw [rstDeassert_frame]
    exact interleave_now false s
  have hlive := liveReset_controllerReset (interleave false s).spend
  rw [State.spend_cfg, interleave_cfg] at hlive
  rw [hreset] at hnow ⊢
  refine ⟨fun d => ?_, rfl, rfl, hnow, hlive⟩
  dsimp only
  rw [Gate.clk_with_rst, interleave_gate]

/-- The reset pulse fails and releases the clocks, or its three lines are made (R205). -/
theorem resetPulse_cases (s : State) :
    (∃ p t, resetPulse s = (.resetFailed p, release t)) ∨
      ∃ a t, lineRstAssert s = (true, a) ∧ lineRstDeassert (lineDelay resetHold a) = (true, t) ∧
        resetPulse s = (.ok, t) := by
  unfold resetPulse
  split
  case h_1 t _ => exact .inl ⟨_, t, rfl⟩
  case h_2 a ha =>
    split
    case h_1 t _ => exact .inl ⟨_, t, rfl⟩
    case h_2 t ht => exact .inr ⟨a, t, ha, ht, rfl⟩

/-- `ACQUIRE` fails at a clock, or is the reset pulse with every clock enabled (R205). -/
theorem acquire_cases (s : State) :
    (∃ d t, enableAll [.func, .bus, .phy] [] s = (some d, t) ∧
        acquire s = (.resourceAcquireFailed d, t)) ∨
      ∃ t, enableAll [.func, .bus, .phy] [] s = (none, t) ∧ acquire s = resetPulse t := by
  unfold acquire
  split
  case h_1 d t h => exact .inl ⟨d, t, h, rfl⟩
  case h_2 t h => exact .inr ⟨t, h, rfl⟩

/-- The lines of a reset pulse that succeeds leave the clocks, and the reset deasserted and the
controller reset two time-units later (R205). -/
theorem resetPulse_lines {s a t : State} (ha : lineRstAssert s = (true, a))
    (ht : lineRstDeassert (lineDelay resetHold a) = (true, t)) :
    (∀ d, t.gate.clk d = s.gate.clk d) ∧ t.gate.rst = false ∧ t.gate.rstAt = none ∧
      t.now = s.now + 2 ∧ liveReset s.cfg t := by
  have hgate : (lineDelay resetHold a).gate = a.gate := interleave_gate false a
  have hnow : (lineDelay resetHold a).now = a.now + 2 :=
    congrArg (· + 2) (interleave_now false a)
  have hcfg : (lineDelay resetHold a).cfg = a.cfg := interleave_cfg false a
  obtain ⟨hclk, hrst, hnow', hcfg'⟩ := lineRstAssert_ok ha
  obtain ⟨hclk', hrst', hrstAt, hnow'', hlive⟩ := lineRstDeassert_ok ht (by rw [hgate, hrst])
  refine ⟨fun d => ?_, hrst', hrstAt, ?_, ?_⟩
  · rw [hclk', hgate, hclk]
  · rw [hnow'', hnow, hnow']
  · rw [← hcfg', ← hcfg]
    exact hlive

/-- Settles O54: by the clocks enabled, then by the reset pulse. -/
theorem acquireIsAllOrNothing : Obligations.AcquireIsAllOrNothing := by
  unfold Obligations.AcquireIsAllOrNothing
  intro s t r h
  rcases acquire_cases s with ⟨d, u, hen, e⟩ | ⟨u, hen, e⟩
  · cases e.symm.trans h
    exact ⟨nofun, nofun, fun _ _ hoff => enableAll_some hen fun e he => by simp [hoff] at he,
      .inr (.inr ⟨d, rfl⟩), release_clk s⟩
  rcases resetPulse_cases u with ⟨p, w, e'⟩ | ⟨a, w, ha, hw, e'⟩
  · cases (e.trans e').symm.trans h
    exact ⟨nofun, fun _ _ => release_clk w, nofun, .inr (.inl ⟨p, rfl⟩), release_clk s⟩
  · cases (e.trans e').symm.trans h
    obtain ⟨hon, hnow, hcfg⟩ := enableAll_none hen
    obtain ⟨hclk, hrst, hrstAt, hnow', hlive⟩ := resetPulse_lines ha hw
    rw [hcfg] at hlive
    have hall (d : Domain) : t.gate.clk d = true := by
      rw [hclk]
      exact hon d (.inr (by cases d <;> decide))
    exact ⟨fun _ => ⟨hall, hrst, hrstAt, hnow'.trans (by rw [hnow]), hlive⟩, nofun, nofun,
      .inl rfl, release_clk s⟩

end Sys2Proof.Machine

/-! ### The window, the selector and the dispatcher (R231, R240, R241) -/

namespace Sys2Proof.Machine

/-- Settles O58: quotients and remainders by the word size. -/
theorem windowCoversTheRequest : Obligations.WindowCoversTheRequest := by
  unfold Obligations.WindowCoversTheRequest
  intro o len
  dsimp only [window, wordBytes]
  refine ⟨Nat.div_add_mod o 4, Nat.mod_lt o (by decide), by omega, fun hlen => by omega,
    fun hzero => ?_⟩
  subst hzero
  split <;> omega

/-- Settles O60: the selector by its flag, the descriptor and the dispatcher by the variant. -/
theorem dispatcherForwardsToTheEngine : Obligations.DispatcherForwardsToTheEngine := by
  unfold Obligations.DispatcherForwardsToTheEngine
  refine ⟨fun v => ⟨rfl, rfl⟩, fun s o len => ⟨fun hv => ?_, fun hv => ?_⟩⟩
  · have hdesc : descriptor s.cfg = { size := s.cfg.sizeA, engine := .readA } := by
      rw [descriptor, hv]
    exact ⟨hdesc, by rw [dispatch, hdesc]⟩
  · have hdesc : descriptor s.cfg = { size := s.cfg.sizeB, engine := .readB } := by
      rw [descriptor, hv]
    exact ⟨hdesc, by rw [dispatch, hdesc]⟩

end Sys2Proof.Machine

/-! ### What the host procedures keep

`Kept` carries over to the procedures the engines are made of: each is a sequence of host lines with
the controller's moves between them (R95). -/

namespace Sys2Proof.Machine

section
variable {P : State → Prop} (k : Kept P)
include k

/-- Disabling a list of domains keeps `P` (R206). -/
theorem Kept.disableAll (ds : List Domain) {s : State} (h : P s) : P (Machine.disableAll ds s) := by
  induction ds generalizing s with
  | nil => exact h
  | cons d ds ih => exact ih (k.clockOff d _ (k.interleave _ _ h))

/-- `RELEASE` keeps `P` (R206). -/
theorem Kept.release {s : State} (h : P s) : P (Machine.release s) :=
  k.disableAll _ h

/-- Enabling a list of domains keeps `P` (R205). -/
theorem Kept.enableAll (ds enabled : List Domain) {s : State} (h : P s) :
    P (Machine.enableAll ds enabled s).2 := by
  induction ds generalizing enabled s with
  | nil => exact h
  | cons d ds ih =>
    have hline : P (lineClkEnable d s).2 := k.clockOn d _ (k.interleave _ _ h)
    rw [Machine.enableAll]
    split
    case h_1 t ht => exact ih _ (by rwa [ht] at hline)
    case h_2 t ht => exact k.disableAll _ (by rwa [ht] at hline)

/-- The reset pulse keeps `P` (R205). -/
theorem Kept.resetPulse {s : State} (h : P s) : P (Machine.resetPulse s).2 := by
  have hassert : P (lineRstAssert s).2 := k.resetOn _ (k.interleave _ _ h)
  have hdeassert : ∀ t, P t → P (lineRstDeassert (lineDelay resetHold t)).2 := fun t ht =>
    k.resetOff _ (k.interleave _ _ (k.delay _ _ (k.interleave _ _ ht)))
  unfold Machine.resetPulse
  split
  case h_1 t ht => exact k.release (by rwa [ht] at hassert)
  case h_2 t ht =>
    rw [ht] at hassert
    have hu := hdeassert t hassert
    split
    case h_1 u e => exact k.release (by rwa [e] at hu)
    case h_2 u e => rwa [e] at hu

/-- `ACQUIRE` keeps `P` (R205). -/
theorem Kept.acquire {s : State} (h : P s) : P (Machine.acquire s).2 := by
  have hclocks := k.enableAll [.func, .bus, .phy] [] h
  unfold Machine.acquire
  split
  case h_1 d t ht => rwa [ht] at hclocks
  case h_2 t ht => exact k.resetPulse (by rwa [ht] at hclocks)

/-- `WAIT_FOR` keeps `P` (R190). -/
theorem Kept.waitFor (r : Reg) (m : Word) {s : State} (h : P s) :
    P (Machine.waitFor r m s).state :=
  k.poll r m _ _ s h

/-- One word of the read loop of `READ_B` keeps `P` (R232). -/
theorem Kept.readWordB (w : Nat) {s : State} (h : P s) : P (Machine.readWordB w s).2 := by
  have hpoll := k.waitFor .irqSt s.cfg.mRdm
    (k.lineWrite .modeCtrl s.cfg.encRA _ (k.lineWrite .accessAddr (BitVec.ofNat 32 w) _
      (k.lineWrite .reprRdTransNum s.cfg.transOne _ h)))
  have hread : ∀ t, P t → P (lineRead .rdData t).2 := fun t ht =>
    k.read _ _ (k.interleave _ _ ht)
  unfold Machine.readWordB
  dsimp only
  split
  · have hu := hread _ hpoll
    split
    case h_1 d u e => rwa [e] at hu
    case h_2 u e => rwa [e] at hu
  · exact hpoll

/-- `ECC_OFF` keeps `P` (R170). -/
theorem Kept.eccOff {s : State} (h : P s) : P (Machine.eccOff s).2 :=
  k.waitFor _ _ (k.lineWrite _ _ _ (k.lineWrite _ _ _ (k.lineWrite _ _ _ (k.lineWrite _ _ _
    (k.lineWrite _ _ _ h)))))

/-- `USER_ON` keeps `P` (R171). -/
theorem Kept.userOn {s : State} (h : P s) : P (Machine.userOn s) :=
  k.delay _ _ (k.interleave _ _ (k.lineWrite _ _ _ h))

/-- `USER_OFF` keeps `P` (R171). -/
theorem Kept.userOff {s : State} (h : P s) : P (Machine.userOff s) :=
  k.lineWrite _ _ _ h

/-- `USER_READ_BYTE` keeps `P` (R172). -/
theorem Kept.userReadByte (o : Nat) {s : State} (h : P s) : P (Machine.userReadByte o s).2 := by
  have hpoll := k.waitFor .intStatus s.cfg.mUserDone
    (k.lineWrite .userEnable s.cfg.fsmGoWord _
      (k.lineWrite .userAddr (BitVec.ofNat 32 o ||| s.cfg.addrEnMask) _ h))
  have hread : ∀ t, P t → P (lineRead8 t).2 := fun t ht => k.read _ _ (k.interleave _ _ ht)
  unfold Machine.userReadByte
  dsimp only
  split
  · have hu := hread _ hpoll
    split
    case h_1 x u e => rwa [e] at hu
    case h_2 u e => rwa [e] at hu
  · exact hpoll

end

/-- The delay clock does not run back (R22). -/
theorem now_kept (n : Nat) : Kept fun t => n ≤ t.now where
  completion s h _ := by rw [complete_frame]; exact h
  schedule b s h := by rw [turnTaken_eq]; exact h
  fetched _ _ h := h
  mark _ _ h := h
  setsVar _ _ _ h := h
  pollOver _ h := h
  pollOn _ _ h _ := h
  read r s h := by rw [readEffect_frame]; exact h
  width r s h := by rw [badWidth_frame]; exact h
  write r d s h := by rw [regWrite_frame]; exact h
  delay m _ h := Nat.le_add_right_of_le h
  clockOn d s h := by rw [clkEnable_frame]; exact h
  clockOff _ _ h := h
  resetOn s h := by rw [rstAssert_frame]; exact h
  resetOff s h := by rw [rstDeassert_frame]; exact h

end Sys2Proof.Machine

/-! ### Host lines with nothing pending

With nothing pending the controller does not move before a line, so the line is its operation; and
what an `ACQUIRE` that returns Ok leaves, from which both engines begin. -/

namespace Sys2Proof.Machine

/-- With nothing pending a write line is the register write (R73). -/
theorem lineWrite_idle {s : State} (h : s.pending = false) (r : Reg) (d : Word) :
    lineWrite r d s = regWrite r d s := by
  rw [lineWrite, hostLine, interleave_idle false s h]

/-- With nothing pending a list of domains disabled moves the gate alone (R201). -/
theorem disableAll_idle (ds : List Domain) {s : State} (h : s.pending = false) :
    disableAll ds s = { s with gate := (disableAll ds s).gate } := by
  induction ds generalizing s with
  | nil => rfl
  | cons d ds ih =>
    have hrest := ih (s := clkDisable d s) h
    rw [disableAll, lineClkDisable, hostLine, interleave_idle false s h, hrest]
    rfl

/-- With nothing pending `RELEASE` moves the gate alone (R206). -/
theorem release_idle {s : State} (h : s.pending = false) :
    release s = { s with gate := (release s).gate } :=
  disableAll_idle _ h

/-- The state of a poll for bit `n` of `r` with nothing pending that could set it: the bit reads 0,
and stays so. -/
structure Unanswered (r : Reg) (n : Nat) (s : State) : Prop where
  isOpen : s.gate.isOpen = true
  live : s.statusRead r = true
  idle : s.pending = false
  clear : showsBit r n false s

/-- A poll's own lines leave it unanswered. -/
theorem Unanswered.of_moves {r : Reg} {n : Nat} {s t : State} (h : Unanswered r n s)
    (hm : pollMoves s t) : Unanswered r n t := by
  have hclear := showsBit_of_moves hm h.clear
  obtain ⟨_, _, _, rfl⟩ := hm
  exact ⟨h.isOpen, h.live, h.idle, hclear⟩

/-- A poll for a bit that reads 0 with nothing pending does not match (R190). -/
theorem Unanswered.not_matched {r : Reg} {n : Nat} {s : State} (h : Unanswered r n s)
    (hn : n < 32) (left made : Nat) : (pollLoop r (bit n) left made s).matched = false := by
  induction left generalizing made s with
  | zero =>
    rw [pollLoop_last r _ made s h.live]
    rw [interleave_idle true s h.idle]
    exact pollMatches_of_showsBit hn h.isOpen h.live h.clear
  | succ left ih =>
    have hread : pollMoves s (readEffect r s) := pollMoves_readEffect h.isOpen h.live
    rw [pollLoop_round r _ left made s h.live, interleave_idle true s h.idle,
      interleave_idle false _ (h.of_moves hread).idle]
    · exact ih (h.of_moves (pollMoves_trans hread (pollMoves_delayBy pollInterval _))) (made + 1)
    · rw [interleave_idle true s h.idle]
      exact pollMatches_of_showsBit hn h.isOpen h.live h.clear

/-- Equal stores are equal in each part. -/
theorem stores_eq_iff {s t : State} :
    t.stores = s.stores ↔
      t.cfg = s.cfg ∧ t.otpA = s.otpA ∧ t.otpB = s.otpB ∧ t.out = s.out ∧
        t.scratch = s.scratch := by
  simp only [State.stores, Prod.mk.injEq]

/-- An `ACQUIRE` that returns Ok leaves the gate open, the stores as they were, and the live variant
reset (R205). -/
theorem acquire_ok {s t : State} (hok : acquire s = (.ok, t)) :
    t.gate.isOpen = true ∧ t.stores = s.stores ∧ liveReset s.cfg t := by
  have hkept := (stores_kept s.stores).acquire rfl
  rw [hok] at hkept
  obtain ⟨hready, -⟩ := acquireIsAllOrNothing s t .ok hok
  obtain ⟨hclk, hrst, -, -, hlive⟩ := hready rfl
  exact ⟨(Gate.isOpen_iff _).2 ⟨hclk .func, hclk .bus, hclk .phy, hrst⟩, hkept, hlive⟩

end Sys2Proof.Machine

/-! ### The words of `READ_B` (R232)

From rest in ACT the three writes of one word issue the read-access of it; where the wait matches,
the word is in RD_DATA and variant B is at rest in ACT again. -/

namespace Sys2Proof.Machine

/-- What the read loop needs of a hardware word address: past the secure region, inside the array,
and within the address field (R27, R68, R134). -/
structure ReadableAt (c : Cfg) (w : Nat) : Prop where
  secure : 224 ≤ w
  inArray : w < c.otpWords
  inField : w < 2 ^ c.accessAddrW

/-- An address the field holds is not cut by it (R106). -/
theorem ofNat_and_ones {w n : Nat} (h : w < 2 ^ n) :
    BitVec.ofNat 32 w &&& ones n = BitVec.ofNat 32 w := by
  apply BitVec.eq_of_getLsbD_eq
  intro i _
  rw [getLsbD_and_ones]
  by_cases hi : i < n
  · rw [decide_eq_true hi, Bool.true_and]
  · have hzero : w.testBit i = false :=
      Nat.testBit_lt_two_pow (h.trans_le (Nat.pow_le_pow_right (by decide) (by omega)))
    rw [BitVec.getLsbD_ofNat, hzero, Bool.and_false, Bool.and_false]

/-- The address field is at most 32 bits wide (R7). -/
theorem accessAddrW_of_wf {c : Cfg} (h : c.wf = true) : c.accessAddrW ≤ 32 := by
  simp only [Cfg.wf, Cfg.widthsFit, Bool.and_eq_true, decide_eq_true_eq] at h
  omega

/-- The declared size is whole words, each of them readable (R7, R68). -/
theorem readableAt_of_wf {c : Cfg} (h : c.wf = true) {w : Nat} (hlo : 224 ≤ w)
    (hhi : w < 224 + c.sizeB / 4) : ReadableAt c w := by
  simp only [Cfg.wf, Cfg.widthsFit, Cfg.sizesFit, Bool.and_eq_true, decide_eq_true_eq,
    secureWordOffset, wordBytes] at h
  exact ⟨hlo, by omega, by omega⟩

/-- The declared size is a multiple of the word size (R7). -/
theorem sizeB_of_wf {c : Cfg} (h : c.wf = true) : c.sizeB % 4 = 0 := by
  simp only [Cfg.wf, Cfg.sizesFit, Bool.and_eq_true, decide_eq_true_eq, wordBytes] at h
  omega

/-- A readable address is a word's value (R27). -/
theorem ReadableAt.toNat_ofNat {c : Cfg} (hwf : c.wf = true) {w : Nat} (h : ReadableAt c w) :
    (BitVec.ofNat 32 w).toNat = w := by
  have hle : 2 ^ c.accessAddrW ≤ 2 ^ 32 :=
    Nat.pow_le_pow_right (by decide) (accessAddrW_of_wf hwf)
  rw [BitVec.toNat_ofNat, Nat.mod_eq_of_lt (h.inField.trans_le hle)]

/-- Variant B with the read parameters of the word `w` stored (R108, R106). -/
def State.withReadParams (s : State) (w : Word) : State :=
  { s with
    regsB := { s.regsB with transNum := some s.cfg.transOne, accessAddr := some w } }

/-- With no read-access pending a write of REPR_RD_TRANS_NUM stores the count (R108). -/
theorem regWrite_reprRdTransNum_free {s : State} (d : Word) (ho : s.gate.isOpen = true)
    (hv : s.cfg.variant = .B) (hp : s.readPending = false) :
    regWrite .reprRdTransNum d s = { s with regsB := { s.regsB with transNum := some d } } := by
  rw [regWrite, writeReprRdTransNum, access_free .reprRdTransNum ho hv.symm _ hp]

/-- With no read-access pending a write of ACCESS_ADDR stores the address cut to its field
(R106). -/
theorem regWrite_accessAddr_free {s : State} (d : Word) (ho : s.gate.isOpen = true)
    (hv : s.cfg.variant = .B) (hp : s.readPending = false) :
    regWrite .accessAddr d s =
      { s with regsB := { s.regsB with accessAddr := some (d &&& ones s.cfg.accessAddrW) } } := by
  rw [regWrite, writeAccessAddr, access_free .accessAddr ho hv.symm _ hp]

/-- A write of IRQ_ST leaves RD_DATA (R104). -/
theorem regWrite_irqSt_rdData (d : Word) (s : State) :
    (regWrite .irqSt d s).regsB.rdData = s.regsB.rdData := by
  rw [regWrite, writeIrqSt_frame rfl]

/-- Stored read parameters leave the configuration (R7). -/
@[simp] theorem State.withReadParams_cfg (s : State) (w : Word) :
    (s.withReadParams w).cfg = s.cfg := rfl

section
variable {m : Mode} {f : FaultSet} {s : State}

/-- Stored read parameters leave variant B at rest. -/
theorem AtRest.withReadParams (h : AtRest m f s) (w : Word) : AtRest m f (s.withReadParams w) :=
  ⟨h.wf, h.isOpen, h.variant, h.ctl, h.clear, h.faults⟩

/-- At rest no read-access is pending. -/
theorem AtRest.readPending (h : AtRest m f s) : s.readPending = false := by
  rw [readPending_false, h.ctl]
  nofun

/-- The two parameter lines of one word store its parameters (R232). -/
theorem AtRest.lineWrite_params (h : AtRest m f s) {w : Nat} (hw : ReadableAt s.cfg w) :
    lineWrite .accessAddr (BitVec.ofNat 32 w) (lineWrite .reprRdTransNum s.cfg.transOne s) =
      s.withReadParams (BitVec.ofNat 32 w) := by
  have htrans : lineWrite .reprRdTransNum s.cfg.transOne s = _ :=
    (lineWrite_idle h.idle _ _).trans
      (regWrite_reprRdTransNum_free _ h.isOpen h.variant h.readPending)
  have hrest : AtRest m f (lineWrite .reprRdTransNum s.cfg.transOne s) := by
    rw [htrans]
    exact ⟨h.wf, h.isOpen, h.variant, h.ctl, h.clear, h.faults⟩
  rw [lineWrite_idle hrest.idle,
    regWrite_accessAddr_free _ hrest.isOpen hrest.variant hrest.readPending, htrans]
  dsimp only
  rw [ofNat_and_ones hw.inField]
  rfl

/-- The three lines of one word issue its read-access (R130, R232). -/
theorem AtRest.lineWrite_read (h : AtRest .ACT f s) {w : Nat} (hw : ReadableAt s.cfg w) :
    lineWrite .modeCtrl s.cfg.encRA (lineWrite .accessAddr (BitVec.ofNat 32 w)
        (lineWrite .reprRdTransNum s.cfg.transOne s)) =
      (s.withReadParams (BitVec.ofNat 32 w)).issueB (.read (BitVec.ofNat 32 w)) := by
  have hrest := h.withReadParams (BitVec.ofNat 32 w)
  have hmode := congrArg CtlB.mode hrest.ctl
  have hidle := congrArg CtlB.pend hrest.ctl
  rw [h.lineWrite_params hw, lineWrite_idle hrest.idle]
  exact (writeModeCtrl_idle hrest.wf hrest.isOpen hrest.variant hidle .readAccess).trans
    ((issueMode_ACT hmode .readAccess).trans (issueReadAccess_known rfl rfl))

/-- The completion of a read-access of a readable word and the acknowledge of its bit, with what a
poll moves before and between them, come to rest in ACT with the fuse word in RD_DATA (R134). -/
theorem AtRest.completesRead {t u : State} {w : Word} (h : AtRest .ACT f s)
    (hw : readableWord s.cfg w = true) (ht : pollMoves (s.issueB (.read w)) t)
    (hu : pollMoves (complete t) u) :
    AtRest .ACT f (regWrite .irqSt (bit (s.cfg.irqPos .rdm)) u) ∧
      (regWrite .irqSt (bit (s.cfg.irqPos .rdm)) u).regsB.rdData = some (s.fuseB w.toNat) := by
  obtain ⟨now, reads, env, rfl⟩ := ht
  have hcomplete : complete { s.issueB (.read w) with now := now, statusReads := reads, env := env }
      = completeRead w _ := complete_readAccess h.variant rfl
  rw [hcomplete, completeRead] at hu
  simp only [State.issueB_cfg, hw, if_true] at hu
  obtain ⟨_, _, _, rfl⟩ := hu
  refine ⟨AtRest.of_acknowledge (j := .rdm) h.wf h.isOpen h.variant ?_ (fun b => ?_) h.faults, ?_⟩
  · exact congrArg (fun c : CtlB => { c with pend := none }) h.ctl
  · rw [← h.clear b]
    exact IrqSt.get_raise s.regsB.irqSt .rdm b
  · rw [regWrite_irqSt_rdData]
    rfl

/-- At rest a line that reads RD_DATA gives the word held and stays at rest (R110). -/
theorem AtRest.lineRead_rdData {d : Word} (h : AtRest m f s) (hd : s.regsB.rdData = some d) :
    lineRead .rdData s = (some d, s.spend) ∧ AtRest m f s.spend := by
  refine ⟨?_, h.wf, h.isOpen, h.variant, h.ctl, h.clear, h.faults⟩
  have hv : Reg.rdData.variant = s.cfg.variant := h.variant.symm
  rw [lineRead, interleave_idle false s h.idle, readResult,
    if_pos ((guardOk_iff .rdData s).2 ⟨h.isOpen, hv⟩), readEffect,
    access_open .rdData _ s h.isOpen hv, countStatusRead_of_not_status rfl, regValue,
    rdDataValue_of_idle h.readPending, hd, Option.getD_some]

/-- One word of the read loop that is read is the fuse word, and comes to rest in ACT (R232). -/
theorem AtRest.readWordB {u : State} {w : Nat} {d : Word} (h : AtRest .ACT f s)
    (hw : ReadableAt s.cfg w) (hok : readWordB w s = (.ok d, u)) :
    d = s.fuseB w ∧ AtRest .ACT f u := by
  have hrest := h.withReadParams (BitVec.ofNat 32 w)
  have hwaits : Awaits .irqSt (s.cfg.irqPos .rdm) _ :=
    awaits_of_B (s := (s.withReadParams (BitVec.ofNat 32 w)).issueB (.read (BitVec.ofNat 32 w)))
      h.wf h.isOpen h.variant rfl (h.clear .rdm)
  have hmask : s.cfg.mRdm = bit (s.cfg.irqPos .rdm) := rfl
  rw [Machine.readWordB, h.lineWrite_read hw, hmask, waitFor] at hok
  rcases hwaits.outcome (irqPos_lt _ _) (pollTimeout / pollInterval) 0 with
    ⟨k, hmatch, -, t, v, ht, hv, hstate⟩ | ⟨hfail, -⟩
  · have hread : readableWord s.cfg (BitVec.ofNat 32 w) = true :=
      (readableWord_iff _ _).2 (by rw [hw.toNat_ofNat h.wf]; exact ⟨hw.secure, hw.inArray⟩)
    obtain ⟨hdone, hdata⟩ := hrest.completesRead hread ht hv
    rw [State.withReadParams_cfg, ← hstate] at hdone hdata
    obtain ⟨hline, hspent⟩ := hdone.lineRead_rdData hdata
    rw [if_pos hmatch, hline] at hok
    cases hok
    rw [hw.toNat_ofNat h.wf]
    exact ⟨rfl, hspent⟩
  · rw [hfail] at hok
    cases hok

end

/-- The lanes of four bytes put together are those bytes (R63). -/
theorem wordLanes_append (a b c d : Byte) : wordLanes (d ++ c ++ b ++ a) = [a, b, c, d] := by
  have h0 : BitVec.extractLsb' 0 8 (d ++ c ++ b ++ a) = a := BitVec.extractLsb'_append_eq_right
  have h1 : BitVec.extractLsb' 8 8 (d ++ c ++ b ++ a) = b :=
    (BitVec.extractLsb'_append_eq_of_le (by decide)).trans BitVec.extractLsb'_append_eq_right
  have h2 : BitVec.extractLsb' 16 8 (d ++ c ++ b ++ a) = c :=
    (BitVec.extractLsb'_append_eq_of_le (by decide)).trans
      ((BitVec.extractLsb'_append_eq_of_le (by decide)).trans BitVec.extractLsb'_append_eq_right)
  have h3 : BitVec.extractLsb' 24 8 (d ++ c ++ b ++ a) = d :=
    (BitVec.extractLsb'_append_eq_of_le (by decide)).trans
      ((BitVec.extractLsb'_append_eq_of_le (by decide)).trans BitVec.extractLsb'_append_eq_left)
  simp only [wordLanes, List.cons.injEq, and_true]
  exact ⟨h0, h1, h2, h3⟩

/-- States with the same listed bytes hold the same lanes (R42). -/
theorem fuseLaneB_of_otpB {s t : State} (h : t.otpB = s.otpB) (w j : Nat) :
    t.fuseLaneB w j = s.fuseLaneB w j := by
  rw [State.fuseLaneB, State.fuseLaneB, h]

/-- The bytes of `n` fuse words from word `w`, lane 0 of each first (R63, R233). -/
def State.fuseBytesB (s : State) (w n : Nat) : List Byte :=
  (List.range (4 * n)).map fun k => s.fuseLaneB (w + k / 4) (k % 4)

/-- The bytes of fuse words are read from the fuse array alone (R42). -/
theorem fuseBytesB_of_otpB {s t : State} (h : t.otpB = s.otpB) (w n : Nat) :
    t.fuseBytesB w n = s.fuseBytesB w n := by
  simp only [State.fuseBytesB, fuseLaneB_of_otpB h]

/-- The bytes of `n` words are `4 * n` (R63). -/
theorem length_fuseBytesB (s : State) (w n : Nat) : (s.fuseBytesB w n).length = 4 * n := by
  rw [State.fuseBytesB, List.length_map, List.length_range]

/-- Byte `k` of the words from `w` is its lane of its word (R63). -/
theorem getElem?_fuseBytesB (s : State) (w : Nat) {n k : Nat} (hk : k < 4 * n) :
    (s.fuseBytesB w n)[k]? = some (s.fuseLaneB (w + k / 4) (k % 4)) := by
  rw [State.fuseBytesB, List.getElem?_map, List.getElem?_range hk, Option.map_some]

/-- The bytes of `n + 1` words are the lanes of the first and the bytes of the rest (R233). -/
theorem fuseBytesB_succ (s : State) (w n : Nat) :
    s.fuseBytesB w (n + 1) = wordLanes (s.fuseB w) ++ s.fuseBytesB (w + 1) n := by
  have hrest : ∀ k, s.fuseLaneB (w + (4 + k) / 4) ((4 + k) % 4) =
      s.fuseLaneB (w + 1 + k / 4) (k % 4) := fun k => by
    congr 1 <;> omega
  rw [State.fuseBytesB, Nat.mul_succ, Nat.add_comm, List.range_add, List.map_append, List.map_map,
    State.fuseB, wordLanes_append]
  exact congrArg _ (List.map_congr_left fun k _ => hrest k)

/-- Where `onOk` comes to Ok and an error of the sub-procedure is never Ok, it returned a value and what
follows came to Ok (R223, R234). -/
theorem onOk_eq_ok {α : Type} {p : Except CallResult α × State}
    {next : α → State → CallResult × State} {t : State} (hp : p.1 ≠ .error .ok)
    (h : onOk p next = (.ok, t)) : ∃ a u, p = (.ok a, u) ∧ next a u = (.ok, t) := by
  obtain ⟨r, u⟩ := p
  cases r with
  | ok a => exact ⟨a, u, rfl, h⟩
  | error e =>
    cases h
    exact absurd rfl hp

/-- The error that stops a word is never Ok (R232). -/
theorem readWordB_error (w : Nat) (s : State) : (readWordB w s).1 ≠ .error .ok := by
  rw [readWordB]
  split
  · split <;> nofun
  · nofun

/-- From rest in ACT the read loop that ends with no error has appended the bytes of its words to
the scratch buffer, stored nothing else, and is at rest in ACT (R232). -/
theorem AtRest.readLoopB {f : FaultSet} {s t : State} {w n : Nat} (h : AtRest .ACT f s)
    (hlo : 224 ≤ w) (hhi : w + n ≤ 224 + s.cfg.sizeB / 4) (hok : readLoopB w n s = (.ok, t)) :
    AtRest .ACT f t ∧
      t.stores = { s with scratch := s.scratch ++ s.fuseBytesB w n }.stores := by
  induction n generalizing w s with
  | zero =>
    cases hok
    exact ⟨h, by simp [State.fuseBytesB]⟩
  | succ n ih =>
    rw [Machine.readLoopB] at hok
    obtain ⟨d, u, hd, hrest⟩ := onOk_eq_ok (readWordB_error w s) hok
    obtain ⟨rfl, hu⟩ := h.readWordB (readableAt_of_wf h.wf hlo (by omega)) hd
    have hstores : u.stores = s.stores := by
      have hkept := (stores_kept s.stores).readWordB w rfl
      rwa [hd] at hkept
    obtain ⟨hcfg, hA, hB, hout, hscratch⟩ := stores_eq_iff.1 hstores
    have hstart : AtRest .ACT f { u with scratch := u.scratch ++ wordLanes (s.fuseB w) } :=
      ⟨hu.wf, hu.isOpen, hu.variant, hu.ctl, hu.clear, hu.faults⟩
    obtain ⟨ht, hloop⟩ := ih hstart (by omega) (by rw [hcfg]; omega) hrest
    refine ⟨ht, hloop.trans (stores_eq_iff.2 ⟨hcfg, hA, hB, hout, ?_⟩)⟩
    dsimp only
    rw [fuseBytesB_succ, hscratch]
    exact (congrArg _ (fuseBytesB_of_otpB hB (w + 1) n)).trans (List.append_assoc ..)

/-- The window of a request inside the declared size ends inside it (R231). -/
theorem window_le_size {c : Cfg} (h : c.wf = true) {o len : Nat} (hsize : o + len ≤ c.sizeB) :
    (window o len).first + (window o len).count ≤ c.sizeB / 4 := by
  have hwords := sizeB_of_wf h
  dsimp only [window, wordBytes]
  omega

/-- What the copy of a request takes of its window's bytes (R233). -/
def State.copiedB (s : State) (o len : Nat) : List Byte :=
  ((s.fuseBytesB (224 + (window o len).first) (window o len).count).drop
    (window o len).inOffset).take len

/-- The window holds as many bytes as the request asks for (R231). -/
theorem length_copiedB (s : State) (o len : Nat) : (s.copiedB o len).length = len := by
  obtain ⟨hstart, -, hcover, -⟩ := windowCoversTheRequest o len
  rw [State.copiedB, List.length_take, List.length_drop, length_fuseBytesB]
  omega

/-- Byte `i` of the copy is the lane of the word that holds byte `o + i` (R68, R233). -/
theorem getElem?_copiedB (s : State) (o : Nat) {len i : Nat} (hi : i < len) :
    (s.copiedB o len)[i]? = some (s.fuseLaneB (224 + (o + i) / 4) ((o + i) % 4)) := by
  obtain ⟨hstart, hlane, hcover, -⟩ := windowCoversTheRequest o len
  rw [State.copiedB, List.getElem?_take_of_lt hi, List.getElem?_drop,
    getElem?_fuseBytesB _ _ (by omega)]
  congr 2 <;> omega

/-- From rest in ACT the window that is read without an error puts the requested bytes into the
buffer, each its lane of its word, and no other byte; it is at rest in ACT (R231, R232, R233). -/
theorem AtRest.readWindowB {f : FaultSet} {s t : State} {o len : Nat} (h : AtRest .ACT f s)
    (hsize : o + len ≤ s.cfg.sizeB) (hok : readWindowB o len s = (.ok, t)) :
    AtRest .ACT f t ∧
      (∀ i, i < len → t.out.read i = some (s.fuseLaneB (224 + (o + i) / 4) ((o + i) % 4))) ∧
      ∀ i, len ≤ i → t.out.read i = s.out.read i := by
  rw [Machine.readWindowB] at hok
  split at hok
  case h_2 e u hne _ => exact absurd (Prod.mk.inj hok).1 hne
  case h_1 u hloop =>
    cases hok
    have hend := window_le_size h.wf hsize
    have hstart : AtRest .ACT f { s with scratch := [] } :=
      ⟨h.wf, h.isOpen, h.variant, h.ctl, h.clear, h.faults⟩
    obtain ⟨hu, hstores⟩ := hstart.readLoopB (Nat.le_add_right _ _)
      ((Nat.add_assoc _ _ _).trans_le (Nat.add_le_add_left hend 224)) hloop
    obtain ⟨-, -, -, hout, hscratch⟩ := stores_eq_iff.1 hstores
    have hcopy : (u.scratch.drop (window o len).inOffset).take len = s.copiedB o len := by
      rw [hscratch]
      rfl
    refine ⟨⟨hu.wf, hu.isOpen, hu.variant, hu.ctl, hu.clear, hu.faults⟩, fun i hi => ?_,
      fun i hi => ?_⟩
    · dsimp only
      rw [hcopy, Memory.read_writeList, length_copiedB, if_pos (by omega)]
      exact getElem?_copiedB s o hi
    · dsimp only
      rw [hcopy, Memory.read_writeList, length_copiedB, if_neg (by omega), hout]

/-- `ACQUIRE` on variant B with the status bits clear after reset comes to rest (R205, R304). -/
theorem atRest_of_acquire {s t : State} (hwf : s.cfg.wf = true) (hv : s.cfg.variant = .B)
    (hzero : s.cfg.statusReset = .zero) (hok : acquire s = (.ok, t)) :
    AtRest t.ctlB.mode t.faults t ∧ t.stores = s.stores := by
  obtain ⟨hopen, hstores, hB, -⟩ := acquire_ok hok
  obtain ⟨hcfg, -⟩ := stores_eq_iff.1 hstores
  obtain ⟨hpend, hregs⟩ := hB hv
  refine ⟨⟨hcfg ▸ hwf, hopen, hcfg ▸ hv, by rw [← hpend], fun b => ?_, rfl⟩, hstores⟩
  rw [hregs, hzero]
  exact IrqSt.get_resetValue .zero b

/-- From rest the walk up and the window that end without an error put the requested bytes into the
buffer, and no other byte, and come to rest in ACT (R232). -/
theorem AtRest.readUpB {m : Mode} {f : FaultSet} {s t : State} {o len : Nat} (h : AtRest m f s)
    (hsize : o + len ≤ s.cfg.sizeB) (hok : readUpB o len s = (.ok, t)) :
    AtRest .ACT f t ∧
      (∀ i, i < len → t.out.read i = some (s.fuseLaneB (224 + (o + i) / 4) ((o + i) % 4))) ∧
      ∀ i, len ≤ i → t.out.read i = s.out.read i := by
  have hstores : (Machine.walkUp s).2.stores = s.stores := (stores_kept s.stores).walkUp s rfl
  obtain ⟨hcfg, -, hB, hout, -⟩ := stores_eq_iff.1 hstores
  rw [Machine.readUpB] at hok
  split at hok
  case h_2 e hne => exact absurd (Prod.mk.inj hok).1 hne
  case h_1 hup =>
    obtain ⟨ht, hread, hother⟩ :=
      (h.walkUp (Prod.ext hup rfl)).readWindowB (by rwa [hcfg]) hok
    refine ⟨ht, fun i hi => ?_, fun i hi => ?_⟩
    · rw [hread i hi, fuseLaneB_of_otpB hB]
    · rw [hother i hi, hout]

/-- A `READ_B` that returns Ok had no error in its reads (R234, R235). -/
theorem eq_ok_of_finishB {r : CallResult} {s t : State} {diag : Option CallResult}
    (hok : finishB r s = (.ok, diag, t)) : r = .ok := by
  rw [finishB] at hok
  split at hok
  case isTrue => exact (Prod.mk.inj hok).1
  case isFalse =>
    dsimp only at hok
    split at hok
    case isTrue => cases hok
    case isFalse => exact (Prod.mk.inj hok).1

/-- The end of a `READ_B` whose reads succeeded: it leaves the buffer, the clocks off and the
scratch buffer empty, and deep-standby where the walk-down returned Ok (R232, R233, R235). -/
theorem AtRest.finishB {m : Mode} {f : FaultSet} {s t : State} {diag : Option CallResult}
    (h : AtRest m f s) (hok : finishB .ok s = (.ok, diag, t)) :
    t.out = s.out ∧ (diag = some .ok → t.ctlB.mode = .DS) ∧
      (∀ d, t.gate.clk d = false) ∧ t.scratch = [] := by
  rw [Machine.finishB] at hok
  rw [if_neg (by decide)] at hok
  dsimp only at hok
  split at hok
  case isTrue => cases hok
  case isFalse =>
    cases hok
    have hstores := (stores_kept s.stores).release ((stores_kept s.stores).walkDown s rfl)
    obtain ⟨-, -, -, hout, -⟩ := stores_eq_iff.1 hstores
    refine ⟨hout, fun hdown => ?_, release_clk _, rfl⟩
    have hrest : AtRest .DS f (Machine.walkDown s).2 :=
      h.walkDown (Prod.ext (Option.some.inj hdown) rfl)
    dsimp only
    rw [release_idle hrest.idle]
    exact congrArg CtlB.mode hrest.ctl

/-- Settles O56: `ACQUIRE` comes to rest, the window is read at rest in ACT, and the end leaves the
buffer. -/
theorem readBReturnsTheFuseBytes : Obligations.ReadBReturnsTheFuseBytes := by
  unfold Obligations.ReadBReturnsTheFuseBytes
  intro s o len hwf hv
  refine ⟨fun hpast => if_pos hpast, fun diag t hzero ho hok => ?_⟩
  rw [readB, if_neg (by omega)] at hok
  split at hok
  case h_2 e u hne _ => exact absurd (Prod.mk.inj hok).1 hne
  case h_1 u hacquire =>
    obtain ⟨hrest, hstores⟩ := atRest_of_acquire hwf hv hzero hacquire
    obtain ⟨hcfg, -, hB, hout, -⟩ := stores_eq_iff.1 hstores
    have hsize : o + clampLength s.cfg o len ≤ u.cfg.sizeB := by
      rw [hcfg, clampLength]
      omega
    rw [readActiveB] at hok
    have hresult := eq_ok_of_finishB hok
    obtain ⟨hactive, hread, hother⟩ := hrest.readUpB hsize (Prod.ext hresult rfl)
    rw [hresult] at hok
    obtain ⟨hbuffer, hend⟩ := hactive.finishB hok
    refine ⟨fun i hi => ?_, fun i hi => ?_, hend⟩
    · rw [hbuffer, hread i hi, fuseLaneB_of_otpB hB]
    · rw [hbuffer, hother i hi, hout]

end Sys2Proof.Machine

/-! ### The port of variant A at rest

Variant A between two operations of `READ_A`: `PortA` is what holds whether an operation is pending
or not, `AtRestA` with none pending. A completion and the acknowledge of its bit lead from the one
to the other. -/

namespace Sys2Proof.Machine

/-- Variant A with the gate open, every status bit clear, and a byte address that fits its field. -/
structure PortA (s : State) : Prop where
  wf : s.cfg.wf = true
  isOpen : s.gate.isOpen = true
  variant : s.cfg.variant = .A
  clear : ∀ b, s.regsA.intStatus.get b = some false
  addrFits : ∀ a, s.regsA.uaddr = some a → a.toNat < 2 ^ s.cfg.userAddrW

/-- Variant A's port with nothing pending. -/
structure AtRestA (s : State) : Prop extends PortA s where
  pend : s.ctlA.pend = none

/-- At rest nothing is pending. -/
theorem AtRestA.idle {s : State} (h : AtRestA s) : s.pending = false := by
  rw [pending_eq_of_A h.variant, h.pend]
  rfl

/-- A completion of variant A moves the byte read, its status bit, the ECC state and the model's own
fields, and leaves nothing pending (R161, R165). -/
theorem complete_A {s : State} {p : PendA} (hv : s.cfg.variant = .A)
    (hp : s.ctlA.pend = some p) :
    ∃ q ecc env, complete s = { s with
      regsA := { s.regsA with q := q, intStatus := s.regsA.intStatus.raise p.statusBit },
      ctlA := { s.ctlA with eccEn := ecc, pend := none }, statusReads := 0, env := env } := by
  cases p with
  | sbpi dap c0 c1 => exact ⟨_, _, _, complete_sbpi hv hp⟩
  | user a =>
    rw [complete_user hv hp, completeUser]
    cases readableByte s a <;> exact ⟨_, _, _, rfl⟩

/-- The acknowledge of the one bit that is set leaves the port at rest (R119). -/
theorem AtRestA.of_acknowledge {s : State} {j : IntBit} (hwf : s.cfg.wf = true)
    (ho : s.gate.isOpen = true) (hv : s.cfg.variant = .A) (hp : s.ctlA.pend = none)
    (hbits : ∀ b, s.regsA.intStatus.get b = if b = j then some true else some false)
    (hfits : ∀ a, s.regsA.uaddr = some a → a.toNat < 2 ^ s.cfg.userAddrW) :
    AtRestA (regWrite .intStatus (bit (s.cfg.intPos j)) s) := by
  rw [regWrite_intStatus_open _ ho hv]
  refine ⟨⟨hwf, ho, hv, fun b => ?_, hfits⟩, hp⟩
  rw [IntStatus.get_acknowledge, hbits]
  by_cases hb : b = j
  · rw [hb, getLsbD_bit, decide_eq_true (intPos_lt s.cfg j), decide_eq_true rfl]
    rfl
  · rw [if_neg hb, ite_self]

/-- A write of INT_STATUS leaves the byte read, the ECC state, user mode and its time of entry
(R119). -/
theorem regWrite_intStatus_others (d : Word) (s : State) :
    (regWrite .intStatus d s).regsA.q = s.regsA.q ∧
      (regWrite .intStatus d s).ctlA.eccEn = s.ctlA.eccEn ∧
      (regWrite .intStatus d s).regsA.useUser = s.regsA.useUser ∧
      (regWrite .intStatus d s).ctlA.userOnAt = s.ctlA.userOnAt := by
  rw [regWrite, writeIntStatus_frame rfl]
  exact ⟨rfl, rfl, rfl, rfl⟩

/-- What a completion and the acknowledge of its bit leave of the port that `s` was: at rest, and
but for the byte read and the ECC state, which are the completion's, as it was (R161, R165, R119).
-/
structure CompletedA (s c t : State) : Prop where
  rest : AtRestA t
  q : t.regsA.q = c.regsA.q
  eccEn : t.ctlA.eccEn = c.ctlA.eccEn
  useUser : t.regsA.useUser = s.regsA.useUser
  userOnAt : t.ctlA.userOnAt = s.ctlA.userOnAt

/-- The completion of what is pending and the acknowledge of its bit, with what a poll moves before
and between them, complete the port (R161, R165, R192). -/
theorem PortA.completes {s t u : State} {p : PendA} (h : PortA s) (hp : s.ctlA.pend = some p)
    (ht : pollMoves s t) (hu : pollMoves (complete t) u) :
    CompletedA s (complete t) (regWrite .intStatus (bit (s.cfg.intPos p.statusBit)) u) := by
  obtain ⟨now, reads, env, rfl⟩ := ht
  obtain ⟨q, ecc, env', hc⟩ := complete_A
    (s := { s with now := now, statusReads := reads, env := env }) h.variant hp
  rw [hc] at hu ⊢
  obtain ⟨_, _, _, rfl⟩ := hu
  obtain ⟨hq, hecc, huser, honAt⟩ := regWrite_intStatus_others (bit (s.cfg.intPos p.statusBit)) _
  refine ⟨AtRestA.of_acknowledge (j := p.statusBit) h.wf h.isOpen h.variant rfl (fun b => ?_)
    h.addrFits, hq, hecc, huser, honAt⟩
  rw [← h.clear b]
  exact IntStatus.get_raise s.regsA.intStatus p.statusBit b

/-- A poll for the status bit of what is pending that matches completes the port (R190, R195). -/
theorem PortA.waitFor {s : State} {p : PendA} (h : PortA s) (hp : s.ctlA.pend = some p)
    (hmatch : (waitFor .intStatus (bit (s.cfg.intPos p.statusBit)) s).matched = true) :
    ∃ t, pollMoves s t ∧ CompletedA s (complete t)
      (Machine.waitFor .intStatus (bit (s.cfg.intPos p.statusBit)) s).state := by
  have hwaits := awaits_of_A h.wf h.isOpen h.variant hp (h.clear p.statusBit)
  rw [Machine.waitFor] at hmatch ⊢
  rcases hwaits.outcome (intPos_lt _ _) (pollTimeout / pollInterval) 0 with
    ⟨k, -, -, t, u, ht, hu, hstate⟩ | ⟨hfail, -⟩
  · rw [hstate]
    exact ⟨t, ht, h.completes hp ht hu⟩
  · cases hfail.symm.trans hmatch

/-- A poll of the port at rest does not match (R190). -/
theorem AtRestA.waitFor_not_matched {s : State} (h : AtRestA s) (b : IntBit) :
    (waitFor .intStatus (bit (s.cfg.intPos b)) s).matched = false := by
  have hclear : showsBit .intStatus (s.cfg.intPos b) false s := fun x =>
    IntStatus.readValue_known _ _ x (statusBitsDistinct_of_wf h.wf).2 _ _ (h.clear b)
  have hstill : Unanswered .intStatus (s.cfg.intPos b) s :=
    ⟨h.isOpen, (statusRead_intStatus_iff s).2 h.variant, h.idle, hclear⟩
  exact hstill.not_matched (intPos_lt _ _) _ _

end Sys2Proof.Machine

/-! ### ECC off (R170)

The five writes of `ECC_OFF` move only the SBPI registers. The last one issues the command that
turns ECC off or nothing at all: where the enable pulse lies inside the DAP field (R7 does not
exclude it) a start can be refused. The wait tells the two apart. -/

namespace Sys2Proof.Machine

/-- What writes of the SBPI registers move: those registers, the pending operation, the marks and
the model's own fields (R113 to R118, R160). -/
def sbpiMoves (s t : State) : Prop :=
  ∃ dap cmdValid cmd0 cmd1 pend reads faults refused env,
    t = { s with
      regsA := { s.regsA with dap := dap, cmdValid := cmdValid, cmd0 := cmd0, cmd1 := cmd1 },
      ctlA := { s.ctlA with pend := pend }, statusReads := reads, faults := faults,
      refused := refused, env := env }

/-- What writes move twice they move. -/
theorem sbpiMoves_trans {s t u : State} (h : sbpiMoves s t) (h' : sbpiMoves t u) :
    sbpiMoves s u := by
  obtain ⟨_, _, _, _, _, _, _, _, _, rfl⟩ := h
  obtain ⟨dap, cmdValid, cmd0, cmd1, pend, reads, faults, refused, env, rfl⟩ := h'
  exact ⟨dap, cmdValid, cmd0, cmd1, pend, reads, faults, refused, env, rfl⟩

/-- Writes of the SBPI registers leave the port (R113 to R118, R160). -/
theorem PortA.of_sbpiMoves {s t : State} (h : PortA s) (hm : sbpiMoves s t) : PortA t := by
  obtain ⟨_, _, _, _, _, _, _, _, _, rfl⟩ := hm
  exact ⟨h.wf, h.isOpen, h.variant, h.clear, h.addrFits⟩

/-- A write of SBPI_CTRL moves what the SBPI writes move (R160). -/
theorem sbpiMoves_sbpiCtrl (d : Word) (s : State) : sbpiMoves s (regWrite .sbpiCtrl d s) :=
  ⟨_, _, _, _, _, _, _, _, _, writeSbpiCtrl_frame rfl⟩

/-- A write of a command register moves what the SBPI writes move, and nothing pending (R113, R115,
R117). -/
theorem sbpiMoves_command {r : Reg} (hr : r = .sbpiCmdValidPre ∨ r = .sbpiCmd0 ∨ r = .sbpiCmd1)
    (d : Word) (s : State) :
    sbpiMoves s (regWrite r d s) ∧ (regWrite r d s).ctlA.pend = s.ctlA.pend := by
  rcases hr with rfl | rfl | rfl
  · exact ⟨⟨_, _, _, _, _, _, _, _, _, writeSbpiCmdValidPre_frame rfl⟩, by
      rw [regWrite, writeSbpiCmdValidPre_frame rfl]⟩
  · exact ⟨⟨_, _, _, _, _, _, _, _, _, writeSbpiCmd0_frame rfl⟩, by
      rw [regWrite, writeSbpiCmd0_frame rfl]⟩
  · exact ⟨⟨_, _, _, _, _, _, _, _, _, writeSbpiCmd1_frame rfl⟩, by
      rw [regWrite, writeSbpiCmd1_frame rfl]⟩

/-- With no SBPI command pending a write of SBPI_CMD1 stores the word (R117). -/
theorem regWrite_sbpiCmd1_free {s : State} (d : Word) (ho : s.gate.isOpen = true)
    (hv : s.cfg.variant = .A) (hp : s.sbpiPending = false) :
    regWrite .sbpiCmd1 d s = { s with regsA := { s.regsA with cmd1 := some d } } := by
  rw [regWrite, writeSbpiCmd1, access_free .sbpiCmd1 ho hv.symm _ hp]

/-- At rest a write of SBPI_CTRL leaves nothing pending, or the documented command with the payload
SBPI_CMD1 holds (R160). -/
theorem AtRestA.writeSbpiCtrl_pend {s : State} (h : AtRestA s) (d : Word) :
    (regWrite .sbpiCtrl d s).ctlA.pend = none ∨
      ∃ c1, s.regsA.cmd1 = some c1 ∧
        (regWrite .sbpiCtrl d s).ctlA.pend =
          some (.sbpi s.cfg.dapEcc s.cfg.sbpiCmd0Word c1) := by
  have hwrite : ∀ t, exec (.w32SbpiCtrl d) s = .next t → regWrite .sbpiCtrl d s = t :=
    fun t e => Host.Outcome.next.inj e
  cases hstart : pulseSet s.cfg.sbpiEnBit.val d with
  | false =>
    rw [hwrite _ (exec_w32SbpiCtrl_select h.isOpen h.variant hstart (.inl h.pend)),
      updateDap_frame]
    exact .inl h.pend
  | true =>
    rw [hwrite _ (exec_w32SbpiCtrl_start h.isOpen h.variant h.pend hstart)]
    cases hready : eccCommandReady (updateDap d s) with
    | false =>
      rw [startSbpi_refused hready]
      exact .inl h.pend
    | true =>
      obtain ⟨-, -, -, hcmd1⟩ := (eccCommandReady_updateDap_iff d s).1 hready
      obtain ⟨c1, hc1⟩ : ∃ c1, s.regsA.cmd1 = some c1 := by
        rcases hcmd1 with e | e <;> exact ⟨_, e⟩
      rw [startSbpi_ready hready hc1]
      exact .inr ⟨c1, hc1, rfl⟩

/-- At rest a line that writes a command register leaves the port at rest (R113, R115, R117). -/
theorem AtRestA.lineWrite_command {s : State} (h : AtRestA s) {r : Reg}
    (hr : r = .sbpiCmdValidPre ∨ r = .sbpiCmd0 ∨ r = .sbpiCmd1) (d : Word) :
    sbpiMoves s (lineWrite r d s) ∧ AtRestA (lineWrite r d s) := by
  obtain ⟨hmoves, hpend⟩ := sbpiMoves_command hr d s
  rw [lineWrite_idle h.idle]
  exact ⟨hmoves, h.of_sbpiMoves hmoves, hpend.trans h.pend⟩

/-- The writes of `ECC_OFF` leave nothing pending, or the command that turns ECC off; the first of
them starts nothing, since SBPI_CMD1 holds no payload yet (R170). -/
theorem AtRestA.eccOffWrites {s : State} (h : AtRestA s) (hcmd1 : s.regsA.cmd1 = none) :
    sbpiMoves s (eccOffWrites s) ∧
      ((eccOffWrites s).ctlA.pend = none ∨
        ∃ dap c0, (eccOffWrites s).ctlA.pend = some (.sbpi dap c0 s.cfg.sbpiCmd1Off)) := by
  rw [Machine.eccOffWrites]
  obtain ⟨m1, h1⟩ : sbpiMoves s (lineWrite .sbpiCtrl s.cfg.sbpiSelWord s) ∧
      AtRestA (lineWrite .sbpiCtrl s.cfg.sbpiSelWord s) := by
    have hmoves := sbpiMoves_sbpiCtrl s.cfg.sbpiSelWord s
    rw [lineWrite_idle h.idle]
    refine ⟨hmoves, h.of_sbpiMoves hmoves, ?_⟩
    rcases h.writeSbpiCtrl_pend s.cfg.sbpiSelWord with hp | ⟨c1, hc1, -⟩
    · exact hp
    · cases hcmd1.symm.trans hc1
  generalize lineWrite .sbpiCtrl s.cfg.sbpiSelWord s = s1 at m1 h1 ⊢
  obtain ⟨m2, h2⟩ := h1.lineWrite_command (r := .sbpiCmdValidPre) (.inl rfl) s.cfg.sbpiCmdvWord
  generalize lineWrite .sbpiCmdValidPre s.cfg.sbpiCmdvWord s1 = s2 at m2 h2 ⊢
  obtain ⟨m3, h3⟩ := h2.lineWrite_command (r := .sbpiCmd0) (.inr (.inl rfl)) s.cfg.sbpiCmd0Word
  generalize lineWrite .sbpiCmd0 s.cfg.sbpiCmd0Word s2 = s3 at m3 h3 ⊢
  obtain ⟨m4, h4⟩ := h3.lineWrite_command (r := .sbpiCmd1) (.inr (.inr rfl)) s.cfg.sbpiCmd1Off
  have hpayload : (lineWrite .sbpiCmd1 s.cfg.sbpiCmd1Off s3).regsA.cmd1 =
      some s.cfg.sbpiCmd1Off := by
    have hfree := (sbpiPending_false s3).2 fun a c d => by rw [h3.pend]; nofun
    rw [lineWrite_idle h3.idle, regWrite_sbpiCmd1_free _ h3.isOpen h3.variant hfree]
  generalize lineWrite .sbpiCmd1 s.cfg.sbpiCmd1Off s3 = s4 at m4 h4 hpayload ⊢
  have m5 := sbpiMoves_sbpiCtrl s.cfg.sbpiGoWord s4
  rw [lineWrite_idle h4.idle]
  refine ⟨sbpiMoves_trans m1 (sbpiMoves_trans m2 (sbpiMoves_trans m3 (sbpiMoves_trans m4 m5))), ?_⟩
  rcases h4.writeSbpiCtrl_pend s.cfg.sbpiGoWord with hp | ⟨c1, hc1, hp⟩
  · exact .inl hp
  · cases hpayload.symm.trans hc1
    exact .inr ⟨_, _, hp⟩

/-- From rest an `ECC_OFF` that returns Ok has turned ECC off, left user mode as it was, and comes
to rest (R161, R162, R170). -/
theorem AtRestA.eccOff {s t : State} (h : AtRestA s) (hcmd1 : s.regsA.cmd1 = none)
    (hok : eccOff s = (.ok, t)) :
    AtRestA t ∧ t.ctlA.eccEn = false ∧ t.regsA.useUser = s.regsA.useUser := by
  obtain ⟨hmoves, hpend⟩ := h.eccOffWrites hcmd1
  have hport := h.of_sbpiMoves hmoves
  obtain ⟨hcfg, huser⟩ : (Machine.eccOffWrites s).cfg = s.cfg ∧
      (Machine.eccOffWrites s).regsA.useUser = s.regsA.useUser := by
    obtain ⟨_, _, _, _, _, _, _, _, _, e⟩ := hmoves
    rw [e]
    exact ⟨rfl, rfl⟩
  rw [Machine.eccOff] at hok
  generalize Machine.eccOffWrites s = v at hpend hport hcfg huser hok
  have hmask : s.cfg.mSbpiDone = bit (v.cfg.intPos .sbpiDone) := by rw [hcfg]; rfl
  rw [hmask] at hok
  obtain ⟨hresult, rfl⟩ := Prod.mk.inj hok
  split at hresult
  case isFalse => cases hresult
  case isTrue hmatch =>
    rcases hpend with hp | ⟨dap, c0, hp⟩
    · have hrest : AtRestA v := ⟨hport, hp⟩
      cases (hrest.waitFor_not_matched .sbpiDone).symm.trans hmatch
    · obtain ⟨t, ⟨now, reads, env, rfl⟩, hdone⟩ := hport.waitFor hp hmatch
      refine ⟨hdone.rest, hdone.eccEn.trans ?_, hdone.useUser.trans huser⟩
      rw [complete_sbpi (s := { v with now := now, statusReads := reads, env := env })
        hport.variant hp]
      exact if_pos (congrArg Cfg.sbpiCmd1Off hcfg).symm

end Sys2Proof.Machine

/-! ### The bytes of `READ_A` (R221)

In settled user mode with ECC off the two writes of one byte issue the user read of its wrapped
address; where the wait matches, the byte is in USER_Q and variant A is as before. -/

namespace Sys2Proof.Machine

/-- Where a byte read begins and ends: the port at rest, ECC off, and user mode settled (R164). -/
structure ReadsBytes (s : State) : Prop extends AtRestA s where
  eccOff : s.ctlA.eccEn = false
  inUser : s.regsA.useUser = true
  settled : ∃ entered, s.ctlA.userOnAt = some entered ∧ entered + 5 ≤ s.now

/-- The word that turns user mode on enables its bit and sets it (R93). -/
theorem userOnWord_bits (c : Cfg) :
    c.userOnWord.getLsbD (16 + c.useUserBit.val) = true ∧
      c.userOnWord.getLsbD c.useUserBit.val = true := by
  have hlow : c.useUserBit.val < 32 := by omega
  have hhigh : 16 + c.useUserBit.val < 32 := by omega
  simp [Cfg.userOnWord, getLsbD_bit, hlow, hhigh]

/-- The word that turns user mode off enables its bit and clears it (R93). -/
theorem userOffWord_bits (c : Cfg) :
    c.userOffWord.getLsbD (16 + c.useUserBit.val) = true ∧
      c.userOffWord.getLsbD c.useUserBit.val = false := by
  have hhigh : 16 + c.useUserBit.val < 32 := by omega
  simp [Cfg.userOffWord, getLsbD_bit, hhigh]

/-- The word that starts a user read is the pulse (R93). -/
theorem pulseSet_fsmGoWord (c : Cfg) : pulseSet c.fsmEnBit.val c.fsmGoWord = true := by
  have hlow : c.fsmEnBit.val < 32 := by omega
  have hhigh : 16 + c.fsmEnBit.val < 32 := by omega
  simp [pulseSet, Cfg.fsmGoWord, getLsbD_bit, hlow, hhigh]

section
variable {s : State}

/-- At rest an enabled write line of USER_CTRL sets user mode (R163). -/
theorem AtRestA.lineWrite_userCtrl (h : AtRestA s) {d : Word}
    (hen : d.getLsbD (16 + s.cfg.useUserBit.val) = true) :
    lineWrite .userCtrl d s = setUserMode (d.getLsbD s.cfg.useUserBit.val) s := by
  rw [lineWrite_idle h.idle]
  exact Host.Outcome.next.inj (exec_w32UserCtrl_free h.isOpen h.variant hen (by simp [h.pend]))

/-- From rest with ECC off and user mode off `USER_ON` comes to where bytes are read (R171). -/
theorem AtRestA.userOn (h : AtRestA s) (hecc : s.ctlA.eccEn = false)
    (huser : s.regsA.useUser = false) : ReadsBytes (userOn s) := by
  obtain ⟨hen, hon⟩ := userOnWord_bits s.cfg
  have henter := (h.lineWrite_userCtrl hen).trans
    ((congrArg (setUserMode · s) hon).trans (setUserMode_enter huser))
  have hidle : (lineWrite .userCtrl s.cfg.userOnWord s).pending = false := by
    rw [henter]
    exact h.idle
  rw [Machine.userOn, lineDelay, hostLine, interleave_idle false _ hidle, henter]
  exact ⟨⟨⟨h.wf, h.isOpen, h.variant, h.clear, h.addrFits⟩, h.pend⟩, hecc, rfl,
    s.now, rfl, le_refl _⟩

/-- `USER_OFF` after the reads leaves user mode off, ECC off and nothing pending (R171). -/
theorem ReadsBytes.userOff (h : ReadsBytes s) :
    (userOff s).regsA.useUser = false ∧ (userOff s).ctlA.eccEn = false ∧
      (userOff s).pending = false := by
  obtain ⟨hen, hoff⟩ := userOffWord_bits s.cfg
  rw [Machine.userOff, h.lineWrite_userCtrl hen, hoff]
  exact ⟨rfl, h.eccOff, h.idle⟩

/-- A stored byte address that fits its field leaves where bytes are read (R122). -/
theorem ReadsBytes.withAddr (h : ReadsBytes s) {a : Half}
    (ha : a.toNat < 2 ^ s.cfg.userAddrW) :
    ReadsBytes { s with regsA := { s.regsA with uaddr := some a } } :=
  ⟨⟨⟨h.wf, h.isOpen, h.variant, h.clear, fun b hb => by cases hb; exact ha⟩, h.pend⟩, h.eccOff,
    h.inUser, h.settled⟩

/-- At rest the address line of a byte stores the byte address cut to its field (R122). -/
theorem AtRestA.lineWrite_userAddr (h : AtRestA s) (o : Nat) :
    lineWrite .userAddr (BitVec.ofNat 32 o ||| s.cfg.addrEnMask) s =
      { s with
        regsA := { s.regsA with
          uaddr := some (BitVec.ofNat 16 (o % 2 ^ s.cfg.userAddrW)) } } := by
  obtain ⟨hw1, hw16⟩ := userAddrW_of_wf h.wf
  rw [lineWrite_idle h.idle, ← maskedData_addrWord,
    ← updateUaddr_full hw1 (addrWord_enables s.cfg o hw16) h.addrFits]
  exact Host.Outcome.next.inj (exec_w32UserAddr_free _ h.isOpen h.variant (by simp [h.pend]))

/-- In settled user mode the pulse line issues the user read of the byte address held (R164). -/
theorem ReadsBytes.lineWrite_userEnable (h : ReadsBytes s) {a : Half}
    (ha : s.regsA.uaddr = some a) :
    lineWrite .userEnable s.cfg.fsmGoWord s = s.issueA (.user a) := by
  obtain ⟨entered, hon, hlate⟩ := h.settled
  have hsettled : ¬unsettled s = true := mt (unsettled_iff hon).1 (by omega)
  have hwrite : regWrite .userEnable s.cfg.fsmGoWord s = _ :=
    Host.Outcome.next.inj (exec_w32UserEnable_open h.isOpen h.variant)
  rw [lineWrite_idle h.idle, hwrite, if_pos (pulseSet_fsmGoWord s.cfg), h.pend,
    if_neg (by simp), if_neg (by simp [h.inUser]), if_neg hsettled, issueUserRead_known ha]

/-- A wrapped byte address is a half word's value (R38). -/
theorem toNat_wrapped {c : Cfg} (h : c.wf = true) (o : Nat) :
    (BitVec.ofNat 16 (o % 2 ^ c.userAddrW)).toNat = o % 2 ^ c.userAddrW := by
  have hle : 2 ^ c.userAddrW ≤ 2 ^ 16 :=
    Nat.pow_le_pow_right (by decide) (userAddrW_of_wf h).2
  rw [BitVec.toNat_ofNat, Nat.mod_eq_of_lt ((Nat.mod_lt _ (Nat.two_pow_pos _)).trans_le hle)]

/-- At rest a line that reads USER_Q gives the byte held and stays at rest (R125). -/
theorem AtRestA.lineRead8 (h : AtRestA s) {x : Byte} (hq : s.regsA.q = some x) :
    lineRead8 s = (some (x.setWidth 32), s.spend) := by
  have hv : Reg.userQ.variant = s.cfg.variant := h.variant.symm
  have hfree := (userPending_false s).2 fun a => by rw [h.pend]; nofun
  rw [Machine.lineRead8, interleave_idle false s h.idle, readResult8,
    if_pos ((guardOk_iff .userQ s).2 ⟨h.isOpen, hv⟩), readEffect,
    access_open .userQ _ s h.isOpen hv, countStatusRead_of_not_status rfl, userQByte_of_idle hfree,
    hq, Option.getD_some]

/-- A draw leaves where bytes are read. -/
theorem ReadsBytes.spend (h : ReadsBytes s) : ReadsBytes s.spend :=
  ⟨⟨⟨h.wf, h.isOpen, h.variant, h.clear, h.addrFits⟩, h.pend⟩, h.eccOff, h.inUser, h.settled⟩

/-- The completion of a user read with ECC off puts a byte into USER_Q, the fuse byte where its
address is inside the array (R165, R166). -/
theorem ReadsBytes.completesUser {t : State} {a : Half} (h : ReadsBytes s)
    (hm : pollMoves (s.issueA (.user a)) t) :
    (complete t).ctlA.eccEn = false ∧
      ∃ x, (complete t).regsA.q = some x ∧ (a.toNat < s.cfg.otpBytes → x = s.fuseA a.toNat) := by
  have hv : t.cfg.variant = .A := by rw [pollMoves_cfg hm]; exact h.variant
  have hp : t.ctlA.pend = some (.user a) := by obtain ⟨_, _, _, rfl⟩ := hm; rfl
  rw [complete_user hv hp, completeUser]
  obtain ⟨_, _, _, rfl⟩ := hm
  generalize hr : readableByte _ a = readable
  cases readable with
  | true => exact ⟨h.eccOff, _, rfl, fun _ => rfl⟩
  | false =>
    refine ⟨h.eccOff, _, rfl, fun hin => ?_⟩
    cases hr.symm.trans ((readableByte_iff _ a).2 ⟨h.eccOff, hin⟩)

/-- The wait for an issued user read that matches has its byte in USER_Q, and the next byte can be
read (R165, R172). -/
theorem ReadsBytes.waitFor {a : Half} (h : ReadsBytes s)
    (hmatch : (waitFor .intStatus (bit (s.cfg.intPos .userDone))
      (s.issueA (.user a))).matched = true) :
    ReadsBytes (Machine.waitFor .intStatus (bit (s.cfg.intPos .userDone))
        (s.issueA (.user a))).state ∧
      ∃ x, (Machine.waitFor .intStatus (bit (s.cfg.intPos .userDone))
          (s.issueA (.user a))).state.regsA.q = some x ∧
        (a.toNat < s.cfg.otpBytes → x = s.fuseA a.toNat) := by
  have hport : PortA (s.issueA (.user a)) := ⟨h.wf, h.isOpen, h.variant, h.clear, h.addrFits⟩
  have hnow := (now_kept s.now).waitFor .intStatus (bit (s.cfg.intPos .userDone))
    (s := s.issueA (.user a)) (le_refl _)
  obtain ⟨t, ht, hdone⟩ := hport.waitFor rfl hmatch
  obtain ⟨hecc, x, hq, hx⟩ := h.completesUser ht
  obtain ⟨entered, hon, hlate⟩ := h.settled
  exact ⟨⟨hdone.rest, hdone.eccEn.trans hecc, hdone.useUser.trans h.inUser,
    entered, hdone.userOnAt.trans hon, hlate.trans hnow⟩, x, hdone.q.trans hq, hx⟩

/-- A byte that is read is the fuse byte of its wrapped address where that is inside the array, and
the next byte can be read (R165, R172). -/
theorem ReadsBytes.userReadByte {t : State} {o : Nat} {b : Byte} (h : ReadsBytes s)
    (hok : userReadByte o s = (.ok b, t)) :
    ReadsBytes t ∧ (o % 2 ^ s.cfg.userAddrW < s.cfg.otpBytes →
      b = s.fuseA (o % 2 ^ s.cfg.userAddrW)) := by
  have hwrap := toNat_wrapped h.wf o
  have haddr := h.withAddr (a := BitVec.ofNat 16 (o % 2 ^ s.cfg.userAddrW))
    (by rw [hwrap]; exact Nat.mod_lt _ (Nat.two_pow_pos _))
  have hissue := haddr.lineWrite_userEnable rfl
  rw [Machine.userReadByte, h.lineWrite_userAddr, hissue] at hok
  split at hok
  case isFalse => cases hok
  case isTrue hmatch =>
    obtain ⟨hnext, x, hq, hx⟩ := haddr.waitFor hmatch
    have hread := hnext.lineRead8 hq
    split at hok
    case h_2 u hu => cases hok
    case h_1 y u hu =>
      cases hok
      cases hread.symm.trans hu
      rw [hwrap] at hx
      have hback : (x.setWidth 32).setWidth 8 = x := by simp
      exact ⟨hnext.spend, fun hin => hback.trans (hx hin)⟩

/-- States with the same listed bytes hold the same fuse bytes (R42). -/
theorem fuseA_of_otpA {s t : State} (h : t.otpA = s.otpA) (a : Nat) : t.fuseA a = s.fuseA a := by
  rw [State.fuseA, State.fuseA, h]

/-- The error that stops a byte is never Ok (R172). -/
theorem userReadByte_error (o : Nat) (s : State) : (userReadByte o s).1 ≠ .error .ok := by
  rw [Machine.userReadByte]
  split
  · split <;> nofun
  · nofun

/-- The loop of `READ_A` that ends with no error has put into the buffer, for each of its indices,
the fuse byte of the wrapped address where that is inside the array, and no byte at another index
(R221). -/
theorem ReadsBytes.readLoopA {t : State} {o i left : Nat} (h : ReadsBytes s)
    (hok : readLoopA o i left s = (.ok, t)) :
    ReadsBytes t ∧
      (∀ j, i ≤ j → j < i + left → (o + j) % 2 ^ s.cfg.userAddrW < s.cfg.otpBytes →
        t.out.read j = some (s.fuseA ((o + j) % 2 ^ s.cfg.userAddrW))) ∧
      ∀ j, j < i ∨ i + left ≤ j → t.out.read j = s.out.read j := by
  induction left generalizing i s with
  | zero =>
    cases hok
    exact ⟨h, fun j hlo hhi => by omega, fun _ _ => rfl⟩
  | succ left ih =>
    rw [Machine.readLoopA] at hok
    obtain ⟨b, u, hb, hrest⟩ := onOk_eq_ok (userReadByte_error (o + i) s) hok
    obtain ⟨hu, hbyte⟩ := h.userReadByte hb
    have hstores : u.stores = s.stores := by
      have hkept := (stores_kept s.stores).userReadByte (o + i) rfl
      rwa [hb] at hkept
    obtain ⟨hcfg, hA, -, hout, -⟩ := stores_eq_iff.1 hstores
    have hstart : ReadsBytes { u with out := u.out.write i b } :=
      ⟨⟨⟨hu.wf, hu.isOpen, hu.variant, hu.clear, hu.addrFits⟩, hu.pend⟩, hu.eccOff, hu.inUser,
        hu.settled⟩
    obtain ⟨ht, hread, hother⟩ := ih hstart hrest
    dsimp only at hread
    rw [hcfg] at hread
    refine ⟨ht, fun j hlo hhi hin => ?_, fun j hj => ?_⟩
    · rcases Nat.eq_or_lt_of_le hlo with rfl | hlt
      · rw [hother i (.inl (Nat.lt_succ_self i)), Memory.read_write, if_pos rfl, hbyte hin]
      · exact (hread j hlt (by omega) hin).trans (congrArg some (fuseA_of_otpA hA _))
    · rw [hother j (by omega), Memory.read_write, if_neg (by omega), hout]

end

/-- `ACQUIRE` on variant A with the status bits clear after reset comes to rest, with user mode off
and SBPI_CMD1 holding nothing (R205, R304). -/
theorem atRestA_of_acquire {s t : State} (hwf : s.cfg.wf = true) (hv : s.cfg.variant = .A)
    (hzero : s.cfg.statusReset = .zero) (hok : acquire s = (.ok, t)) :
    AtRestA t ∧ t.regsA.useUser = false ∧ t.regsA.cmd1 = none ∧ t.stores = s.stores := by
  obtain ⟨hopen, hstores, -, hA⟩ := acquire_ok hok
  obtain ⟨hcfg, -⟩ := stores_eq_iff.1 hstores
  obtain ⟨hpend, hregs⟩ := hA hv
  refine ⟨⟨⟨hcfg ▸ hwf, hopen, hcfg ▸ hv, fun b => ?_, by rw [hregs]; nofun⟩, hpend⟩,
    by rw [hregs]; rfl, by rw [hregs]; rfl, hstores⟩
  rw [hregs, hzero]
  exact IntStatus.get_resetValue .zero b

/-- A `READ_A` that returns Ok had no error in its reads (R221, R223). -/
theorem eq_ok_of_finishA {r : CallResult} {s t : State} (hok : finishA r s = (.ok, t)) :
    r = .ok := by
  rw [finishA] at hok
  split at hok <;> exact (Prod.mk.inj hok).1

/-- The end of a `READ_A` whose reads succeeded: it leaves the buffer, and user mode, ECC and the
clocks off (R221). -/
theorem ReadsBytes.finishA {s t : State} (h : ReadsBytes s) (hok : finishA .ok s = (.ok, t)) :
    t.out = s.out ∧ t.regsA.useUser = false ∧ t.ctlA.eccEn = false ∧
      ∀ d, t.gate.clk d = false := by
  obtain ⟨huser, hecc, hidle⟩ := h.userOff
  rw [Machine.finishA, if_neg (by decide)] at hok
  cases hok
  have hstores := (stores_kept s.stores).release ((stores_kept s.stores).userOff rfl)
  obtain ⟨-, -, -, hout, -⟩ := stores_eq_iff.1 hstores
  refine ⟨hout, ?_, ?_, release_clk _⟩
  · rw [release_idle hidle]
    exact huser
  · rw [release_idle hidle]
    exact hecc

/-- Settles O57: `ACQUIRE` comes to rest, ECC and user mode are set up, the loop reads the bytes,
and the end leaves the buffer. -/
theorem readAReturnsTheFuseBytes : Obligations.ReadAReturnsTheFuseBytes := by
  unfold Obligations.ReadAReturnsTheFuseBytes
  intro s t o n hwf hv hzero hok
  rw [readA] at hok
  split at hok
  case h_2 e u hne _ => exact absurd (Prod.mk.inj hok).1 hne
  case h_1 u hacquire =>
    obtain ⟨hrest, huser, hcmd1, hstores⟩ := atRestA_of_acquire hwf hv hzero hacquire
    split at hok
    case h_2 e w hne _ => exact absurd (Prod.mk.inj hok).1 hne
    case h_1 w hecc =>
      obtain ⟨hrest', heccEn, huser'⟩ := hrest.eccOff hcmd1 hecc
      have hready := hrest'.userOn heccEn (huser'.trans huser)
      have hkept : (userOn w).stores = s.stores := by
        have hecc' := (stores_kept s.stores).eccOff hstores
        rw [hecc] at hecc'
        exact (stores_kept s.stores).userOn hecc'
      obtain ⟨hcfg, hA, -, hout, -⟩ := stores_eq_iff.1 hkept
      rw [readBytesA] at hok
      have hresult := eq_ok_of_finishA hok
      obtain ⟨hend, hread, hother⟩ := hready.readLoopA (Prod.ext hresult rfl)
      rw [hresult] at hok
      obtain ⟨hbuffer, hoff⟩ := hend.finishA hok
      rw [hcfg] at hread
      refine ⟨fun i hi hin => ?_, fun i hi => ?_, hoff⟩
      · rw [hbuffer, hread i (Nat.zero_le i) (by omega) hin, fuseA_of_otpA hA]
      · rw [hbuffer, hother i (by omega), hout]

end Sys2Proof.Machine

/-! ### The launch (R291, R292)

At launch no operation is pending, no poll is under way, no time is held, and no address or DAP
field has a value, so what `Invariant` asks of these holds of nothing. -/

namespace Sys2Proof.Machine

/-- No clock runs at launch (R46). -/
@[simp] theorem Gate.clk_launchValue (d : Domain) : Gate.launchValue.clk d = false := by
  cases d <;> rfl

/-- No kind is recorded in the empty fault set (R23). -/
@[simp] theorem FaultSet.has_none (k : FaultKind) : FaultSet.none.has k = false := by
  cases k <;> rfl

/-- Whatever the fuse bytes, the draws and the hosts, the launch of a configuration R7
allows has the invariant (R292). -/
theorem invariant_launch {c : Cfg} (hwf : c.wf = true) (a b : Memory) (e : Env)
    (hosts : List (List Word)) : Invariant (State.launch c a b e hosts) := by
  have hfields : fieldsFit (State.launch c a b e hosts) := ⟨nofun, nofun, nofun⟩
  have hpendB : pendingFitsB (State.launch c a b e hosts) := nofun
  have hpendA : pendingFitsA (State.launch c a b e hosts) := ⟨nofun, nofun⟩
  have htimes : timesFit (State.launch c a b e hosts) := ⟨⟨rfl, nofun⟩, rfl, nofun⟩
  have hother : otherIdle (State.launch c a b e hosts) := by
    unfold otherIdle
    split <;> rfl
  have hpoll : pollFits (State.launch c a b e hosts) := nofun
  exact ⟨hwf, hfields, hpendB, hpendA, htimes, hother, hpoll⟩

/-- The configuration of State.reset is one R7 allows (log entry 1). -/
theorem launchCfg_wf : launchCfg.wf = true := by decide

/-- Settles O11: `invariant_launch`, and for `State.reset` that its configuration is legal. -/
theorem launchSatisfiesTheInvariant : Obligations.LaunchSatisfiesTheInvariant := by
  unfold Obligations.LaunchSatisfiesTheInvariant
  exact ⟨fun _ a b e hosts hwf => invariant_launch hwf a b e hosts,
    invariant_launch launchCfg_wf [] [] Env.free []⟩

/-- A host variable has no value at launch (R43, R49). -/
@[simp] theorem State.getVar_launch (c : Cfg) (a b : Memory) (e : Env) (hosts : List (List Word))
    (n : Var) : (State.launch c a b e hosts).getVar n = none := by
  simp [State.getVar, State.launch]

/-- A launch with at most one host is not refused (R77). -/
theorem State.launch_refused_of_admitted (c : Cfg) (a b : Memory) (e : Env)
    {hosts : List (List Word)} (h : hosts.length ≤ 1) :
    (State.launch c a b e hosts).refused = none :=
  if_pos h

/-- A launch with two or more hosts is refused and runs none of them (R77, R265; log entry 22). -/
theorem State.launch_of_concurrentHosts (c : Cfg) (a b : Memory) (e : Env)
    {hosts : List (List Word)} (h : 2 ≤ hosts.length) :
    (State.launch c a b e hosts).refused = some .concurrentHost ∧
      (State.launch c a b e hosts).program = [] :=
  have hmany : ¬ hosts.length ≤ 1 := by omega
  ⟨if_neg hmany, if_neg hmany⟩

/-- Settles O45: the gate, the faults, the status bits and the variables by their reset values, the
refusal by the number of hosts; every other field is written out in the launch state. -/
theorem launchLeavesTheResetValues : Obligations.LaunchLeavesTheResetValues := by
  unfold Obligations.LaunchLeavesTheResetValues
  intro c a b e hosts
  exact ⟨Gate.clk_launchValue, rfl, rfl, rfl, FaultSet.has_none, rfl, rfl, rfl, rfl, rfl, rfl, rfl,
    rfl, rfl, rfl, rfl, rfl, rfl, IrqSt.get_resetValue c.statusReset,
    IntStatus.get_resetValue c.statusReset, State.getVar_launch c a b e hosts, fun _ => rfl, rfl,
    rfl, State.launch_refused_of_admitted c a b e, State.launch_of_concurrentHosts c a b e⟩

end Sys2Proof.Machine
